-- ==== Sys2Proof/Word.lean ====
section
/-! DEFINITION. The widths of the LZW encoder core's values (10_state.md R10, 00_scope.md R5, 30_encoding.md R45).
Every width here is the one of this hardware (`BITS = 12`); `Sys2Proof/Config.lean` holds the parameters they come from. -/

namespace Sys2Proof

/-- A data byte, a token's payload or an output byte (8 bits). -/
abbrev Byte := BitVec 8

/-- A code: `BITS` = 12 bits (30_encoding.md R49). -/
abbrev Code := BitVec 12

/-- A slot index or a probe stride: `IDXW` = 13 bits (10_state.md R17). -/
abbrev SlotIx := BitVec 13

/-- The bit accumulator: `BUFW` = 19 bits (10_state.md R14). -/
abbrev BitBuf := BitVec 19

/-- The count of valid accumulator bits: 5 bits (10_state.md R15). -/
abbrev BitCount := BitVec 5

/-- A packed table slot: `SLOTW` = 32 bits (30_encoding.md R50). -/
abbrev SlotWord := BitVec 32

/-- An event word `cls(1) op(4) arg(8)`: 13 bits (30_encoding.md R45). -/
abbrev EventWord := BitVec 13

/-- The container in which a line of a trace is written down: the event word zero-extended, then one such word for
each operand (the model's own; notes/assumptions/3.md). -/
abbrev TraceWord := BitVec 16

/-- `zext_13` of a code. -/
abbrev Code.toIx (c : Code) : SlotIx := c.setWidth 13

/-- `zext_13` of a byte. -/
abbrev Byte.toIx (b : Byte) : SlotIx := b.setWidth 13

/-- `zext_BITS` of a byte: the root code of that byte (30_encoding.md R53). -/
abbrev Byte.toCode (b : Byte) : Code := b.setWidth 12

end Sys2Proof
end

