-- ==== Sys2Proof/Config.lean ====
section
/-! DEFINITION. The parameters of the core and their values on this hardware (00_scope.md R3), the legality of a
parameter set (R4), the derived constants (R5), and the free values: what the spec leaves without a value. -/

namespace Sys2Proof

/-- A parameter set (00_scope.md R3). The machine of this package is the core with the values `Config.hw`;
the reference functions of `Machine/Compress.lean` take any legal set and refuse the others. -/
structure Params where
  /-- width in bits of every code -/
  bits : Nat
  /-- number of slots of the dictionary table -/
  tableSize : Nat
  /-- left shift applied to the byte in the home index -/
  hashShift : Nat
  /-- number of pre-populated single-byte roots -/
  roots : Nat
  /-- first code the sequencer hands out -/
  firstCode : Nat
  deriving DecidableEq, Repr

/-- `MAX_VALUE = 2^BITS - 1`, the sentinel (R3). -/
def Params.maxValue (P : Params) : Nat := 2 ^ P.bits - 1

/-- `MAX_CODE = MAX_VALUE - 1`, the largest assignable code (R3). -/
def Params.maxCode (P : Params) : Nat := P.maxValue - 1

/-- `IDXW = ceil(log2(TABLE_SIZE))` (R5). -/
def Params.idxWidth (P : Params) : Nat := Nat.clog 2 P.tableSize

/-- `BUFW = BITS + 7` (R5). -/
def Params.bufWidth (P : Params) : Nat := P.bits + 7

/-- `SLOTW = 2*BITS + 8` (R5). -/
def Params.slotWidth (P : Params) : Nat := 2 * P.bits + 8

/-- `NCODES = MAX_CODE - FIRST_CODE + 1` (R5). -/
def Params.nCodes (P : Params) : Nat := P.maxCode - P.firstCode + 1

/-- `MAXPOP = ROOTS + NCODES` (R5). -/
def Params.maxPop (P : Params) : Nat := P.roots + P.nCodes

/-- `MINEMPTY = TABLE_SIZE - MAXPOP` (R5). -/
def Params.minEmpty (P : Params) : Nat := P.tableSize - P.maxPop

/-- No integer in `[d, d + k)` divides `n`. -/
def noDivisorFrom (n d : Nat) : Nat → Bool
  | 0 => true
  | k + 1 => n % d != 0 && noDivisorFrom n (d + 1) k

/-- Primality by trial division by every integer from 2 to `n - 1`, the check R4 item 4 says was done for 5021. -/
def isPrime (n : Nat) : Bool := decide (2 ≤ n) && noDivisorFrom n 2 (n - 2)

/-- What is wrong with a parameter set, one name for each item of 00_scope.md R4. -/
inductive ParamError where
  /-- item 1: `BITS >= 9` (and `MAX_VALUE`, `MAX_CODE` as defined) -/
  | bitsTooFew
  /-- item 2: `8 + HASH_SHIFT <= BITS` -/
  | shiftTooWide
  /-- item 3: `TABLE_SIZE > 2^BITS` -/
  | tableTooSmall
  /-- item 4: `TABLE_SIZE` is prime -/
  | tableNotPrime
  /-- item 5: `ROOTS <= 256` and `ROOTS <= FIRST_CODE <= MAX_CODE` -/
  | rootsOutOfRange
  deriving DecidableEq, Repr

/-- The check of R4: the first broken item, or `none` for a legal set. A set that breaks one is refused by that
name and gets no meaning (60_exceptions.md R132, 93_implementation_defined.md U4). -/
def Params.check (P : Params) : Option ParamError :=
  if P.bits < 9 then some .bitsTooFew
  else if P.bits < 8 + P.hashShift then some .shiftTooWide
  else if P.tableSize ≤ 2 ^ P.bits then some .tableTooSmall
  else if isPrime P.tableSize = false then some .tableNotPrime
  else if 256 < P.roots ∨ P.firstCode < P.roots ∨ P.maxCode < P.firstCode then some .rootsOutOfRange
  else none

/-- A legal parameter set (R4). -/
abbrev Params.Legal (P : Params) : Prop := P.check = none

namespace Config

/-- The parameters of this hardware (R3, column "this hardware"). -/
def hw : Params := { bits := 12, tableSize := 5021, hashShift := 4, roots := 256, firstCode := 256 }

/-- `BITS` (R3). -/
abbrev BITS : Nat := 12
/-- `TABLE_SIZE` (R3). -/
abbrev TABLE_SIZE : Nat := 5021
/-- `HASH_SHIFT` (R3; decision D2). -/
abbrev HASH_SHIFT : Nat := 4
/-- `ROOTS` (R3; decision D3). -/
abbrev ROOTS : Nat := 256
/-- `FIRST_CODE` (R3; decision D3). -/
abbrev FIRST_CODE : Code := 256#12
/-- `MAX_VALUE`, the sentinel `0xFFF` (R3). -/
abbrev MAX_VALUE : Code := 0xFFF#12
/-- `MAX_CODE` = `0xFFE` (R3). -/
abbrev MAX_CODE : Code := 0xFFE#12

/-! Free values. Each is a constant with no body: nothing in Lean can say what it is, so a claim proved of the model
holds whatever the hardware holds there. Those indexed by a `Nat` are applied to `State.freeIx`. -/

/-- `nextCode` where R26 says "no value" (after RESET and after FAIL). -/
opaque freeNextCode : Nat → Code
/-- `bitBuffer` where R26 says "no value". -/
opaque freeBitBuffer : Nat → BitBuf
/-- `pendingBits` where R26 says "no value". -/
opaque freePendingBits : Nat → BitCount
/-- The packed word of slot `i` where R26 says the table holds "no value". -/
opaque freeSlotWord : Nat → Nat → SlotWord
/-- `idx` where R26 says "no value" (after RESET, FAIL and START). -/
opaque freeIdx : Nat → SlotIx
/-- `stride` where R26 says "no value" (after RESET, FAIL and START). -/
opaque freeStride : Nat → SlotIx
/-- The result of STRIDE for an operand that names no slot, which R61 does not state. -/
opaque strideOutside : SlotIx → SlotIx
/-- The result of NEXT for operands outside R62's ranges, which R62 does not state. -/
opaque nextOutside : SlotIx → SlotIx → SlotIx
/-- The byte FLUSH pushes when `pendingBits > 8` (R85's `8 - pendingBits` is then no shift count). -/
opaque flushOutside : BitBuf → BitCount → Byte
/-- For how many edges `start_ready` is held low (44_interfaces.md R109, R115: finite, not specified). -/
opaque freeStartStall : Nat → Nat
/-- For how many edges `in_ready` is held low (R110, R115). -/
opaque freeInStall : Nat → Nat
/-- Whether `in_ready` may be high while `outq` still holds bytes (R115: its liveness needs the sink to accept them). -/
opaque freeInGate : Nat → Bool
/-- For how many edges `out_valid` is held low after a byte is there (R111, R115). -/
opaque freeOutStall : Nat → Nat
/-- `out_data` while `out_valid = 0` (R111 gives it a value only while `out_valid = 1`). -/
opaque freeOutData : Nat → Byte
/-- `out_last` while `out_valid = 0`. -/
opaque freeOutLast : Nat → Bool

end Config

end Sys2Proof
end

