-- ==== Sys2Proof/Syntax.lean ====
section
/-! DEFINITION. The instructions: the six events of 30_encoding.md R46 and the eleven internal operations of R47, one
constructor per row of spec/opcode_table.json. -/

namespace Sys2Proof

/-- The cause mask of FAIL, a two-bit mask that is not 0 (R46, 60_exceptions.md R122). -/
inductive FailMask where
  /-- `m = 1`: INPUT_READ_FAILURE -/
  | input
  /-- `m = 2`: OUTPUT_WRITE_FAILURE -/
  | output
  /-- `m = 3`: both on the same edge -/
  | both
  deriving DecidableEq, Repr

/-- The mask as the two bits recorded in `failCause` (30_encoding.md R55). -/
def FailMask.bits : FailMask → BitVec 2
  | .input => 1#2
  | .output => 2#2
  | .both => 3#2

/-- The events and operations. An internal operation carries the operands that a trace line writes after its
mnemonic (R47: they are not encoded in the event word). -/
inductive Instr where
  /-- BYTE d: the input source delivers a data byte (R93, R94) -/
  | byte (d : Byte)
  /-- END: the input source delivers the end marker (R97, R98) -/
  | endInput
  /-- START: the host creates a session (R92) -/
  | start
  /-- FAIL m: the environment reports an I/O failure (R121) -/
  | fail (m : FailMask)
  /-- POP: the sink accepts the byte at the head of `outq` (R112) -/
  | pop
  /-- RESET: the host asserts reset (R135) -/
  | reset
  /-- HASH(p, b): the home index of a key (R60) -/
  | hash (p : Code) (b : Byte)
  /-- STRIDE(h): the probe stride of a home index (R61) -/
  | stride (h : SlotIx)
  /-- NEXT(i, s): the next probe position (R62) -/
  | next (i d : SlotIx)
  /-- LOOKUP(p, b): find a key's slot (R63) -/
  | lookup (p : Code) (b : Byte)
  /-- INSERT(s, a, p, b): populate a slot (R65) -/
  | insert (i : SlotIx) (a p : Code) (b : Byte)
  /-- TINIT: fill the table for a new session (R66) -/
  | tinit
  /-- SINIT: start the code counter (R75) -/
  | sinit
  /-- ALLOC: hand out the next code, if one is left (R76) -/
  | alloc
  /-- PINIT: the empty accumulator (R82) -/
  | pinit
  /-- EMIT(c): append one code and drain whole bytes (R83) -/
  | emit (c : Code)
  /-- FLUSH: emit the last partial byte and reset the accumulator (R85) -/
  | flush
  deriving DecidableEq, Repr

/-- The mnemonic of an instruction as spec/opcode_table.json spells it. -/
def Instr.mnemonic : Instr → String
  | .byte _ => "BYTE"
  | .endInput => "END"
  | .start => "START"
  | .fail _ => "FAIL"
  | .pop => "POP"
  | .reset => "RESET"
  | .hash _ _ => "HASH"
  | .stride _ => "STRIDE"
  | .next _ _ => "NEXT"
  | .lookup _ _ => "LOOKUP"
  | .insert _ _ _ _ => "INSERT"
  | .tinit => "TINIT"
  | .sinit => "SINIT"
  | .alloc => "ALLOC"
  | .pinit => "PINIT"
  | .emit _ => "EMIT"
  | .flush => "FLUSH"

/-- Class 0: an event, which the environment delivers through the ports (R45, R46). Class 1 is internal (R47). -/
def Instr.isEvent : Instr → Bool
  | .byte _ | .endInput | .start | .fail _ | .pop | .reset => true
  | .hash _ _ | .stride _ | .next _ _ | .lookup _ _ | .insert _ _ _ _ | .tinit | .sinit | .alloc | .pinit
  | .emit _ | .flush => false

end Sys2Proof
end

