-- ==== Sys2Proof/WellFormed.lean ====
section
/-! DEFINITION. The operand contract of each instruction, as its rule's "Operands" line gives it. `wellFormed` is
what the rule promises for; `exec` itself is total (notes/assumptions/4.md says what it does outside the contract). -/

namespace Sys2Proof

open Config

/-- A code that is not the sentinel: `[0, MAX_CODE]`. -/
abbrev Code.isCode (c : Code) : Bool := c.toNat ≤ MAX_CODE.toNat

/-- A slot index: `[0, TABLE_SIZE)`. -/
abbrev SlotIx.isSlot (i : SlotIx) : Bool := i.toNat < TABLE_SIZE

/-- The operand contract. BYTE d has `d` in `[0, roots)` (R93; 00_scope.md R4 item 5), HASH and LOOKUP a prefix code in
`[0, MAX_CODE]` (R60, R63) and a byte below `roots` in LOOKUP, STRIDE a home index below `2^BITS` (R61), NEXT a slot index
and a stride in `[1, TABLE_SIZE - 1]` (R62), INSERT a slot at or above `roots`, a code ALLOC can return and a prefix code
that is smaller (R65, 10_state.md R25 item 5). EMIT takes every code (R83). -/
def Instr.wellFormedFor (roots : Nat) : Instr → Bool
  | .byte d => d.toNat < roots
  | .hash p _ => p.isCode
  | .stride h => h.toNat < 2 ^ BITS
  | .next i d => i.isSlot && decide (1 ≤ d.toNat) && d.isSlot
  | .lookup p b => p.isCode && decide (b.toNat < roots)
  | .insert i a p b =>
    decide (roots ≤ i.toNat) && i.isSlot && decide (FIRST_CODE.toNat ≤ a.toNat) && a.isCode
      && decide (p.toNat < a.toNat) && decide (b.toNat < roots)
  | .endInput | .start | .fail _ | .pop | .reset | .tinit | .sinit | .alloc | .pinit | .emit _ | .flush => true

/-- The contract on this hardware (`ROOTS = 256`). -/
def Instr.wellFormed (i : Instr) : Bool := i.wellFormedFor ROOTS

end Sys2Proof
end

