-- ==== Sys2Proof/Decode.lean ====
section
/-! DEFINITION. Event words (30_encoding.md R45 to R48): the opcode table as rows, the decoder of a script word, the
decoder of a trace line, the script decoder that names the position of what it refuses, and the encoder. -/

namespace Sys2Proof

/-- A row of spec/opcode_table.json: the word `w` is the row's when `w &&& mask = pattern` and `w` is not excluded. -/
structure OpRow where
  mnemonic : String
  mask : EventWord
  pattern : EventWord
  excluded : Option EventWord
  deriving DecidableEq, Repr

/-- The six rows of class 0 (R46). -/
def eventRows : List OpRow :=
  [⟨"BYTE", 0x1F00#13, 0x0000#13, none⟩, ⟨"END", 0x1FFF#13, 0x0100#13, none⟩,
   ⟨"START", 0x1FFF#13, 0x0200#13, none⟩, ⟨"FAIL", 0x1FFC#13, 0x0300#13, some 0x0300#13⟩,
   ⟨"POP", 0x1FFF#13, 0x0400#13, none⟩, ⟨"RESET", 0x1FFF#13, 0x0500#13, none⟩]

/-- The eleven rows of class 1 (R47). -/
def operationRows : List OpRow :=
  [⟨"HASH", 0x1FFF#13, 0x1000#13, none⟩, ⟨"STRIDE", 0x1FFF#13, 0x1100#13, none⟩,
   ⟨"NEXT", 0x1FFF#13, 0x1200#13, none⟩, ⟨"LOOKUP", 0x1FFF#13, 0x1300#13, none⟩,
   ⟨"INSERT", 0x1FFF#13, 0x1400#13, none⟩, ⟨"TINIT", 0x1FFF#13, 0x1500#13, none⟩,
   ⟨"SINIT", 0x1FFF#13, 0x1600#13, none⟩, ⟨"ALLOC", 0x1FFF#13, 0x1700#13, none⟩,
   ⟨"PINIT", 0x1FFF#13, 0x1800#13, none⟩, ⟨"EMIT", 0x1FFF#13, 0x1900#13, none⟩,
   ⟨"FLUSH", 0x1FFF#13, 0x1A00#13, none⟩]

/-- The opcode table. -/
def opcodeRows : List OpRow := eventRows ++ operationRows

/-- The word is one of the row's. -/
def OpRow.covers (r : OpRow) (w : EventWord) : Bool :=
  w &&& r.mask == r.pattern && r.excluded != some w

/-- Why a word or a line is refused. -/
inductive DecodeError where
  /-- a reserved event word (R48) -/
  | reserved
  /-- a class 1 word where only an event may stand (R48: "refuse a script that contains ... a `cls = 1` word") -/
  | internal
  /-- a trace line with no word at all -/
  | emptyLine
  /-- bits 15 to 13 of a trace line's first word are not 0: it is no zero-extended event word -/
  | notAnEventWord
  /-- a trace line has fewer operand words than its operation takes -/
  | missingOperand
  /-- an operand word has a bit set above its operand's width -/
  | operandTooWide
  /-- words are left over after a trace line's last operand -/
  | trailingWords
  deriving DecidableEq, Repr

/-- `cls = EW[12]` (R45). -/
def clsOf (w : EventWord) : BitVec 1 := w.extractLsb' 12 1
/-- `op = EW[11:8]` (R45). -/
def opOf (w : EventWord) : BitVec 4 := w.extractLsb' 8 4
/-- `arg = EW[7:0]` (R45). -/
def argOf (w : EventWord) : Byte := w.extractLsb' 0 8

/-- FAIL's operand: `arg[1:0]` not 0 and `arg[7:2] = 0` (R46, R48). -/
def failMaskOf (arg : Byte) : Option FailMask :=
  if arg = 1#8 then some .input
  else if arg = 2#8 then some .output
  else if arg = 3#8 then some .both
  else none

/-- An event without operand: `arg` must be 0 (R48). -/
def noArg (arg : Byte) (i : Instr) : Except DecodeError Instr :=
  if arg = 0#8 then .ok i else .error .reserved

/-- The decoder of one script word (R46, R48): an event, or the reason the word is refused. -/
def decodeEvent (w : EventWord) : Except DecodeError Instr :=
  let arg := argOf w
  if clsOf w = 1#1 then
    (if arg = 0#8 ∧ (opOf w).toNat ≤ 10 then .error .internal else .error .reserved)
  else
    match (opOf w).toNat with
    | 0 => .ok (.byte arg)
    | 1 => noArg arg .endInput
    | 2 => noArg arg .start
    | 3 =>
      match failMaskOf arg with
      | some m => .ok (.fail m)
      | none => .error .reserved
    | 4 => noArg arg .pop
    | 5 => noArg arg .reset
    | _ => .error .reserved

/-- An operand word that holds an `n`-bit operand. -/
def operand (n : Nat) (w : TraceWord) : Except DecodeError (BitVec n) :=
  if w.toNat < 2 ^ n then .ok (w.setWidth n) else .error .operandTooWide

/-- Decoding of an operation's operands: its first word has `op`, and the operand words follow in the order in which
the rule of the operation lists its operands. What is left over is returned. -/
def decodeOperation (op : Nat) (ws : List TraceWord) : Except DecodeError (Instr × List TraceWord) :=
  match op with
  | 0 =>
    match ws with
    | p :: b :: rest => do
      let p ← operand 12 p
      let b ← operand 8 b
      return (.hash p b, rest)
    | _ => .error .missingOperand
  | 1 =>
    match ws with
    | h :: rest => do
      let h ← operand 13 h
      return (.stride h, rest)
    | _ => .error .missingOperand
  | 2 =>
    match ws with
    | i :: d :: rest => do
      let i ← operand 13 i
      let d ← operand 13 d
      return (.next i d, rest)
    | _ => .error .missingOperand
  | 3 =>
    match ws with
    | p :: b :: rest => do
      let p ← operand 12 p
      let b ← operand 8 b
      return (.lookup p b, rest)
    | _ => .error .missingOperand
  | 4 =>
    match ws with
    | i :: a :: p :: b :: rest => do
      let i ← operand 13 i
      let a ← operand 12 a
      let p ← operand 12 p
      let b ← operand 8 b
      return (.insert i a p b, rest)
    | _ => .error .missingOperand
  | 5 => .ok (.tinit, ws)
  | 6 => .ok (.sinit, ws)
  | 7 => .ok (.alloc, ws)
  | 8 => .ok (.pinit, ws)
  | 9 =>
    match ws with
    | c :: rest => do
      let c ← operand 12 c
      return (.emit c, rest)
    | _ => .error .missingOperand
  | 10 => .ok (.flush, ws)
  | _ => .error .reserved

/-- The decoder of a trace line: total on any list of words, an event or an operation with its operands, and the
words left over. -/
def decode (ws : List TraceWord) : Except DecodeError (Instr × List TraceWord) :=
  match ws with
  | [] => .error .emptyLine
  | w :: rest =>
    if 2 ^ 13 ≤ w.toNat then .error .notAnEventWord
    else
      let ew : EventWord := w.setWidth 13
      if clsOf ew = 0#1 then
        match decodeEvent ew with
        | .ok i => .ok (i, rest)
        | .error e => .error e
      else if argOf ew = 0#8 then decodeOperation (opOf ew).toNat rest
      else .error .reserved

/-- A whole trace line: nothing may be left over. -/
def decodeLine (ws : List TraceWord) : Except DecodeError Instr :=
  match decode ws with
  | .ok (i, []) => .ok i
  | .ok (_, _ :: _) => .error .trailingWords
  | .error e => .error e

/-- The script decoder (R48): total, and it refuses a script that holds a reserved or a class 1 word, naming the
position of the first such word (positions count from `pos`). -/
def decodeScript (pos : Nat) : List EventWord → Except (Nat × DecodeError) (List Instr)
  | [] => .ok []
  | w :: ws =>
    match decodeEvent w with
    | .error e => .error (pos, e)
    | .ok i =>
      match decodeScript (pos + 1) ws with
      | .error e => .error e
      | .ok is => .ok (i :: is)

/-! The encoder. -/

/-- The event word of an instruction (R46, R47): class, operation number and operand. -/
def Instr.eventWord : Instr → EventWord
  | .byte d => 0#5 ++ d
  | .endInput => 0x0100#13
  | .start => 0x0200#13
  | .fail m => 0x0300#13 ||| m.bits.setWidth 13
  | .pop => 0x0400#13
  | .reset => 0x0500#13
  | .hash _ _ => 0x1000#13
  | .stride _ => 0x1100#13
  | .next _ _ => 0x1200#13
  | .lookup _ _ => 0x1300#13
  | .insert _ _ _ _ => 0x1400#13
  | .tinit => 0x1500#13
  | .sinit => 0x1600#13
  | .alloc => 0x1700#13
  | .pinit => 0x1800#13
  | .emit _ => 0x1900#13
  | .flush => 0x1A00#13

/-- The operand words that follow the event word in a trace line. -/
def Instr.operandWords : Instr → List TraceWord
  | .hash p b => [p.setWidth 16, b.setWidth 16]
  | .stride h => [h.setWidth 16]
  | .next i d => [i.setWidth 16, d.setWidth 16]
  | .lookup p b => [p.setWidth 16, b.setWidth 16]
  | .insert i a p b => [i.setWidth 16, a.setWidth 16, p.setWidth 16, b.setWidth 16]
  | .emit c => [c.setWidth 16]
  | .byte _ | .endInput | .start | .fail _ | .pop | .reset | .tinit | .sinit | .alloc | .pinit | .flush => []

/-- The words of an instruction, as a trace line. -/
def encode (i : Instr) : List TraceWord := i.eventWord.setWidth 16 :: i.operandWords

/-! The host's numbering of an instruction's bits. -/

/-- How many operand words the operation of a first word takes (R60 to R85, "Operands"). -/
def operandCount (first : Nat) : Nat :=
  match first with
  | 0x1000 => 2
  | 0x1100 => 1
  | 0x1200 => 2
  | 0x1300 => 2
  | 0x1400 => 4
  | 0x1900 => 1
  | _ => 0

/-- `n` trace words of `w`, the first in bits 15 to 0, the next above it. -/
def splitWords : Nat → Nat → List TraceWord
  | 0, _ => []
  | n + 1, w => BitVec.ofNat 16 w :: splitWords n (w / 2 ^ 16)

/-- The trace line whose bits are `w` (`nbits` of them; every higher bit is 0). -/
def tableLine (nbits w : Nat) : List TraceWord :=
  splitWords (1 + operandCount (w % 2 ^ nbits % 2 ^ 16)) (w % 2 ^ nbits)

/-- The instruction that the decoder reads from the bits `w` (host interface). -/
def decodeTableWord (nbits w : Nat) : Option Instr :=
  match decodeLine (tableLine nbits w) with
  | .ok i => some i
  | .error _ => none

end Sys2Proof
end

