-- ==== Sys2Proof/Machine/State.lean ====
section
/-! DEFINITION. The state of the LZW encoder core (10_state.md R10 to R20), the reasons a step can stop, and the
state right after reset (R26). Plain data throughout. -/

namespace Sys2Proof.Machine

open Sys2Proof

/-- The control state of the encoder (R11). -/
inductive Phase where
  /-- after RESET; no session has been created -/
  | idle
  /-- a session exists; the first token has not been consumed -/
  | seed
  /-- the seed has been read; `cur` holds the code of the current match -/
  | matching
  /-- END has been consumed and the terminal codes and the flush byte are in `outq` -/
  | drained
  /-- an I/O failure was reported during the session -/
  | failed
  deriving DecidableEq, Repr

/-- The 3-bit encoding of `phase` (30_encoding.md R54). -/
def Phase.bits : Phase → BitVec 3
  | .idle => 0#3
  | .seed => 1#3
  | .matching => 2#3
  | .drained => 3#3
  | .failed => 4#3

/-- The record of a populated slot (R16). `prefixCode` is `none` in the root entries: that is the spec's own value. -/
structure Entry where
  assignedCode : Code
  prefixCode : Option Code
  appendedByte : Byte
  deriving DecidableEq, Repr

/-- A slot is `empty` (here `none`) or holds a record (R16). -/
abbrev Slot := Option Entry

/-- The dictionary table in its one canonical form: the populated slots as pairs of slot index and record, indices
strictly rising; a slot that is not listed is `empty` (20_memory.md R30, R31; notes/assumptions/5.md). -/
abbrev Table := List (Nat × Entry)

/-- An entry of `outq`: `last` beside the byte (R18, 30_encoding.md R52). -/
structure OutEntry where
  last : Bool
  byte : Byte
  deriving DecidableEq, Repr

/-- The input ports as sampled on one rising edge of `clk` (44_interfaces.md R107). -/
structure PortsIn where
  rst : Bool
  start : Bool
  inValid : Bool
  inEnd : Bool
  inData : Byte
  inFail : Bool
  outReady : Bool
  outFail : Bool
  deriving DecidableEq, Repr

/-- The output ports (R107, R114). -/
structure PortsOut where
  startReady : Bool
  inReady : Bool
  outValid : Bool
  outData : Byte
  outLast : Bool
  busy : Bool
  done : Bool
  failed : Bool
  failCause : BitVec 2
  dictFull : Bool
  deriving DecidableEq, Repr

/-- One move of the environment that has not happened yet. The model's own: the spec's core fetches nothing, its
environment delivers events (R22, 00_scope.md R9; notes/assumptions/1.md). -/
inductive Input where
  /-- a line of an event script: one event word (30_encoding.md R56) -/
  | word (w : EventWord)
  /-- a line of a trace: the words of an event or of an internal operation with its operands (R47) -/
  | trace (ws : List TraceWord)
  /-- one rising edge of `clk` with these port values (44_interfaces.md R108) -/
  | edge (p : PortsIn)
  deriving DecidableEq, Repr

/-- The value that the last internal operation of a trace returned. The model's own ghost: the results of HASH,
STRIDE, NEXT, LOOKUP and ALLOC go to their caller and to no register (notes/assumptions/2.md). -/
inductive Ret where
  /-- no operation has returned a value -/
  | nothing
  /-- a slot index: HASH, NEXT, LOOKUP -/
  | slot (i : SlotIx)
  /-- a probe stride: STRIDE -/
  | stride (d : SlotIx)
  /-- a code or `none`: ALLOC -/
  | code (a : Option Code)
  deriving DecidableEq, Repr

/-- The state of the machine. -/
structure State where
  /-- R11: the control state -/
  phase : Phase
  /-- R12: the prefix code; `none` is the spec's own value -/
  cur : Option Code
  /-- R13: the code the next successful ALLOC hands out -/
  nextCode : Code
  /-- R14: the bits appended by EMIT and not yet output -/
  bitBuffer : BitBuf
  /-- R15: how many they are -/
  pendingBits : BitCount
  /-- R16: the dictionary -/
  table : Table
  /-- R17: the slot index being examined -/
  idx : SlotIx
  /-- R17: the probe stride -/
  stride : SlotIx
  /-- R18: the output queue, oldest first -/
  outq : List OutEntry
  /-- R19: why the session failed -/
  failCause : BitVec 2
  /-- R20 (ghost): the bytes the sink has accepted -/
  sunk : List Byte
  /-- model's own (ghost): the value the last trace operation returned -/
  ret : Ret
  /-- model's own: the index of the next free value -/
  freeIx : Nat
  /-- model's own: the environment's moves not yet made, the next one first -/
  inputs : List Input
  /-- model's own: how many of them have been made; the number of the line being run -/
  line : Nat
  /-- model's own: for how many more edges `start_ready` is held low (44_interfaces.md R115) -/
  startStall : Nat
  /-- model's own: for how many more edges `in_ready` is held low -/
  inStall : Nat
  /-- model's own: whether `in_ready` may be high while `outq` holds bytes (R115) -/
  inGate : Bool
  /-- model's own: for how many more edges `out_valid` is held low -/
  outStall : Nat
  deriving DecidableEq, Repr

/-- The ways a run stops. -/
inductive Fault where
  /-- An event that is not enabled: the script is stuck at this line (R99, R132). Raised by START, BYTE, END and POP.
  Safe: at the ports the event would simply wait. -/
  | stuck (line : Nat)
  /-- LOOKUP examined every slot and found neither an empty one nor the key: the hardware would loop for ever (R68).
  Raised by LOOKUP and by BYTE in MATCHING; no state reached from START raises it. Safe. -/
  | lookupHang
  /-- `cur` holds no value in MATCHING (R132, last row). Raised by BYTE and END; no state reached from START raises
  it. Safe. -/
  | noValue
  /-- A slot index at or above `TABLE_SIZE`: there is no such slot (20_memory.md R31). Raised by INSERT in a trace.
  Safe. -/
  | noSuchSlot
  deriving DecidableEq, Repr

/-- The inputs to which the model gives no meaning (60_exceptions.md R132). -/
inductive Refusal where
  /-- An instruction that has no meaning yet. No arm of `exec` raises it. Safe. -/
  | notModelled (mnemonic : String)
  /-- A word or line that the decoder refuses, with its position (30_encoding.md R48). Raised by the step. Safe. -/
  | undecodable (position : Nat) (e : DecodeError)
  /-- A data byte `>= ROOTS` (00_scope.md R4 item 5); `ROOTS = 256` on this hardware, so nothing raises it. Safe. -/
  | byteOutsideRoots
  deriving DecidableEq, Repr

/-- The outcome of an instruction or of a step. -/
abbrev Result := Host.Outcome State Fault Refusal

/-- The machine right after RESET (R26, R135). `phase`, `outq`, `failCause` and `sunk` are the spec's values and `cur` is
R12's `none`; the spec gives no value to the others, and those here are the model's (notes/assumptions/6.md). -/
def State.reset : State where
  phase := .idle
  cur := none
  nextCode := 256#12
  bitBuffer := 0#19
  pendingBits := 0#5
  table := []
  idx := 0#13
  stride := 1#13
  outq := []
  failCause := 0#2
  sunk := []
  ret := .nothing
  freeIx := 0
  inputs := []
  line := 0
  startStall := 0
  inStall := 0
  inGate := true
  outStall := 0

end Sys2Proof.Machine
end

