-- ==== Sys2Proof/Machine/Operands.lean ====
section
/-! DEFINITION. How operands are formed: the home index, the stride and the probe step (40_dictionary.md R60 to R62,
30_encoding.md R53), the two tests of a slot (R64), and the packed slot word (30_encoding.md R50). -/

namespace Sys2Proof.Machine

open Sys2Proof Sys2Proof.Config

/-- HASH(p, b) `= (b << HASH_SHIFT) xor p`, both operands zero-extended to `IDXW` bits (R60, R53). -/
def homeIndex (p : Code) (b : Byte) : SlotIx := (b.toIx <<< HASH_SHIFT) ^^^ p.toIx

/-- STRIDE(h): 1 for `h = 0`, else `TABLE_SIZE - h` (R61). For an `h` that is no slot index R61 states no result:
a free value. -/
def strideOf (h : SlotIx) : SlotIx :=
  if h = 0#13 then 1#13
  else if h.toNat < TABLE_SIZE then BitVec.ofNat 13 (TABLE_SIZE - h.toNat)
  else strideOutside h

/-- R62's subtraction with its one correction, on a signed intermediate. -/
def nextSigned (i d : Int) : Int :=
  let t := i - d
  if t < 0 then t + TABLE_SIZE else t

/-- NEXT(i, s) (R62). For operands that are not below `TABLE_SIZE` R62 states no result: a free value. -/
def nextIndex (i d : SlotIx) : SlotIx :=
  if i.toNat < TABLE_SIZE ∧ d.toNat < TABLE_SIZE then BitVec.ofInt 13 (nextSigned i.toNat d.toNat)
  else nextOutside i d

/-- NEXT applied `k` times with the stride `d`: where a probe that starts at `i` is after `k` steps (R63). -/
def probeIter (d : SlotIx) : Nat → SlotIx → SlotIx
  | 0, i => i
  | k + 1, i => probeIter d k (nextIndex i d)

/-- The `k`-th slot LOOKUP examines from home index `h`, in closed form (R67). -/
def probeSlot (h k : Nat) : Nat :=
  if h = 0 then (k * (TABLE_SIZE - 1)) % TABLE_SIZE else ((k + 1) * h) % TABLE_SIZE

/-- `populated(r)` (R64): `assignedCode` is present. -/
def populated (r : Slot) : Bool := r.isSome

/-- The key comparison of R64: both fields are equal; `assignedCode` plays no part. -/
def Entry.hasKey (e : Entry) (p : Code) (b : Byte) : Bool := e.prefixCode == some p && e.appendedByte == b

/-- `matches(r, p, b)` (R64). -/
def slotMatches (r : Slot) (p : Code) (b : Byte) : Bool :=
  match r with
  | none => false
  | some e => e.hasKey p b

/-- The root record of byte value `i`: `(i, none, i)` (R31, R66). -/
def rootEntry (i : Nat) : Entry :=
  { assignedCode := BitVec.ofNat 12 i, prefixCode := none, appendedByte := BitVec.ofNat 8 i }

/-- A code field of a slot word: `MAX_VALUE` encodes "absent" (R50). -/
def codeField (c : Option Code) : Code := c.getD MAX_VALUE

/-- Reading a code field: `MAX_VALUE` is "absent" (R50). -/
def fieldCode (f : Code) : Option Code := if f = MAX_VALUE then none else some f

/-- The packed slot word of R50: `assignedCode[31:20]`, `prefixCode[19:8]`, `appendedByte[7:0]`; TINIT's word for an
empty slot is `0xFFFFFF00`. -/
def packSlot : Slot → SlotWord
  | none => 0xFFFFFF00#32
  | some e => e.assignedCode ++ codeField e.prefixCode ++ e.appendedByte

/-- The slot that a packed word stands for (R50): the emptiness test comes first. -/
def unpackSlot (w : SlotWord) : Slot :=
  let a : Code := w.extractLsb' 20 12
  if a = MAX_VALUE then none
  else some { assignedCode := a, prefixCode := fieldCode (w.extractLsb' 8 12), appendedByte := w.extractLsb' 0 8 }

end Sys2Proof.Machine
end

