-- ==== Sys2Proof/Machine/Flags.lean ====
section
/-! DEFINITION. The status values, functions of the state (10_state.md R21, 44_interfaces.md R114), and the enabling
conditions of the events (43_encoder.md R92, R99, R100; 44_interfaces.md R112). The core has no flags register. -/

namespace Sys2Proof.Machine

open Sys2Proof Sys2Proof.Config

/-- `nextCode > MAX_CODE`: the code space is exhausted (41_code_sequencer.md R77). -/
def codesExhausted (s : State) : Bool := MAX_CODE.toNat < s.nextCode.toNat

/-- `busy`: a session is active (R114). -/
def busy (s : State) : Bool :=
  match s.phase with
  | .seed | .matching => true
  | .drained => !s.outq.isEmpty
  | .idle | .failed => false

/-- `done`: `phase = DRAINED` and `outq = []` (R114). -/
def done (s : State) : Bool :=
  match s.phase with
  | .drained => s.outq.isEmpty
  | .idle | .seed | .matching | .failed => false

/-- `failed`: `phase = FAILED` (R114). -/
def failed (s : State) : Bool :=
  match s.phase with
  | .failed => true
  | .idle | .seed | .matching | .drained => false

/-- `dict_full` (R114): driven 0 in IDLE and FAILED. -/
def dictFull (s : State) : Bool :=
  match s.phase with
  | .seed | .matching | .drained => codesExhausted s
  | .idle | .failed => false

/-- START is enabled (R92). -/
def startEnabled (s : State) : Bool :=
  match s.phase with
  | .idle | .failed => true
  | .drained => s.outq.isEmpty
  | .seed | .matching => false

/-- BYTE and END are enabled (R99): SEED and MATCHING only. -/
def tokenEnabled (s : State) : Bool :=
  match s.phase with
  | .seed | .matching => true
  | .idle | .drained | .failed => false

/-- POP is enabled (R112). -/
def popEnabled (s : State) : Bool := !s.outq.isEmpty

end Sys2Proof.Machine
end

