-- ==== Sys2Proof/Machine/Ops.lean ====
section
/-! DEFINITION. The named operations over the table, the registers and the output queue: slot reads and writes
(20_memory.md R32), the probe loop (40_dictionary.md R63), the code counter (41_code_sequencer.md), the drain loop
(42_bit_packer.md R83), the queue (10_state.md R18), the loss of the session registers (R26, R121, R135), and taking the
one exception, FAIL (60_exceptions.md R121). -/

namespace Sys2Proof.Machine

open Sys2Proof Sys2Proof.Config

/-! The table. -/

/-- The canonical form of a table: slot indices strictly rising, each below `TABLE_SIZE` (notes/assumptions/5.md). -/
abbrev Table.wf (t : Table) : Prop :=
  List.Pairwise (fun a b => a.1 < b.1) t ∧ ∀ c ∈ t, c.1 < TABLE_SIZE

/-- `MemRead(i, 1)`: the record at slot `i`, or `empty` (R32). -/
def memRead : Table → Nat → Slot
  | [], _ => none
  | (j, e) :: t, i => if j = i then some e else memRead t i

/-- Writing a record: the listed pair is replaced, or a new pair goes to its place. -/
def setEntry (i : Nat) (e : Entry) : Table → Table
  | [] => [(i, e)]
  | (j, f) :: t =>
    if i < j then (i, e) :: (j, f) :: t
    else if i = j then (i, e) :: t
    else (j, f) :: setEntry i e t

/-- Writing `empty`: the pair is taken out. -/
def eraseEntry (i : Nat) : Table → Table
  | [] => []
  | (j, f) :: t => if j = i then eraseEntry i t else (j, f) :: eraseEntry i t

/-- `MemWrite(i, 1, r)`: the whole record at slot `i` becomes `r` (R32). -/
def memWrite (t : Table) (i : Nat) (r : Slot) : Table :=
  match r with
  | some e => setEntry i e t
  | none => eraseEntry i t

/-- The table whose slot `i` holds `f i`, for each `i` in `[k, k + n)`, every other slot being empty. -/
def tableFrom (f : Nat → Slot) (k : Nat) : Nat → Table
  | 0 => []
  | n + 1 =>
    match f k with
    | some e => (k, e) :: tableFrom f (k + 1) n
    | none => tableFrom f (k + 1) n

/-- The table after TINIT: root entries in slots `0 .. ROOTS-1`, every other slot empty (R66). -/
def initialTable : Table := tableFrom (fun i => some (rootEntry i)) 0 ROOTS

/-- A table that holds "no value" (R26): every slot holds whatever its packed word happens to be. -/
def freeTable (n : Nat) : Table := tableFrom (fun i => unpackSlot (freeSlotWord n i)) 0 TABLE_SIZE

/-- `hit` (10_state.md R21): the slot index that LOOKUP returned, which is the final `idx` (R17), names a populated slot.
Driven 0 in IDLE (R21, R26). It is no port and is stored nowhere; what it reads between two events is the model's choice
(notes/assumptions/21.md). -/
def hit (s : State) : Bool :=
  match s.phase with
  | .idle => false
  | .seed | .matching | .drained | .failed => populated (memRead s.table s.idx.toNat)

/-! The probe. -/

/-- R63's loop. Emptiness is tested before the key (70_reset_and_hazards.md R144). The fuel counts examined slots;
`none` stands for the loop that never ends (R68: after `TABLE_SIZE` probes every slot has been examined). -/
def probeLoop (t : Table) (p : Code) (b : Byte) (d : SlotIx) : Nat → SlotIx → Option SlotIx
  | 0, _ => none
  | n + 1, i =>
    match memRead t i.toNat with
    | none => some i
    | some e => if e.hasKey p b then some i else probeLoop t p b d n (nextIndex i d)

/-- The slot that LOOKUP(p, b) returns (R63), or `none` where it would not end. -/
def lookupSlot (t : Table) (p : Code) (b : Byte) : Option SlotIx :=
  probeLoop t p b (strideOf (homeIndex p b)) TABLE_SIZE (homeIndex p b)

/-- What LOOKUP writes: the probe registers (R63, "State written"). -/
def setProbe (i d : SlotIx) (s : State) : State := { s with idx := i, stride := d }

/-- LOOKUP(p, b) on the state: the returned slot and the state with `idx` and `stride` written (R63). -/
def lookup (p : Code) (b : Byte) (s : State) : Option (SlotIx × State) :=
  match lookupSlot s.table p b with
  | none => none
  | some i => some (i, setProbe i (strideOf (homeIndex p b)) s)

/-- INSERT(i, a, p, b) (R65). -/
def insert (i : SlotIx) (a p : Code) (b : Byte) (s : State) : State :=
  { s with
    table := memWrite s.table i.toNat (some { assignedCode := a, prefixCode := some p, appendedByte := b }) }

/-- TINIT (R66). -/
def tinit (s : State) : State := { s with table := initialTable }

/-! The code sequencer. -/

/-- SINIT (R75). -/
def sinit (s : State) : State := { s with nextCode := FIRST_CODE }

/-- What ALLOC returns (R76): the test is `nextCode <= MAX_CODE` (90_conflicts.md C3). -/
def allocCode (s : State) : Option Code := if s.nextCode.toNat ≤ MAX_CODE.toNat then some s.nextCode else none

/-- What ALLOC writes (R76). -/
def allocStep (s : State) : State :=
  if s.nextCode.toNat ≤ MAX_CODE.toNat then { s with nextCode := s.nextCode + 1#12 } else s

/-! The bit packer. -/

/-- `push(outq, (0, byte))` for each byte, in order. -/
def pushBytes (bs : List Byte) (s : State) : State := { s with outq := s.outq ++ bs.map (OutEntry.mk false) }

/-- The accumulator registers. -/
def setAccumulator (buf : BitBuf) (pending : BitCount) (s : State) : State :=
  { s with bitBuffer := buf, pendingBits := pending }

/-- PINIT (R82). -/
def pinit (s : State) : State := setAccumulator 0#19 0#5 s

/-- What the drain leaves: the bytes it pushes, and the buffer and bit count at its end. -/
structure Drained where
  bytes : List Byte
  buf : Nat
  pending : Nat
  deriving DecidableEq, Repr

/-- R83's drain loop with R84's clearing, on naturals: while `pending >= 8` the top 8 of the valid bits are one output
byte. `fuel` bounds the number of bytes; `pending` of it is always enough. -/
def drain : Nat → Nat → Nat → Drained
  | 0, buf, pending => ⟨[], buf, pending⟩
  | n + 1, buf, pending =>
    if 8 ≤ pending then
      let r := drain n (buf &&& (2 ^ (pending - 8) - 1)) (pending - 8)
      ⟨BitVec.ofNat 8 ((buf >>> (pending - 8)) &&& 0xFF) :: r.bytes, r.buf, r.pending⟩
    else ⟨[], buf, pending⟩

/-- The accumulator after appending the code `c`, then drained (R83). -/
def emitDrain (buf : BitBuf) (pending : BitCount) (c : Code) : Drained :=
  drain (pending.toNat + BITS) ((buf.toNat <<< BITS) ||| c.toNat) (pending.toNat + BITS)

/-- EMIT(c) (R83). -/
def emit (c : Code) (s : State) : State :=
  let r := emitDrain s.bitBuffer s.pendingBits c
  pushBytes r.bytes (setAccumulator (BitVec.ofNat 19 r.buf) (BitVec.ofNat 5 r.pending) s)

/-- The byte FLUSH pushes when bits are pending: left-justified, the low bits zero (R85). With more than 8 bits pending
R85's shift count `8 - pendingBits` is no natural: a free value. -/
def flushByte (buf : BitBuf) (pending : BitCount) : Byte :=
  if pending.toNat ≤ 8 then BitVec.ofNat 8 ((buf.toNat <<< (8 - pending.toNat)) &&& 0xFF)
  else flushOutside buf pending

/-- FLUSH (R85). -/
def flush (s : State) : State :=
  setAccumulator 0#19 0#5
    (if s.pendingBits = 0#5 then s else pushBytes [flushByte s.bitBuffer s.pendingBits] s)

/-- "set last <- 1 in the tail entry" (R97, 44_interfaces.md R113). -/
def markTail : List OutEntry → List OutEntry
  | [] => []
  | [e] => [{ e with last := true }]
  | e :: f :: q => e :: markTail (f :: q)

/-- The end of END, shared by R97 and R98: the sentinel, the flush, the mark, and DRAINED. -/
def finish (s : State) : State :=
  let t := flush (emit MAX_VALUE s)
  { t with outq := markTail t.outq, phase := .drained }

/-! The encoder. -/

/-- R95: the hit branch of BYTE. -/
def extend (e : Entry) (s : State) : State := { s with cur := some e.assignedCode }

/-- R96: the miss branch of BYTE: emit the prefix's code, allocate, insert when a code is left, start a new match. -/
def miss (i : SlotIx) (c : Code) (d : Byte) (s : State) : State :=
  let s1 := emit c s
  let s2 :=
    match allocCode s1 with
    | some a => insert i a c d (allocStep s1)
    | none => allocStep s1
  { s2 with cur := some d.toCode }

/-! The loss of the session registers, and the exception. -/

/-- "`idx` and `stride` are left without a value" (R92): free values. -/
def freeProbe (s : State) : State :=
  { s with idx := freeIdx s.freeIx, stride := freeStride s.freeIx, freeIx := s.freeIx + 1 }

/-- "`cur`, `nextCode`, `bitBuffer`, `pendingBits`, `table`, `idx`, `stride` <- no value" (R121, R135): `cur` becomes `none`
(R12), every other one of them a free value (notes/assumptions/7.md). -/
def loseSession (s : State) : State :=
  { s with
    cur := none
    nextCode := freeNextCode s.freeIx
    bitBuffer := freeBitBuffer s.freeIx
    pendingBits := freePendingBits s.freeIx
    table := freeTable s.freeIx
    idx := freeIdx s.freeIx
    stride := freeStride s.freeIx
    freeIx := s.freeIx + 1 }

/-- Taking the one exception of this hardware, an I/O failure (R121, R124): the cause is recorded, the bytes not yet
accepted are discarded, `phase` is FAILED and the session registers lose their value; `sunk` stays. There is no handler
and no saved state. -/
def takeFailure (m : FailMask) (s : State) : State :=
  { loseSession s with failCause := m.bits, outq := [], phase := .failed }

/-- The only way out of FAILED but RESET (60_exceptions.md R126): a fresh session (R92). -/
def startSession (s : State) : State :=
  { freeProbe (pinit (sinit (tinit s))) with
    cur := none
    outq := []
    failCause := 0#2
    sunk := []
    phase := .seed }

/-- RESET (R135). -/
def resetCore (s : State) : State :=
  { loseSession s with phase := .idle, outq := [], failCause := 0#2, sunk := [] }

end Sys2Proof.Machine
end

