-- ==== Sys2Proof/Machine/Dictionary.lean ====
section
/-! DEFINITION. The dictionary's operations as trace lines: HASH, STRIDE, NEXT, LOOKUP, INSERT, TINIT
(40_dictionary.md R60 to R66). What an operation returns goes to the ghost `ret`. -/

namespace Sys2Proof.Machine

open Sys2Proof Sys2Proof.Config

/-- HASH(p, b) (R60): it reads and writes no state of the core; its result is returned. -/
def execHash (p : Code) (b : Byte) (s : State) : Result := .next { s with ret := .slot (homeIndex p b) }

/-- STRIDE(h) (R61): it reads and writes no state of the core. -/
def execStride (h : SlotIx) (s : State) : Result := .next { s with ret := .stride (strideOf h) }

/-- NEXT(i, s) (R62): it reads and writes no state of the core. -/
def execNext (i d : SlotIx) (s : State) : Result := .next { s with ret := .slot (nextIndex i d) }

/-- LOOKUP(p, b) (R63): it writes `idx` and `stride` only. Where the loop does not end it is a hang (R68). -/
def execLookup (p : Code) (b : Byte) (s : State) : Result :=
  match lookup p b s with
  | some (i, t) => .next { t with ret := .slot i }
  | none => .fault .lookupHang

/-- INSERT(i, a, p, b) (R65): it writes one slot. An index at or above `TABLE_SIZE` names no slot (20_memory.md R31). -/
def execInsert (i : SlotIx) (a p : Code) (b : Byte) (s : State) : Result :=
  if i.toNat < TABLE_SIZE then .next (insert i a p b s) else .fault .noSuchSlot

/-- TINIT (R66): it writes every slot. -/
def execTinit (s : State) : Result := .next (tinit s)

end Sys2Proof.Machine
end

