-- ==== Sys2Proof/Machine/Encoder.lean ====
section
/-! DEFINITION. The encoder's events: START, BYTE d, END (43_encoder.md R92 to R99). -/

namespace Sys2Proof.Machine

open Sys2Proof Sys2Proof.Config

/-- START (R92); not enabled while a session is active (R99). -/
def execStart (s : State) : Result :=
  if startEnabled s then .next (startSession s) else .fault (.stuck s.line)

/-- BYTE d in SEED (R93): the byte value is the root code. -/
def seedByte (d : Byte) (s : State) : State := { s with cur := some d.toCode, phase := .matching }

/-- BYTE d in MATCHING with `cur = some c` (R94): one LOOKUP, then the hit or the miss branch. -/
def matchByte (c : Code) (d : Byte) (s : State) : Result :=
  match lookup c d s with
  | none => .fault .lookupHang
  | some (i, t) =>
    match memRead t.table i.toNat with
    | some e => .next (extend e t)
    | none => .next (miss i c d t)

/-- BYTE d (R93, R94, R99). A byte `>= ROOTS` has no meaning (00_scope.md R4 item 5). -/
def execByte (d : Byte) (s : State) : Result :=
  if ROOTS ≤ d.toNat then .refused .byteOutsideRoots
  else
    match s.phase with
    | .seed => .next (seedByte d s)
    | .matching =>
      match s.cur with
      | some c => matchByte c d s
      | none => .fault .noValue
    | .idle => .fault (.stuck s.line)
    | .drained => .fault (.stuck s.line)
    | .failed => .fault (.stuck s.line)

/-- END (R97 in MATCHING, R98 in SEED, R99 elsewhere). -/
def execEnd (s : State) : Result :=
  match s.phase with
  | .seed => .next (finish s)
  | .matching =>
    match s.cur with
    | some c => .next (finish (emit c s))
    | none => .fault .noValue
  | .idle => .fault (.stuck s.line)
  | .drained => .fault (.stuck s.line)
  | .failed => .fault (.stuck s.line)

end Sys2Proof.Machine
end

