-- ==== Sys2Proof/Machine/Packer.lean ====
section
/-! DEFINITION. The bit packer's operations as trace lines: PINIT, EMIT, FLUSH (42_bit_packer.md R82, R83, R85). -/

namespace Sys2Proof.Machine

open Sys2Proof

/-- PINIT (R82). -/
def execPinit (s : State) : Result := .next (pinit s)

/-- EMIT(c) (R83). -/
def execEmit (c : Code) (s : State) : Result := .next (emit c s)

/-- FLUSH (R85). -/
def execFlush (s : State) : Result := .next (flush s)

end Sys2Proof.Machine
end

