-- ==== Sys2Proof/Machine/Sequencer.lean ====
section
/-! DEFINITION. The code sequencer's operations as trace lines: SINIT, ALLOC (41_code_sequencer.md R75, R76). -/

namespace Sys2Proof.Machine

open Sys2Proof

/-- SINIT (R75). -/
def execSinit (s : State) : Result := .next (sinit s)

/-- ALLOC (R76): `some nextCode` and the increment while `nextCode <= MAX_CODE`, else `none` and no change. -/
def execAlloc (s : State) : Result := .next { allocStep s with ret := .code (allocCode s) }

end Sys2Proof.Machine
end

