-- ==== Sys2Proof/Machine/System.lean ====
section
/-! DEFINITION. The events of the interface and of the system: POP (44_interfaces.md R112), FAIL m (60_exceptions.md
R121), RESET (70_reset_and_hazards.md R135). -/

namespace Sys2Proof.Machine

open Sys2Proof

/-- POP (R112): the head of `outq` goes to the sink; not enabled with an empty queue. -/
def execPop (s : State) : Result :=
  match s.outq with
  | e :: q => .next { s with outq := q, sunk := s.sunk ++ [e.byte] }
  | [] => .fault (.stuck s.line)

/-- FAIL m (R121): taken while a session is active; in every other state accepted and ignored. -/
def execFail (m : FailMask) (s : State) : Result := if busy s then .next (takeFailure m s) else .next s

/-- RESET (R135): always enabled. -/
def execReset (s : State) : Result := .next (resetCore s)

end Sys2Proof.Machine
end

