-- ==== Sys2Proof/Machine/Dispatch.lean ====
section
/-! DEFINITION. The dispatch: one arm per constructor of `Instr`, each one call of the meaning of that row of
spec/opcode_table.json. -/

namespace Sys2Proof.Machine

open Sys2Proof

/-- What an event or an operation does to the state. -/
def exec (i : Instr) (s : State) : Host.Outcome State Fault Refusal :=
  match i with
  | .byte d => Sys2Proof.Machine.execByte d s
  | .endInput => Sys2Proof.Machine.execEnd s
  | .start => Sys2Proof.Machine.execStart s
  | .fail m => Sys2Proof.Machine.execFail m s
  | .pop => Sys2Proof.Machine.execPop s
  | .reset => Sys2Proof.Machine.execReset s
  | .hash p b => Sys2Proof.Machine.execHash p b s
  | .stride h => Sys2Proof.Machine.execStride h s
  | .next i1 d => Sys2Proof.Machine.execNext i1 d s
  | .lookup p b => Sys2Proof.Machine.execLookup p b s
  | .insert i1 a p b => Sys2Proof.Machine.execInsert i1 a p b s
  | .tinit => Sys2Proof.Machine.execTinit s
  | .sinit => Sys2Proof.Machine.execSinit s
  | .alloc => Sys2Proof.Machine.execAlloc s
  | .pinit => Sys2Proof.Machine.execPinit s
  | .emit c => Sys2Proof.Machine.execEmit c s
  | .flush => Sys2Proof.Machine.execFlush s

end Sys2Proof.Machine
end

