-- ==== Sys2Proof/Machine/Run.lean ====
section
/-! DEFINITION. Running a list of instructions one after the other (30_encoding.md R56), and the internal operations
that an event invokes, as the lines of its trace (R47; 95_test_vectors.md P1). -/

namespace Sys2Proof.Machine

open Sys2Proof Sys2Proof.Config

/-- Going on from an outcome: only a next state goes on. -/
def andThen (r : Result) (f : State → Result) : Result :=
  match r with
  | .next t => f t
  | .fault e => .fault e
  | .refused e => .refused e

/-- The instructions in order, stopping at the first that stops. -/
def runEvents : List Instr → State → Result
  | [], s => .next s
  | i :: is, s => andThen (exec i s) (runEvents is)

/-- The operations of BYTE d in MATCHING with `cur = some c` (R94 to R96), in the order of program P1's trace: LOOKUP;
on a miss EMIT, ALLOC and, when ALLOC returns a code, INSERT. That HASH, STRIDE and NEXT, which LOOKUP invokes, get no
lines of their own is the model's choice (notes/assumptions/24.md). -/
def matchTrace (c : Code) (d : Byte) (s : State) : List Instr :=
  match lookupSlot s.table c d with
  | none => [.lookup c d]
  | some i =>
    match memRead s.table i.toNat with
    | some _ => [.lookup c d]
    | none =>
      [.lookup c d, .emit c, .alloc] ++
        (match allocCode s with
         | some a => [.insert i a c d]
         | none => [])

/-- The internal operations an instruction invokes in a state (the "internal operations in order" of P1). -/
def traceOf (i : Instr) (s : State) : List Instr :=
  match i with
  | .start => [.tinit, .sinit, .pinit]
  | .byte d =>
    match s.phase, s.cur with
    | .matching, some c => matchTrace c d s
    | .matching, none | .idle, _ | .seed, _ | .drained, _ | .failed, _ => []
  | .endInput =>
    match s.phase, s.cur with
    | .matching, some c => [.emit c, .emit MAX_VALUE, .flush]
    | .seed, _ => [.emit MAX_VALUE, .flush]
    | .matching, none | .idle, _ | .drained, _ | .failed, _ => []
  | .fail _ | .pop | .reset | .hash _ _ | .stride _ | .next _ _ | .lookup _ _ | .insert _ _ _ _ | .tinit | .sinit
  | .alloc | .pinit | .emit _ | .flush => []

end Sys2Proof.Machine
end

