-- ==== Sys2Proof/Machine/Ports.lean ====
section
/-! DEFINITION. The ports: the ready and valid signals, the output ports, the events of one rising edge of `clk` and
what the edge does (44_interfaces.md R107 to R111, R114 to R116, R119; 60_exceptions.md R123). -/

namespace Sys2Proof.Machine

open Sys2Proof Sys2Proof.Config

/-- `start_ready`: only where START is enabled, and low for a finite time there (R109, R115). -/
def startReady (s : State) : Bool := startEnabled s && s.startStall == 0

/-- `in_ready`: only in SEED and MATCHING, and low there for a finite time; while `outq` holds bytes it may stay low for
as long as the sink does not take them (R110, R115, R119). -/
def inReady (s : State) : Bool :=
  tokenEnabled s && s.inStall == 0 && (s.outq.isEmpty || s.inGate)

/-- `out_valid`: only while `outq` is not empty (R111). -/
def outValid (s : State) : Bool := popEnabled s && s.outStall == 0

/-- The output ports (R107, R111, R114). -/
def portsOut (s : State) : PortsOut where
  startReady := startReady s
  inReady := inReady s
  outValid := outValid s
  outData :=
    match s.outq with
    | e :: _ => if outValid s then e.byte else freeOutData s.freeIx
    | [] => freeOutData s.freeIx
  outLast :=
    match s.outq with
    | e :: _ => if outValid s then e.last else freeOutLast s.freeIx
    | [] => freeOutLast s.freeIx
  busy := busy s
  done := done s
  failed := failed s
  failCause := s.failCause
  dictFull := dictFull s

/-- The mask of the fail pins, one of which is 1: `m[0] = in_fail`, `m[1] = out_fail` (R108). -/
def failPins (inFail outFail : Bool) : FailMask :=
  if inFail then (if outFail then .both else .input) else .output

/-- The token of an accepted input handshake (R108, R110): `in_data` is ignored with `in_end = 1`. -/
def tokenOf (p : PortsIn) : Instr := if p.inEnd then .endInput else .byte p.inData

/-- The events of one edge, by R108's priority. A POP and a token event on one edge commute (R116); POP stands first. -/
def edgeEvents (p : PortsIn) (s : State) : List Instr :=
  if p.rst then [.reset]
  else if busy s && (p.inFail || p.outFail) then [.fail (failPins p.inFail p.outFail)]
  else
    (if p.start && startReady s then [.start] else [])
      ++ (if outValid s && p.outReady then [.pop] else [])
      ++ (if p.inValid && inReady s then [tokenOf p] else [])

/-- An event that ends the offer of the byte at the head of `outq` (R111: "POP, FAIL or RESET"). -/
def endsOffer : Instr → Bool
  | .pop | .fail _ | .reset => true
  | .byte _ | .endInput | .start | .hash _ _ | .stride _ | .next _ _ | .lookup _ _ | .insert _ _ _ _ | .tinit
  | .sinit | .alloc | .pinit | .emit _ | .flush => false

/-- One edge of a signal that is held low for `n` more edges; at its end a new count `f` is drawn. -/
def countDown (f : Nat) : Nat → Nat
  | 0 => f
  | n + 1 => n

/-- What an edge does to the counts that hold the ready and valid signals low: `s` is the state the edge sampled, `t` the
state after its events. An offered byte stays offered unless an event ended its offer (R111). -/
def tick (evs : List Instr) (s t : State) : State :=
  { t with
    startStall := countDown (freeStartStall t.freeIx) s.startStall
    inStall := countDown (freeInStall t.freeIx) s.inStall
    inGate := freeInGate t.freeIx
    outStall := if outValid s && !evs.any endsOffer then 0 else countDown (freeOutStall t.freeIx) s.outStall
    freeIx := t.freeIx + 1 }

/-- One rising edge of `clk` (R108). -/
def edge (p : PortsIn) (s : State) : Result :=
  andThen (runEvents (edgeEvents p s) s) fun t => .next (tick (edgeEvents p s) s t)

end Sys2Proof.Machine
end

