-- ==== Sys2Proof/Machine/Fetch.lean ====
section
/-! DEFINITION. Taking the environment's next move: the core fetches nothing (20_memory.md R40); its events are
delivered to it (00_scope.md R9; notes/assumptions/1.md). -/

namespace Sys2Proof.Machine

open Sys2Proof

/-- The state once the next move has been taken: its line is being run. -/
def takeInput (rest : List Input) (s : State) : State := { s with inputs := rest, line := s.line + 1 }

/-- What the next move asks for. -/
inductive Fetched where
  /-- there is none: the core waits (70_reset_and_hazards.md R147) -/
  | wait
  /-- an instruction to run -/
  | run (i : Instr) (s : State)
  /-- a clock edge -/
  | clock (p : PortsIn) (s : State)
  /-- a word or line that names no instruction -/
  | refuse (position : Nat) (e : DecodeError)
  deriving DecidableEq, Repr

/-- The next move, decoded. A script word is an event or is refused (30_encoding.md R48); a trace line is an event or
an internal operation (R47). -/
def fetch (s : State) : Fetched :=
  match s.inputs with
  | [] => .wait
  | .word w :: rest =>
    match decodeEvent w with
    | .ok i => .run i (takeInput rest s)
    | .error e => .refuse (s.line + 1) e
  | .trace ws :: rest =>
    match decodeLine ws with
    | .ok i => .run i (takeInput rest s)
    | .error e => .refuse (s.line + 1) e
  | .edge p :: rest => .clock p (takeInput rest s)

/-- The move that delivers the instruction whose bits are `w`: an event as a script word, an internal operation as a
trace line. -/
def inputOfBits (nbits w : Nat) : Input :=
  if w % 2 ^ nbits < 2 ^ 12 then .word (BitVec.ofNat 13 (w % 2 ^ nbits)) else .trace (tableLine nbits w)

end Sys2Proof.Machine
end

