-- ==== Sys2Proof/Machine/Step.lean ====
section
/-! DEFINITION. One step: the environment's next move happens. With no move left the core waits and nothing changes
(44_interfaces.md R108, 70_reset_and_hazards.md R147). -/

namespace Sys2Proof.Machine

open Sys2Proof

/-- One step of the machine. -/
def step (s : State) : Host.Outcome State Fault Refusal :=
  match fetch s with
  | .wait => .next s
  | .run i t => exec i t
  | .clock p t => edge p t
  | .refuse n e => .refused (.undecodable n e)

/-- `s` with the instruction whose bits are `w` as the environment's next move (host interface;
notes/assumptions/1.md). -/
def State.withFetchWord (s : State) (nbits w : Nat) : State := { s with inputs := inputOfBits nbits w :: s.inputs }

end Sys2Proof.Machine
end

