-- ==== Sys2Proof/Machine/Compress.lean ====
section
/-! DEFINITION. What a session computes, without table, registers or queue: CODES (43_encoder.md R101), PACK
(42_bit_packer.md R87, 30_encoding.md R51) and its inverse, COMPRESS (R102), and what a code stands for (R106). A
parameter set that breaks 00_scope.md R4, and a byte that has no root in it, are refused (60_exceptions.md R132);
`Config.hw` is this hardware's set. -/

namespace Sys2Proof.Machine

open Sys2Proof

/-- A finite map from keys `(code, byte)` to codes, the newest pair first (R101's `D`). -/
abbrev Dict := List ((Nat × Nat) × Nat)

/-- `D(c, b)`. -/
def dictFind : Dict → Nat → Nat → Option Nat
  | [], _, _ => none
  | ((p, x), a) :: D, c, b => if p = c ∧ x = b then some a else dictFind D c b

/-- What R101's recursion gives: the codes, and the map at its end. -/
structure Codes where
  codes : List Nat
  dict : Dict
  deriving DecidableEq, Repr

/-- R101's `go(c, D, n, bytes)`, where `maxCode` is the last code that is handed out. -/
def codesFrom (maxCode c : Nat) (D : Dict) (n : Nat) : List Nat → Codes
  | [] => ⟨[c], D⟩
  | b :: rest =>
    match dictFind D c b with
    | some a => codesFrom maxCode a D n rest
    | none =>
      if n ≤ maxCode then
        let r := codesFrom maxCode b (((c, b), n) :: D) (n + 1) rest
        ⟨c :: r.codes, r.dict⟩
      else
        let r := codesFrom maxCode b D n rest
        ⟨c :: r.codes, r.dict⟩

/-- R101's recursion from the first byte on, codes being handed out from `firstCode` to `maxCode`. -/
def codesBetween (firstCode maxCode : Nat) : List Nat → Codes
  | [] => ⟨[], []⟩
  | b :: rest => codesFrom maxCode b [] firstCode rest

/-- Why an input has no meaning (60_exceptions.md R132, 93_implementation_defined.md U4, U5). -/
inductive ConfigRefusal where
  /-- the parameter set breaks 00_scope.md R4, by the name of the first broken item -/
  | illegalParameters (e : ParamError)
  /-- a byte that is not less than `ROOTS` (R4 item 5) -/
  | byteOutsideRoots
  deriving DecidableEq, Repr

/-- R4's premises on a parameter set and an input: the reason they are refused, or `none`. -/
def inputRefusal (P : Params) (bs : List Nat) : Option ConfigRefusal :=
  match P.check with
  | some e => some (.illegalParameters e)
  | none => if bs.all (fun b => decide (b < P.roots)) then none else some .byteOutsideRoots

/-- CODES with the final map (R101), under R4's premises. -/
def codesOf (P : Params) (bs : List Nat) : Except ConfigRefusal Codes :=
  match inputRefusal P bs with
  | some e => .error e
  | none => .ok (codesBetween P.firstCode P.maxCode bs)

/-- Bit `k` of the stream of the codes `cs` (R51), each `width` bits wide: bit `width-1 - (k mod width)` of code number
`floor(k / width)`; the padding is 0. -/
def streamBit (width : Nat) (cs : List Nat) (k : Nat) : Bool :=
  match cs[k / width]? with
  | some c => c.testBit (width - 1 - k % width)
  | none => false

/-- The byte whose bit 7 is `f 0`, ..., whose bit 0 is `f 7`. -/
def byteOfBits (f : Nat → Bool) : Byte :=
  BitVec.ofNat 8
    ((f 0).toNat * 128 + (f 1).toNat * 64 + (f 2).toNat * 32 + (f 3).toNat * 16 + (f 4).toNat * 8 + (f 5).toNat * 4
      + (f 6).toNat * 2 + (f 7).toNat)

/-- `ceil(n * width / 8)`: the length in bytes of `n` packed codes (R88). -/
def packedLength (width n : Nat) : Nat := (n * width + 7) / 8

/-- PACK (R87, R51), a function of the code width and the code list: byte `j` is stream bits `8j .. 8j+7`, bit `8j` being
bit 7 of the byte. -/
def pack (width : Nat) (cs : List Nat) : List Byte :=
  (List.range (packedLength width cs.length)).map fun j => byteOfBits fun k => streamBit width cs (8 * j + k)

/-- COMPRESS (R102): what the sink has accepted when a session that consumed the bytes `bs` is done, under R4's
premises. -/
def compress (P : Params) (bs : List Byte) : Except ConfigRefusal (List Byte) :=
  match codesOf P (bs.map BitVec.toNat) with
  | .error e => .error e
  | .ok r => .ok (pack P.bits (r.codes ++ [P.maxValue]))

/-- Bit `k` of a byte stream, most significant bit of the first byte first. -/
def byteStreamBit (bytes : List Byte) (k : Nat) : Bool :=
  match bytes[k / 8]? with
  | some b => b.toNat.testBit (7 - k % 8)
  | none => false

/-- The natural whose `n` bits, most significant first, are `f k`, ..., `f (k + n - 1)`. -/
def natOfBits (f : Nat → Bool) (k : Nat) : Nat → Nat
  | 0 => 0
  | n + 1 => 2 * natOfBits f k n + (f (k + n)).toNat

/-- The first `n` codes of a byte stream: "read `BITS` bits at a time, most significant first" (R87). -/
def unpack (width n : Nat) (bytes : List Byte) : List Nat :=
  (List.range n).map fun i => natOfBits (byteStreamBit bytes) (width * i) width

/-- The pair of a map that a code was given to. -/
def dictKey : Dict → Nat → Option (Nat × Nat)
  | [], _ => none
  | (k, a) :: D, c => if a = c then some k else dictKey D c

/-- `str(c)` (R106) over a map: `[c]` for a root, `str(p) ++ [b]` for a code given to `(p, b)`. A prefix is smaller than its
code, so fuel above the code is enough. -/
def codeString (roots : Nat) (D : Dict) : Nat → Nat → List Nat
  | 0, _ => []
  | n + 1, c =>
    if c < roots then [c]
    else
      match dictKey D c with
      | some (p, b) => codeString roots D n p ++ [b]
      | none => []

/-- The concatenation of `str` over the codes of an input (R106). -/
def expandCodes (roots : Nat) (r : Codes) : List Nat := r.codes.flatMap fun c => codeString roots r.dict (c + 1) c

end Sys2Proof.Machine
end

