-- ==== Sys2Proof/Machine/Script.lean ====
section
/-! DEFINITION. Event scripts (30_encoding.md R56, R57): the line syntax and its parser, the pseudo-instructions and their
expansions, the assembler of an event line, and the run of a script. -/

namespace Sys2Proof.Machine

open Sys2Proof

/-- A line of an event script (R56, R57). -/
inductive ScriptLine where
  /-- a blank line or a comment -/
  | ignored
  /-- one event -/
  | event (i : Instr)
  /-- BYTES: one BYTE for each value -/
  | bytes (vs : List Byte)
  /-- POPALL: as many POP as `outq` has entries at that point -/
  | popAll
  /-- SESSION: START, BYTES, END, POPALL -/
  | session (vs : List Byte)
  deriving DecidableEq, Repr

/-- POPALL's expansion in a state (R57: "defined by the state, not by the text"). -/
def popAllEvents (s : State) : List Instr := List.replicate s.outq.length .pop

/-- POPALL. -/
def runPopAll (s : State) : Result := runEvents (popAllEvents s) s

/-- SESSION's expansion up to its POPALL (R57). -/
def sessionEvents (vs : List Byte) : List Instr := .start :: (vs.map .byte ++ [.endInput])

/-- One line of a script (R57). -/
def runLine (l : ScriptLine) (s : State) : Result :=
  match l with
  | .ignored => .next s
  | .event i => exec i s
  | .bytes vs => runEvents (vs.map .byte) s
  | .popAll => runPopAll s
  | .session vs => andThen (runEvents (sessionEvents vs) s) runPopAll

/-- A script from a start state. `line` counts its lines, so that a stuck script names the line (R56); it goes on from the
start state's `line`, which is the model's choice (notes/assumptions/23.md). -/
def runScript : List ScriptLine → State → Result
  | [], s => .next s
  | l :: ls, s => andThen (runLine l { s with line := s.line + 1 }) (runScript ls)

/-- The event words a line assembles to (R56, R57), or `none` where the expansion is defined by the state. -/
def assembleLine : ScriptLine → Option (List EventWord)
  | .ignored => some []
  | .event i => some [i.eventWord]
  | .bytes vs => some (vs.map fun v => (Instr.byte v).eventWord)
  | .popAll => none
  | .session _ => none

/-! The text of a script. -/

/-- Spaces off the front. -/
def skipSpaces : List Char → List Char
  | ' ' :: cs => skipSpaces cs
  | cs => cs

/-- The first word and what follows it. -/
def firstWord : List Char → List Char × List Char
  | [] => ([], [])
  | c :: cs => if c = ' ' then ([], c :: cs) else ((c :: (firstWord cs).1), (firstWord cs).2)

/-- The value of a decimal digit. -/
def decDigit (c : Char) : Option Nat := if 48 ≤ c.toNat ∧ c.toNat ≤ 57 then some (c.toNat - 48) else none

/-- The value of a hexadecimal digit. -/
def hexDigit (c : Char) : Option Nat :=
  if 48 ≤ c.toNat ∧ c.toNat ≤ 57 then some (c.toNat - 48)
  else if 65 ≤ c.toNat ∧ c.toNat ≤ 70 then some (c.toNat - 55)
  else if 97 ≤ c.toNat ∧ c.toNat ≤ 102 then some (c.toNat - 87)
  else none

/-- A printable ASCII character. -/
def printable (c : Char) : Bool := decide (32 ≤ c.toNat) && decide (c.toNat ≤ 126)

/-- A decimal number of which the digits read so far give `acc`. -/
def decNumber (acc : Nat) : List Char → Option Nat
  | [] => some acc
  | c :: cs =>
    match decDigit c with
    | some d => decNumber (10 * acc + d) cs
    | none => none

/-- A value without quotes (R56): `0x` and one or two hexadecimal digits, or a decimal in 0..255. -/
def wordValue (w : List Char) : Option Byte :=
  match w with
  | ['0', 'x', h] => (hexDigit h).map fun a => BitVec.ofNat 8 a
  | ['0', 'x', h, l] =>
    match hexDigit h, hexDigit l with
    | some a, some b => some (BitVec.ofNat 8 (16 * a + b))
    | some _, none | none, some _ | none, none => none
  | [] => none
  | c :: cs =>
    match decNumber 0 (c :: cs) with
    | some n => if n ≤ 255 then some (BitVec.ofNat 8 n) else none
    | none => none

/-- The values of a line: spaces separate them; a quoted one is one printable character between apostrophes, which may
be the space. `fuel` bounds how many there are. -/
def readValues : Nat → List Char → Option (List Byte)
  | 0, _ => none
  | n + 1, cs =>
    match skipSpaces cs with
    | [] => some []
    | '\'' :: c :: '\'' :: rest =>
      if printable c ∧ (rest = [] ∨ rest.head? = some ' ') then
        (readValues n rest).map (BitVec.ofNat 8 c.toNat :: ·)
      else none
    | c :: rest =>
      match wordValue (firstWord (c :: rest)).1 with
      | some v => (readValues n (firstWord (c :: rest)).2).map (v :: ·)
      | none => none

/-- The characters of a text in double quotes, up to the closing one, after which only spaces may follow. -/
def readText : List Char → Option (List Byte)
  | [] => none
  | c :: cs =>
    if c = '"' then (if skipSpaces cs = [] then some [] else none)
    else if printable c then (readText cs).map (BitVec.ofNat 8 c.toNat :: ·)
    else none

/-- The operand of BYTES and SESSION: values or a text (R57). -/
def readBytes (cs : List Char) : Option (List Byte) :=
  match skipSpaces cs with
  | '"' :: rest => readText rest
  | rest => readValues (rest.length + 1) rest

/-- FAIL's cause (R56). -/
def readCause (cs : List Char) : Option FailMask :=
  let w := firstWord (skipSpaces cs)
  if skipSpaces w.2 ≠ [] then none
  else if w.1 = ['I', 'N'] then some .input
  else if w.1 = ['O', 'U', 'T'] then some .output
  else if w.1 = ['B', 'O', 'T', 'H'] then some .both
  else none

/-- A mnemonic that takes no operand. -/
def bare (rest : List Char) (l : ScriptLine) : Option ScriptLine := if skipSpaces rest = [] then some l else none

/-- One line of text (R56, R57), or `none` where it is no line of the syntax. -/
def parseLine (text : List Char) : Option ScriptLine :=
  match skipSpaces text with
  | [] => some .ignored
  | '#' :: _ => some .ignored
  | c :: cs =>
    let w := firstWord (c :: cs)
    if w.1 = ['R', 'E', 'S', 'E', 'T'] then bare w.2 (.event .reset)
    else if w.1 = ['S', 'T', 'A', 'R', 'T'] then bare w.2 (.event .start)
    else if w.1 = ['E', 'N', 'D'] then bare w.2 (.event .endInput)
    else if w.1 = ['P', 'O', 'P'] then bare w.2 (.event .pop)
    else if w.1 = ['P', 'O', 'P', 'A', 'L', 'L'] then bare w.2 .popAll
    else if w.1 = ['F', 'A', 'I', 'L'] then (readCause w.2).map fun m => .event (.fail m)
    else if w.1 = ['B', 'Y', 'T', 'E'] then
      match readValues (w.2.length + 1) w.2 with
      | some [v] => some (.event (.byte v))
      | some [] => none
      | some (_ :: _ :: _) => none
      | none => none
    else if w.1 = ['B', 'Y', 'T', 'E', 'S'] then (readBytes w.2).map .bytes
    else if w.1 = ['S', 'E', 'S', 'S', 'I', 'O', 'N'] then (readBytes w.2).map .session
    else none

/-- The lines of a text. -/
def splitLines : List Char → List (List Char)
  | [] => [[]]
  | c :: cs =>
    if c = '\n' then [] :: splitLines cs
    else
      match splitLines cs with
      | [] => [[c]]
      | l :: ls => (c :: l) :: ls

/-- The lines of a script, or the number of the first line that is not in the syntax. -/
def parseLines (n : Nat) : List (List Char) → Except Nat (List ScriptLine)
  | [] => .ok []
  | t :: ts =>
    match parseLine t with
    | none => .error n
    | some l =>
      match parseLines (n + 1) ts with
      | .error m => .error m
      | .ok ls => .ok (l :: ls)

/-- A script from its text. -/
def parseScript (text : List Char) : Except Nat (List ScriptLine) := parseLines 1 (splitLines text)

end Sys2Proof.Machine
end

