-- ==== Sys2Proof/Safety.lean ====
section
/-! DEFINITION. What claims are stated in: the session invariant (10_state.md R25), the invariant of the machine, the
relations of the transition table (43_encoder.md R100), and the runs claims speak of. -/

namespace Sys2Proof.Machine

open Sys2Proof Sys2Proof.Config

/-- A move that the environment can make at the core's boundary: a script word or a clock edge (R47: an internal
operation "cannot be delivered from outside"). -/
def Input.external : Input → Bool
  | .word _ => true
  | .edge _ => true
  | .trace _ => false

/-- Slot `i` lies on the probe path of the key `(p, b)`, and every slot before it on the path is populated
(40_dictionary.md R69: INSERT puts a key into the first empty slot of its path). -/
def onProbePath (t : Table) (p : Code) (b : Byte) (i : Nat) : Prop :=
  ∃ k, k < TABLE_SIZE ∧ i = probeSlot (homeIndex p b).toNat k ∧
    ∀ j, j < k → populated (memRead t (probeSlot (homeIndex p b).toNat j)) = true

/-- The invariants of a session (R25), item by item. -/
structure SessionInv (s : State) : Prop where
  /-- item 1: slot `i < ROOTS` holds the root record -/
  roots : ∀ i, i < ROOTS → memRead s.table i = some (rootEntry i)
  /-- items 2, 3 and 5: the codes beyond the roots lie in `[FIRST_CODE, nextCode)` -/
  codesBelow : ∀ i e, ROOTS ≤ i → memRead s.table i = some e →
    FIRST_CODE.toNat ≤ e.assignedCode.toNat ∧ e.assignedCode.toNat < s.nextCode.toNat
  /-- item 2: each of those codes is in some slot -/
  codesPresent : ∀ a, FIRST_CODE.toNat ≤ a → a < s.nextCode.toNat →
    ∃ i e, ROOTS ≤ i ∧ memRead s.table i = some e ∧ e.assignedCode.toNat = a
  /-- item 2: and in one only -/
  codesUnique : ∀ i j e f, ROOTS ≤ i → ROOTS ≤ j → memRead s.table i = some e → memRead s.table j = some f →
    e.assignedCode = f.assignedCode → i = j
  /-- item 4: how many slots are populated -/
  count : s.table.length = ROOTS + (s.nextCode.toNat - FIRST_CODE.toNat)
  /-- item 5: the prefix of a slot beyond the roots is a root code or an assigned code, and smaller than its code -/
  links : ∀ i e, ROOTS ≤ i → memRead s.table i = some e →
    ∃ p, e.prefixCode = some p ∧ p.toNat < e.assignedCode.toNat
  /-- item 6: no two populated slots hold the same key -/
  keysUnique : ∀ i j e f, memRead s.table i = some e → memRead s.table j = some f →
    e.prefixCode = f.prefixCode → e.appendedByte = f.appendedByte → i = j
  /-- R69's reason: every key sits at the first slot of its path that was empty -/
  onPath : ∀ i e p, memRead s.table i = some e → e.prefixCode = some p → onProbePath s.table p e.appendedByte i
  /-- item 7: the counter's range -/
  counter : FIRST_CODE.toNat ≤ s.nextCode.toNat
  /-- item 8, with R86's values for `BITS = 12` -/
  pending : s.pendingBits = 0#5 ∨ s.pendingBits = 4#5
  /-- item 8: only the valid bits are set -/
  buffer : s.bitBuffer.toNat < 2 ^ s.pendingBits.toNat
  /-- item 9: in MATCHING `cur` is a root code or an assigned code -/
  cur : s.phase = .matching → ∃ c, s.cur = some c ∧ (c.toNat < ROOTS ∨
    (FIRST_CODE.toNat ≤ c.toNat ∧ c.toNat < s.nextCode.toNat))

/-- Exactly the entry at the tail is marked (44_interfaces.md R113); an empty queue has no entry to mark. -/
def tailMarked : List OutEntry → Bool
  | [] => true
  | [e] => e.last
  | e :: f :: q => !e.last && tailMarked (f :: q)

/-- No entry is marked. -/
def noneMarked (q : List OutEntry) : Bool := q.all fun e => !e.last

/-- A session exists: SEED, MATCHING or DRAINED (R25). -/
def hasSession (s : State) : Prop := s.phase = .seed ∨ s.phase = .matching ∨ s.phase = .drained

/-- The invariant of the machine, between two moves of the environment. -/
structure Inv (s : State) : Prop where
  /-- the table is in canonical form -/
  table : s.table.wf
  /-- R25 while a session exists -/
  session : hasSession s → SessionInv s
  /-- R100: `outq` is empty in IDLE, SEED and FAILED -/
  queueEmpty : s.phase = .idle ∨ s.phase = .seed ∨ s.phase = .failed → s.outq = []
  /-- R113: no entry is marked before END -/
  queueOpen : s.phase = .matching → noneMarked s.outq = true
  /-- R113: after END the tail is marked and nothing else -/
  queueClosed : s.phase = .drained → tailMarked s.outq = true
  /-- R12: `cur` holds no value in IDLE, SEED and FAILED -/
  curNone : s.phase = .idle ∨ s.phase = .seed ∨ s.phase = .failed → s.cur = none
  /-- R85, R97: END leaves the accumulator empty; R92: so does START -/
  accumulatorEmpty : s.phase = .seed ∨ s.phase = .drained → s.bitBuffer = 0#19 ∧ s.pendingBits = 0#5
  /-- R19, R122: a cause is recorded exactly in FAILED -/
  cause : s.failCause ≠ 0#2 ↔ s.phase = .failed
  /-- R47: what is still to come is delivered from outside -/
  external : ∀ x ∈ s.inputs, x.external = true

/-- The transition table of `phase` (R100), for the events: `phaseAfter i s` is the phase it names, or `none` where the
event is not enabled ("-"). A FAIL that is ignored leaves the phase. -/
def phaseAfter (i : Instr) (s : State) : Option Phase :=
  match i with
  | .reset => some .idle
  | .start => if startEnabled s then some .seed else none
  | .byte _ => if tokenEnabled s then some .matching else none
  | .endInput => if tokenEnabled s then some .drained else none
  | .pop => if popEnabled s then some s.phase else none
  | .fail _ => if busy s then some .failed else some s.phase
  | .hash _ _ | .stride _ | .next _ _ | .lookup _ _ | .insert _ _ _ _ | .tinit | .sinit | .alloc | .pinit
  | .emit _ | .flush => some s.phase

/-- Some slot of the table is empty: what makes LOOKUP end (R68). -/
def hasEmptySlot (t : Table) : Prop := ∃ i, i < TABLE_SIZE ∧ memRead t i = none

/-- The state but for the model's own fields and the probe registers: what R10 lists, less `idx` and `stride`, which no
event reads before LOOKUP writes them (R17). -/
structure CoreView where
  phase : Phase
  cur : Option Code
  nextCode : Code
  bitBuffer : BitBuf
  pendingBits : BitCount
  table : Table
  outq : List OutEntry
  failCause : BitVec 2
  sunk : List Byte
  deriving DecidableEq, Repr

/-- That part of a state. -/
def coreView (s : State) : CoreView where
  phase := s.phase
  cur := s.cur
  nextCode := s.nextCode
  bitBuffer := s.bitBuffer
  pendingBits := s.pendingBits
  table := s.table
  outq := s.outq
  failCause := s.failCause
  sunk := s.sunk

/-- The fields that no event touches: the environment's side and the ghost of a trace. -/
def sameOwn (s t : State) : Prop :=
  t.ret = s.ret ∧ t.inputs = s.inputs ∧ t.line = s.line ∧ t.startStall = s.startStall ∧ t.inStall = s.inStall ∧
    t.inGate = s.inGate ∧ t.outStall = s.outStall

/-- The event is a data token or a POP: what may come between START and END in a session that neither fails nor is
reset. -/
def midSession : Instr → Bool
  | .byte _ | .pop => true
  | .endInput | .start | .fail _ | .reset | .hash _ _ | .stride _ | .next _ _ | .lookup _ _ | .insert _ _ _ _ | .tinit
  | .sinit | .alloc | .pinit | .emit _ | .flush => false

/-- The data bytes among the events. -/
def bytesOf : List Instr → List Byte
  | [] => []
  | .byte d :: is => d :: bytesOf is
  | _ :: is => bytesOf is

/-- An edge on which the environment drives nothing. -/
def idleEdge : PortsIn :=
  { rst := false, start := false, inValid := false, inEnd := false, inData := 0#8, inFail := false, outReady := false,
    outFail := false }

/-- The first `n` edges of an environment that drives `p k` on the `k`-th edge. -/
def edgesOf (p : Nat → PortsIn) : Nat → State → Result
  | 0, s => .next s
  | n + 1, s => andThen (edge (p 0) s) (edgesOf (fun k => p (k + 1)) n)

/-- `n` edges with the same port values. -/
def edges (p : PortsIn) : Nat → State → Result
  | 0, s => .next s
  | n + 1, s => andThen (edge p s) (edges p n)

end Sys2Proof.Machine
end

