-- ==== Sys2Proof/Certificates/Slice0/Obligations.lean ====
section
/-! DEFINITION. The statements for the provers: one `def Obligations.<Name> : Prop` each, listed in OBLIGATIONS.json. The
field `ret` that some name is the model's own ghost (notes/assumptions/2.md), `line` and `inputs` are its own side of the
environment (notes/assumptions/1.md). -/

open Sys2Proof Sys2Proof.Machine Sys2Proof.Config

/-! Encodings. -/

/-- R46: the word of every event, with every operand, decodes to that event. -/
def Obligations.EventWordsDecodeAsTabled : Prop :=
  (∀ d : Byte, decodeEvent (0x0000#13 ||| d.setWidth 13) = .ok (.byte d)) ∧
    decodeEvent 0x0100#13 = .ok .endInput ∧ decodeEvent 0x0200#13 = .ok .start ∧
    decodeEvent 0x0301#13 = .ok (.fail .input) ∧ decodeEvent 0x0302#13 = .ok (.fail .output) ∧
    decodeEvent 0x0303#13 = .ok (.fail .both) ∧ decodeEvent 0x0400#13 = .ok .pop ∧
    decodeEvent 0x0500#13 = .ok .reset

/-- R47's patterns: each operation's event word, and the line that the word starts decodes to it. The operand words
after it are the model's own (notes/assumptions/3.md). -/
def Obligations.OperationLinesDecode : Prop :=
  (∀ (p : Code) (b : Byte), decodeLine [0x1000#16, p.setWidth 16, b.setWidth 16] = .ok (.hash p b)) ∧
    (∀ h : SlotIx, decodeLine [0x1100#16, h.setWidth 16] = .ok (.stride h)) ∧
    (∀ i d : SlotIx, decodeLine [0x1200#16, i.setWidth 16, d.setWidth 16] = .ok (.next i d)) ∧
    (∀ (p : Code) (b : Byte), decodeLine [0x1300#16, p.setWidth 16, b.setWidth 16] = .ok (.lookup p b)) ∧
    (∀ (i : SlotIx) (a p : Code) (b : Byte),
      decodeLine [0x1400#16, i.setWidth 16, a.setWidth 16, p.setWidth 16, b.setWidth 16] = .ok (.insert i a p b)) ∧
    decodeLine [0x1500#16] = .ok .tinit ∧ decodeLine [0x1600#16] = .ok .sinit ∧
    decodeLine [0x1700#16] = .ok .alloc ∧ decodeLine [0x1800#16] = .ok .pinit ∧
    (∀ c : Code, decodeLine [0x1900#16, c.setWidth 16] = .ok (.emit c)) ∧ decodeLine [0x1A00#16] = .ok .flush

/-- R48: exactly the reserved words and the class 1 words are refused, and the script decoder refuses a script that
holds one, naming the position of the first; any other script decodes word by word. -/
def Obligations.ReservedWordsRefusedByPosition : Prop :=
  (∀ w : EventWord, decodeEvent w = .error .reserved ↔
      (clsOf w = 0#1 ∧ (6 ≤ (opOf w).toNat ∨
          (((opOf w).toNat = 1 ∨ (opOf w).toNat = 2 ∨ (opOf w).toNat = 4 ∨ (opOf w).toNat = 5) ∧ argOf w ≠ 0#8) ∨
          ((opOf w).toNat = 3 ∧ ((argOf w).toNat % 4 = 0 ∨ (argOf w).toNat / 4 ≠ 0)))) ∨
        (clsOf w = 1#1 ∧ (11 ≤ (opOf w).toNat ∨ argOf w ≠ 0#8))) ∧
    (∀ w : EventWord, decodeEvent w = .error .internal ↔ clsOf w = 1#1 ∧ (opOf w).toNat ≤ 10 ∧ argOf w = 0#8) ∧
    (∀ (pos : Nat) (ws : List EventWord) (n : Nat) (e : DecodeError), decodeScript pos ws = .error (n, e) ↔
      ∃ k w, n = pos + k ∧ ws[k]? = some w ∧ decodeEvent w = .error e ∧
        ∀ j, j < k → ∃ v i, ws[j]? = some v ∧ decodeEvent v = .ok i) ∧
    (∀ (pos : Nat) (ws : List EventWord) (is : List Instr), decodeScript pos ws = .ok is ↔
      ws.map decodeEvent = is.map .ok)

/-- Decode and encode agree, for every instruction at every operand value, and in both directions: no word of a line has
two meanings, and no two lines mean the same. -/
def Obligations.DecodeAndEncodeAgree : Prop :=
  (∀ (i : Instr) (rest : List TraceWord), decode (encode i ++ rest) = .ok (i, rest)) ∧
    (∀ (ws : List TraceWord) (i : Instr), decodeLine ws = .ok i ↔ ws = encode i) ∧
    (∀ (w : EventWord) (i : Instr), decodeEvent w = .ok i ↔ i.isEvent = true ∧ w = i.eventWord)

/-- The rows of the opcode table (R46, R47) are the encoding: no word belongs to two rows, and the words of a row are
the event words of the instructions with its mnemonic. -/
def Obligations.OpcodeRowsAreTheEncoding : Prop :=
  (∀ w : EventWord, (opcodeRows.filter fun r => r.covers w).length ≤ 1) ∧
    (∀ (w : EventWord) (r : OpRow), r ∈ opcodeRows →
      (r.covers w = true ↔ ∃ i : Instr, i.eventWord = w ∧ i.mnemonic = r.mnemonic)) ∧
    ∀ i : Instr, ∃ r, r ∈ opcodeRows ∧ r.mnemonic = i.mnemonic

/-- R50: the bits of the packed slot word, and the word stands for the slot whenever its codes are codes. -/
def Obligations.SlotWordRoundTrip : Prop :=
  packSlot none = 0xFFFFFF00#32 ∧ unpackSlot (packSlot none) = none ∧
    (∀ e : Entry, (packSlot (some e)).extractLsb' 20 12 = e.assignedCode ∧
      (packSlot (some e)).extractLsb' 8 12 = e.prefixCode.getD 0xFFF#12 ∧
      (packSlot (some e)).extractLsb' 0 8 = e.appendedByte) ∧
    (∀ i, i < ROOTS → (packSlot (some (rootEntry i))).toNat = i * 2 ^ 20 + 0xFFF00 + i) ∧
    (∀ w : SlotWord, unpackSlot w = none ↔ w.extractLsb' 20 12 = 0xFFF#12) ∧
    (∀ e : Entry, e.assignedCode.toNat ≤ MAX_CODE.toNat →
      (∀ p, e.prefixCode = some p → p.toNat ≤ MAX_CODE.toNat) → unpackSlot (packSlot (some e)) = some e)

/-- R54, R55: the encodings of `phase` and of the failure causes. -/
def Obligations.PhaseAndCauseEncodings : Prop :=
  (Phase.idle.bits = 0#3 ∧ Phase.seed.bits = 1#3 ∧ Phase.matching.bits = 2#3 ∧ Phase.drained.bits = 3#3 ∧
    Phase.failed.bits = 4#3) ∧
    (∀ p q : Phase, p.bits = q.bits → p = q) ∧
    FailMask.input.bits = 1#2 ∧ FailMask.output.bits = 2#2 ∧ FailMask.both.bits = 3#2 ∧
    (∀ m : FailMask, m.bits ≠ 0#2)

/-- R4: the check of a parameter set is the rule's list of conditions, and this hardware's set passes it; R5: the
derived constants of this hardware. -/
def Obligations.LegalParametersAsListed : Prop :=
  (∀ P : Params, P.Legal ↔
    9 ≤ P.bits ∧ 8 + P.hashShift ≤ P.bits ∧ 2 ^ P.bits < P.tableSize ∧ P.tableSize.Prime ∧
      P.roots ≤ 256 ∧ P.roots ≤ P.firstCode ∧ P.firstCode ≤ P.maxCode) ∧
    (∀ P : Params, P.maxValue = 2 ^ P.bits - 1 ∧ P.maxCode = P.maxValue - 1) ∧
    hw.Legal ∧ (∀ d : Byte, d.toNat < hw.roots) ∧
    hw.idxWidth = 13 ∧ hw.bufWidth = 19 ∧ hw.slotWidth = 32 ∧ hw.nCodes = 3839 ∧ hw.maxPop = 4095 ∧ hw.minEmpty = 926

/-! The step. -/

/-- A step makes the environment's next move: it runs the decoded event or operation on the state with that move taken,
or the clock edge; it refuses what does not decode, by position; with no move left the core waits. A word placed with
`withFetchWord` is the move the next step makes. -/
def Obligations.StepRunsDecodedInstruction : Prop :=
  (∀ (s : State) (w : EventWord) (rest : List Input) (i : Instr), s.inputs = .word w :: rest → decodeEvent w = .ok i →
      step s = exec i { s with inputs := rest, line := s.line + 1 }) ∧
    (∀ (s : State) (ws : List TraceWord) (rest : List Input) (i : Instr), s.inputs = .trace ws :: rest →
      decodeLine ws = .ok i → step s = exec i { s with inputs := rest, line := s.line + 1 }) ∧
    (∀ (s : State) (p : PortsIn) (rest : List Input), s.inputs = .edge p :: rest →
      step s = edge p { s with inputs := rest, line := s.line + 1 }) ∧
    (∀ (s : State) (w : EventWord) (rest : List Input) (e : DecodeError), s.inputs = .word w :: rest →
      decodeEvent w = .error e → step s = .refused (.undecodable (s.line + 1) e)) ∧
    (∀ (s : State) (ws : List TraceWord) (rest : List Input) (e : DecodeError), s.inputs = .trace ws :: rest →
      decodeLine ws = .error e → step s = .refused (.undecodable (s.line + 1) e)) ∧
    (∀ s : State, s.inputs = [] → step s = .next s) ∧
    (∀ (s : State) (nbits w : Nat) (i : Instr), decodeTableWord nbits w = some i →
      step (s.withFetchWord nbits w) = exec i { s with line := s.line + 1 })

/-! The dictionary. -/

/-- R60: HASH returns `(b << HASH_SHIFT) xor p`, in `[0, 4095]`, zero exactly for `p = b << HASH_SHIFT`, and changes no
state; the ghost `ret` is the model's (notes/assumptions/2.md). -/
def Obligations.HashIsShiftXor : Prop :=
  ∀ (p : Code) (b : Byte) (s : State), ∃ i : SlotIx,
    exec (.hash p b) s = .next { s with ret := .slot i } ∧ i.toNat = (b.toNat <<< 4) ^^^ p.toNat ∧ i.toNat ≤ 4095 ∧
      (i.toNat = 0 ↔ p.toNat = b.toNat <<< 4)

/-- R61: STRIDE of a home index, in `[1, TABLE_SIZE - 1]`; no state changes. For any other operand it completes too, with
a value R61 does not state (notes/assumptions/8.md); the ghost `ret` is the model's
(notes/assumptions/2.md). -/
def Obligations.StrideFormula : Prop :=
  ∀ (h : SlotIx) (s : State), ∃ d : SlotIx, exec (.stride h) s = .next { s with ret := .stride d } ∧
    (h.toNat < 4096 → d.toNat = (if h.toNat = 0 then 1 else 5021 - h.toNat) ∧ 1 ≤ d.toNat ∧ d.toNat ≤ 5020)

/-- R62: NEXT is `(i - s) mod TABLE_SIZE`, never `i`, inside the table; no state changes. For operands outside R62's
ranges it completes too, with a value R62 does not state (notes/assumptions/8.md); the ghost `ret` is the model's
(notes/assumptions/2.md). -/
def Obligations.NextSubtractsModulo : Prop :=
  ∀ (i d : SlotIx) (s : State), ∃ j : SlotIx, exec (.next i d) s = .next { s with ret := .slot j } ∧
    (i.toNat < 5021 → 1 ≤ d.toNat → d.toNat < 5021 →
      (j.toNat : Int) = ((i.toNat : Int) - (d.toNat : Int)) % 5021 ∧
        j.toNat = (if i.toNat < d.toNat then i.toNat + 5021 - d.toNat else i.toNat - d.toNat) ∧ j ≠ i)

/-- R67: the closed form of the probe sequence from a home index; it depends on the home index only. -/
def Obligations.ProbeClosedForm : Prop :=
  ∀ (h : SlotIx) (k : Nat), h.toNat < 4096 →
    (h.toNat ≠ 0 → (probeIter (strideOf h) k h).toNat = ((k + 1) * h.toNat) % 5021) ∧
      (h.toNat = 0 → ((probeIter (strideOf h) k h).toNat : Int) = (-(k : Int)) % 5021) ∧
      (probeIter (strideOf h) k h).toNat = probeSlot h.toNat k

/-- R68: the first `TABLE_SIZE` probes from a home index are pairwise distinct and visit every slot. -/
def Obligations.ProbeVisitsEverySlotOnce : Prop :=
  ∀ h : SlotIx, h.toNat < 4096 →
    (∀ j k, j < 5021 → k < 5021 → probeIter (strideOf h) j h = probeIter (strideOf h) k h → j = k) ∧
      ∀ i, i < 5021 → ∃ k, k < 5021 ∧ (probeIter (strideOf h) k h).toNat = i

/-- R63: where some slot is empty LOOKUP completes; it returns the first slot of the probe path that is empty or holds
the key, the home slot first, writes `idx` and `stride`, and changes nothing else; the ghost `ret` is the model's
(notes/assumptions/2.md). -/
def Obligations.LookupReturnsFirstStop : Prop :=
  ∀ (p : Code) (b : Byte) (s : State), hasEmptySlot s.table → ∃ k, k < 5021 ∧
    exec (.lookup p b) s = .next { s with
      idx := probeIter (strideOf (homeIndex p b)) k (homeIndex p b)
      stride := strideOf (homeIndex p b)
      ret := .slot (probeIter (strideOf (homeIndex p b)) k (homeIndex p b)) } ∧
    (memRead s.table (probeIter (strideOf (homeIndex p b)) k (homeIndex p b)).toNat = none ∨
      ∃ e, memRead s.table (probeIter (strideOf (homeIndex p b)) k (homeIndex p b)).toNat = some e ∧
        e.prefixCode = some p ∧ e.appendedByte = b) ∧
    ∀ j, j < k → ∃ e, memRead s.table (probeIter (strideOf (homeIndex p b)) j (homeIndex p b)).toNat = some e ∧
      ¬ (e.prefixCode = some p ∧ e.appendedByte = b)

/-- R68: LOOKUP does not end exactly when every slot is populated with another key, a hang and never a returned value;
and where it ends it has examined at most one slot more than are populated. The fault that stands for the hang is the
model's (notes/assumptions/12.md). -/
def Obligations.LookupHangsOnlyOnFullTable : Prop :=
  ∀ (p : Code) (b : Byte) (s : State),
    (exec (.lookup p b) s = .fault .lookupHang ↔
      ∀ i, i < 5021 → ∃ e, memRead s.table i = some e ∧ ¬ (e.prefixCode = some p ∧ e.appendedByte = b)) ∧
    (s.table.wf → ∀ t, exec (.lookup p b) s = .next t → ∃ k, k ≤ s.table.length ∧
      t.ret = .slot (probeIter (strideOf (homeIndex p b)) k (homeIndex p b)))

/-- R65: INSERT writes the record to its slot and changes no other slot and nothing else; an index that names no slot
stops it, which is the model's choice (20_memory.md R31, notes/assumptions/4.md). -/
def Obligations.InsertWritesOneSlot : Prop :=
  ∀ (i : SlotIx) (a p : Code) (b : Byte) (s : State),
    (i.toNat < 5021 → ∃ u : Table, exec (.insert i a p b) s = .next { s with table := u } ∧
      memRead u i.toNat = some { assignedCode := a, prefixCode := some p, appendedByte := b } ∧
      (∀ j, j ≠ i.toNat → memRead u j = memRead s.table j) ∧ (s.table.wf → u.wf)) ∧
    (5021 ≤ i.toNat → exec (.insert i a p b) s = .fault .noSuchSlot)

/-- R66: TINIT writes the root records and empties every other slot, and changes nothing else. -/
def Obligations.TinitFillsTable : Prop :=
  ∀ s : State, ∃ u : Table, exec .tinit s = .next { s with table := u } ∧ u.wf ∧
    (∀ i, i < 256 → memRead u i =
      some { assignedCode := BitVec.ofNat 12 i, prefixCode := none, appendedByte := BitVec.ofNat 8 i }) ∧
    (∀ i, 256 ≤ i → memRead u i = none)

/-- R70: with the roots in place LOOKUP returns no root slot, neither as a hit nor as a miss; and a home index lies below
`ROOTS` exactly when `p[11:8] = b[7:4]`. The ghost `ret` is the model's (notes/assumptions/2.md). -/
def Obligations.RootSlotsNeverMatch : Prop :=
  (∀ (p : Code) (b : Byte) (s t : State), (∀ i, i < ROOTS → memRead s.table i = some (rootEntry i)) →
      exec (.lookup p b) s = .next t → ∃ i : SlotIx, t.ret = .slot i ∧ 256 ≤ i.toNat) ∧
    ∀ (p : Code) (b : Byte), (homeIndex p b).toNat < 256 ↔ p.toNat / 256 = b.toNat / 16

/-! The code sequencer. -/

/-- R75, R76: SINIT starts the counter at 256; ALLOC hands out the counter while it is at most `MAX_CODE` and counts on,
and otherwise hands out `none` and changes nothing; the ghost `ret` is the model's (notes/assumptions/2.md). -/
def Obligations.SinitAndAlloc : Prop :=
  ∀ s : State, exec .sinit s = .next { s with nextCode := 256#12 } ∧
    (s.nextCode.toNat ≤ 4094 → ∃ n : Code, n.toNat = s.nextCode.toNat + 1 ∧
      exec .alloc s = .next { s with nextCode := n, ret := .code (some s.nextCode) }) ∧
    (s.nextCode = 0xFFF#12 → exec .alloc s = .next { s with ret := .code none })

/-- R77, R78: the `j`-th ALLOC after SINIT returns `FIRST_CODE + j` for the 3839 assignable codes, and every later one
returns `none` with the counter at `MAX_VALUE`; the ghost `ret` is the model's (notes/assumptions/2.md). -/
def Obligations.AllocHandsOutInOrder : Prop :=
  ∀ (s : State) (j : Nat), ∃ t, runEvents (.sinit :: List.replicate (j + 1) .alloc) s = .next t ∧
    (j < 3839 → t.ret = .code (some (BitVec.ofNat 12 (256 + j))) ∧ t.nextCode.toNat = 257 + j) ∧
    (3839 ≤ j → t.ret = .code none ∧ t.nextCode = 0xFFF#12 ∧ codesExhausted t = true)

/-! The bit packer. -/

/-- R83, R84: EMIT appends the 12 bits of the code below the bits held and pushes the whole bytes, most significant
first; what stays is the low `(pendingBits + 12) mod 8` bits; nothing else changes. With more than 7 bits pending, which
R86 excludes, this is the model's choice (notes/assumptions/17.md). -/
def Obligations.EmitAppendsAndDrains : Prop :=
  ∀ (c : Code) (s : State), ∃ (buf : BitBuf) (n : BitCount) (bs : List Byte),
    exec (.emit c) s =
      .next { s with bitBuffer := buf, pendingBits := n, outq := s.outq ++ bs.map (OutEntry.mk false) } ∧
    n.toNat = (s.pendingBits.toNat + 12) % 8 ∧
    buf.toNat = (s.bitBuffer.toNat * 4096 + c.toNat) % 2 ^ ((s.pendingBits.toNat + 12) % 8) ∧
    bs.length = (s.pendingBits.toNat + 12) / 8 ∧
    ∀ k, k < bs.length → bs[k]? =
      some (BitVec.ofNat 8 ((s.bitBuffer.toNat * 4096 + c.toNat) >>> (s.pendingBits.toNat + 12 - 8 * (k + 1))))

/-- R82, R85: PINIT zeroes the accumulator; FLUSH pushes the pending bits left-justified, or nothing when none are
pending, and zeroes it; nothing else changes. With more than 8 bits pending, which R86 excludes, FLUSH completes with one
byte R85 does not state (notes/assumptions/8.md). -/
def Obligations.PinitAndFlush : Prop :=
  ∀ s : State, exec .pinit s = .next { s with bitBuffer := 0#19, pendingBits := 0#5 } ∧
    (s.pendingBits = 0#5 → exec .flush s = .next { s with bitBuffer := 0#19, pendingBits := 0#5 }) ∧
    (s.pendingBits ≠ 0#5 → ∃ y : Byte, exec .flush s =
      .next { s with bitBuffer := 0#19, pendingBits := 0#5, outq := s.outq ++ [OutEntry.mk false y] } ∧
      (s.pendingBits.toNat ≤ 7 → y.toNat = (s.bitBuffer.toNat * 2 ^ (8 - s.pendingBits.toNat)) % 256))

/-- R87: PINIT, an EMIT for each code of a list and FLUSH push exactly PACK of the list, whose first `floor(k*BITS/8)`
bytes are out after `k` codes; unpacking is the inverse. -/
def Obligations.PackerComputesPack : Prop :=
  (∀ (cs : List Code) (s : State), ∃ t, runEvents (.pinit :: (cs.map .emit ++ [.flush])) s = .next t ∧
    t = { s with
      bitBuffer := 0#19
      pendingBits := 0#5
      outq := s.outq ++ (pack BITS (cs.map BitVec.toNat)).map (OutEntry.mk false) }) ∧
  (∀ (cs ds : List Code) (s : State), ∃ t, runEvents (.pinit :: cs.map .emit) s = .next t ∧
    t.outq = s.outq ++
      ((pack BITS ((cs ++ ds).map BitVec.toNat)).take (cs.length * 12 / 8)).map (OutEntry.mk false)) ∧
  (∀ cs : List Code, unpack BITS cs.length (pack BITS (cs.map BitVec.toNat)) = cs.map BitVec.toNat)

/-- R88, R89: the length of PACK and its zero padding, for every code width, and the lengths for 12 bits. -/
def Obligations.PackLengthAndPadding : Prop :=
  (∀ (width : Nat) (cs : List Nat), 1 ≤ width →
    (pack width cs).length = (cs.length * width + 7) / 8 ∧
      (cs.length * width % 8 ≠ 0 →
        ∃ y : Byte, (pack width cs).getLast? = some y ∧ y.toNat % 2 ^ (8 - cs.length * width % 8) = 0)) ∧
    ∀ cs : List Nat, (cs.length % 2 = 0 → (pack BITS cs).length = 3 * cs.length / 2) ∧
      (cs.length % 2 = 1 → (pack BITS cs).length = (3 * cs.length + 1) / 2)

/-! The encoder. -/

/-- R92: where START is enabled it creates a session; elsewhere it is not enabled. `idx` and `stride` hold no value
after it. -/
def Obligations.StartCreatesSession : Prop :=
  ∀ s : State,
    (s.phase = .idle ∨ s.phase = .failed ∨ (s.phase = .drained ∧ s.outq = []) → ∃ t, exec .start s = .next t ∧
      t.phase = .seed ∧ t.cur = none ∧ t.nextCode = 256#12 ∧ t.bitBuffer = 0#19 ∧ t.pendingBits = 0#5 ∧ t.outq = [] ∧
      t.failCause = 0#2 ∧ t.sunk = [] ∧ t.table.wf ∧
      (∀ i, i < 256 → memRead t.table i =
        some { assignedCode := BitVec.ofNat 12 i, prefixCode := none, appendedByte := BitVec.ofNat 8 i }) ∧
      (∀ i, 256 ≤ i → memRead t.table i = none) ∧ sameOwn s t) ∧
    (¬ (s.phase = .idle ∨ s.phase = .failed ∨ (s.phase = .drained ∧ s.outq = [])) →
      exec .start s = .fault (.stuck s.line))

/-- R93: BYTE d in SEED makes the byte's root code the current match and changes nothing else. -/
def Obligations.ByteSeedsMatch : Prop :=
  ∀ (d : Byte) (s : State), s.phase = .seed → ∃ c : Code, c.toNat = d.toNat ∧
    exec (.byte d) s = .next { s with cur := some c, phase := .matching }

/-- R94, R95: BYTE d in MATCHING, when the slot that LOOKUP(cur, d) returns is populated: the match is extended, nothing is
emitted, nothing is written to the table; but for the probe registers only `cur` changes. The slot is read from LOOKUP's
ghost `ret` (notes/assumptions/2.md). -/
def Obligations.ByteExtendsOnHit : Prop :=
  ∀ (d : Byte) (s u : State) (c : Code) (i : SlotIx) (e : Entry), s.phase = .matching → s.cur = some c →
    exec (.lookup c d) s = .next u → u.ret = .slot i → memRead s.table i.toNat = some e →
      hit u = true ∧ exec (.byte d) s = .next { s with cur := some e.assignedCode, idx := u.idx, stride := u.stride }

/-- R96: BYTE d in MATCHING, when the slot that LOOKUP(cur, d) returns is empty: the prefix's code is emitted, and while a
code is left the slot is populated with it and the counter advances; the byte starts a new match; nothing else changes.
The slot is read from LOOKUP's ghost `ret` (notes/assumptions/2.md). -/
def Obligations.ByteMissEmitsAndGrows : Prop :=
  ∀ (d : Byte) (s u : State) (c : Code) (i : SlotIx), s.phase = .matching → s.cur = some c →
    exec (.lookup c d) s = .next u → u.ret = .slot i → memRead s.table i.toNat = none →
      hit u = false ∧ ∃ (v : State) (n : Code) (tb : Table), exec (.emit c) s = .next v ∧
        exec (.byte d) s = .next { s with
          cur := some (d.setWidth 12)
          nextCode := n
          bitBuffer := v.bitBuffer
          pendingBits := v.pendingBits
          outq := v.outq
          table := tb
          idx := u.idx
          stride := u.stride } ∧
        (∀ j, j ≠ i.toNat → memRead tb j = memRead s.table j) ∧
        (s.nextCode.toNat ≤ 4094 → n.toNat = s.nextCode.toNat + 1 ∧
          memRead tb i.toNat = some { assignedCode := s.nextCode, prefixCode := some c, appendedByte := d }) ∧
        (s.nextCode = 0xFFF#12 → n = s.nextCode ∧ tb = s.table)

/-- R94: BYTE d in MATCHING completes wherever some slot is empty, and stays in MATCHING. -/
def Obligations.ByteCompletesInMatching : Prop :=
  ∀ (d : Byte) (s : State) (c : Code), s.phase = .matching → s.cur = some c → hasEmptySlot s.table →
    ∃ t, exec (.byte d) s = .next t ∧ t.phase = .matching ∧ t.cur ≠ none

/-- R97, R98: END emits the pending code if there is one, then the sentinel, flushes, marks the tail of the queue and
drains; nothing else changes. -/
def Obligations.EndEmitsTerminal : Prop :=
  (∀ (s : State) (c : Code), s.phase = .matching → s.cur = some c → ∃ (u : State) (q : List OutEntry) (e : OutEntry),
      runEvents [.emit c, .emit 0xFFF#12, .flush] s = .next u ∧ u.outq = q ++ [e] ∧
      exec .endInput s = .next { s with
        bitBuffer := 0#19, pendingBits := 0#5, outq := q ++ [{ e with last := true }], phase := .drained }) ∧
    (∀ s : State, s.phase = .seed → ∃ (u : State) (q : List OutEntry) (e : OutEntry),
      runEvents [.emit 0xFFF#12, .flush] s = .next u ∧ u.outq = q ++ [e] ∧
      exec .endInput s = .next { s with
        bitBuffer := 0#19, pendingBits := 0#5, outq := q ++ [{ e with last := true }], phase := .drained })

/-- R97, R98 with `BITS = 12`: the bytes END pushes, from either value of `pendingBits` that R86 allows, and for an empty
input. -/
def Obligations.EndPushesTheseBytes : Prop :=
  (∀ (s : State) (c : Code), s.phase = .matching → s.cur = some c → s.bitBuffer = 0#19 → s.pendingBits = 0#5 →
      exec .endInput s = .next { s with
        phase := .drained
        outq := s.outq ++ [⟨false, c.extractLsb' 4 8⟩, ⟨false, c.extractLsb' 0 4 ++ 0xF#4⟩, ⟨true, 0xFF#8⟩] }) ∧
    (∀ (s : State) (c : Code) (x : BitVec 4), s.phase = .matching → s.cur = some c → s.bitBuffer = x.setWidth 19 →
      s.pendingBits = 4#5 →
      exec .endInput s = .next { s with
        phase := .drained
        bitBuffer := 0#19
        pendingBits := 0#5
        outq := s.outq ++
          [⟨false, x ++ c.extractLsb' 8 4⟩, ⟨false, c.extractLsb' 0 8⟩, ⟨false, 0xFF#8⟩, ⟨true, 0xF0#8⟩] }) ∧
    (∀ s : State, s.phase = .seed → s.bitBuffer = 0#19 → s.pendingBits = 0#5 →
      exec .endInput s = .next { s with phase := .drained, outq := s.outq ++ [⟨false, 0xFF#8⟩, ⟨true, 0xF0#8⟩] })

/-- R99: a token outside SEED and MATCHING, and a START during a session, do not happen; the ready signal is low. -/
def Obligations.NotEnabledIsStuck : Prop :=
  ∀ s : State,
    (s.phase ≠ .seed → s.phase ≠ .matching → (∀ d, exec (.byte d) s = .fault (.stuck s.line)) ∧
      exec .endInput s = .fault (.stuck s.line) ∧ inReady s = false) ∧
    (s.phase = .seed ∨ s.phase = .matching ∨ (s.phase = .drained ∧ s.outq ≠ []) →
      exec .start s = .fault (.stuck s.line) ∧ startReady s = false)

/-- R100: no event takes `phase` anywhere but where the transition table says, and an event that the table does not
enable in a state stops there. -/
def Obligations.PhaseFollowsTransitionTable : Prop :=
  ∀ (i : Instr) (s : State), i.isEvent = true →
    (∀ t, exec i s = .next t → phaseAfter i s = some t.phase) ∧
      (phaseAfter i s = none → exec i s = .fault (.stuck s.line))

/-- R94 to R98: what START, BYTE and END do to the table, the counter, the accumulator and the bytes of the queue is what
the internal operations of their trace do, run one after the other. -/
def Obligations.EventsAreTheirTraces : Prop :=
  (∀ s t : State, exec .start s = .next t → ∃ u, runEvents (traceOf .start s) s = .next u ∧ u.table = t.table ∧
      u.nextCode = t.nextCode ∧ u.bitBuffer = t.bitBuffer ∧ u.pendingBits = t.pendingBits) ∧
    ∀ (i : Instr) (s t : State), ((∃ d, i = .byte d) ∨ i = .endInput) → exec i s = .next t →
      ∃ u, runEvents (traceOf i s) s = .next u ∧ u.table = t.table ∧ u.nextCode = t.nextCode ∧
        u.bitBuffer = t.bitBuffer ∧ u.pendingBits = t.pendingBits ∧ u.idx = t.idx ∧ u.stride = t.stride ∧
        u.outq.map OutEntry.byte = t.outq.map OutEntry.byte

/-! The interface and the system. -/

/-- R112: POP delivers the head of the queue and changes nothing else; with an empty queue it is not enabled; under the
invariant the POP of a marked entry empties the queue and completes the session. -/
def Obligations.PopDeliversHead : Prop :=
  (∀ (s : State) (e : OutEntry) (q : List OutEntry), s.outq = e :: q →
      exec .pop s = .next { s with outq := q, sunk := s.sunk ++ [e.byte] }) ∧
    (∀ s : State, s.outq = [] → exec .pop s = .fault (.stuck s.line)) ∧
    ∀ (s : State) (e : OutEntry) (q : List OutEntry), Inv s → s.outq = e :: q → e.last = true →
      q = [] ∧ ∃ t, exec .pop s = .next t ∧ done t = true

/-- R121: FAIL m while a session is active records the cause, discards the queue and fails the session; `sunk` stays; the
session registers and the table hold no value afterwards (nothing is said of them but that `cur` is none, R12). In every
other state FAIL is accepted and ignored. -/
def Obligations.FailIsTakenOrIgnored : Prop :=
  ∀ (m : FailMask) (s : State),
    (s.phase = .seed ∨ s.phase = .matching ∨ (s.phase = .drained ∧ s.outq ≠ []) → ∃ t, exec (.fail m) s = .next t ∧
      t.failCause = m.bits ∧ t.outq = [] ∧ t.phase = .failed ∧ t.cur = none ∧ t.sunk = s.sunk ∧ t.table.wf ∧
      sameOwn s t) ∧
    (s.phase = .idle ∨ s.phase = .failed ∨ (s.phase = .drained ∧ s.outq = []) → exec (.fail m) s = .next s)

/-- R122, R127: failures do not nest: after a FAIL that was taken, FAIL changes nothing, whatever its cause. -/
def Obligations.FirstCauseIsKept : Prop :=
  ∀ (m n : FailMask) (s t : State), busy s = true → exec (.fail m) s = .next t →
    exec (.fail n) t = .next t ∧ t.failCause = m.bits ∧ busy t = false ∧ failed t = true ∧ done t = false

/-- R135: RESET, enabled in every state, clears the control state; nothing is promised of the datapath but that `cur` is
none (R12); the status outputs and the valid and ready signals are 0. -/
def Obligations.ResetClearsControl : Prop :=
  ∀ s : State, ∃ t, exec .reset s = .next t ∧ t.phase = .idle ∧ t.outq = [] ∧ t.failCause = 0#2 ∧ t.sunk = [] ∧
    t.cur = none ∧ t.table.wf ∧ sameOwn s t ∧ busy t = false ∧ done t = false ∧ failed t = false ∧
    hit t = false ∧ dictFull t = false ∧ outValid t = false ∧ inReady t = false ∧ startEnabled t = true

/-- R108, R123: on an edge with `rst` only RESET happens; else, in an active session with a fail pin, only FAIL with the
causes merged; else, under the invariant, a START handshake is a START and nothing else, a completed input handshake is a
BYTE or an END, a completed output handshake is a POP, and the two on one edge are both; an edge on which no condition
holds changes nothing but the ready and valid signals. -/
def Obligations.EdgePriority : Prop :=
  ∀ (p : PortsIn) (s : State),
    (p.rst = true → ∃ t u, exec .reset s = .next u ∧ edge p s = .next t ∧ coreView t = coreView u) ∧
    (p.rst = false → busy s = true → (p.inFail = true ∨ p.outFail = true) → ∃ (m : FailMask) (t u : State),
      m.bits.getLsbD 0 = p.inFail ∧ m.bits.getLsbD 1 = p.outFail ∧
      exec (.fail m) s = .next u ∧ edge p s = .next t ∧ coreView t = coreView u) ∧
    (p.rst = false → (busy s = true → p.inFail = false ∧ p.outFail = false) →
      (Inv s → p.start = true → startReady s = true →
        ∃ t u, exec .start s = .next u ∧ edge p s = .next t ∧ coreView t = coreView u) ∧
      (Inv s → p.inValid = true → inReady s = true → (outValid s = false ∨ p.outReady = false) →
        ∃ t u, exec (if p.inEnd then .endInput else .byte p.inData) s = .next u ∧ edge p s = .next t ∧
          coreView t = coreView u) ∧
      (Inv s → outValid s = true → p.outReady = true → (p.inValid = false ∨ inReady s = false) →
        ∃ t u, exec .pop s = .next u ∧ edge p s = .next t ∧ coreView t = coreView u) ∧
      (Inv s → p.inValid = true → inReady s = true → outValid s = true → p.outReady = true →
        ∃ t u v, exec .pop s = .next u ∧ exec (if p.inEnd then .endInput else .byte p.inData) u = .next v ∧
          edge p s = .next t ∧ coreView t = coreView v) ∧
      ((p.start = true → startReady s = false) → (p.inValid = true → inReady s = false) →
        (p.outReady = true → outValid s = false) →
        ∃ t, edge p s = .next t ∧ coreView t = coreView s ∧ t.idx = s.idx ∧ t.stride = s.stride))

/-- R109 to R111: each ready or valid signal is high only where its event is enabled, `start_ready` excludes the others,
and while `out_valid` is high the output ports show the head of the queue. -/
def Obligations.ReadySignalsMeanEnabled : Prop :=
  ∀ s : State,
    (startReady s = true → s.phase = .idle ∨ s.phase = .failed ∨ (s.phase = .drained ∧ s.outq = [])) ∧
    (inReady s = true → s.phase = .seed ∨ s.phase = .matching) ∧
    (outValid s = true → ∃ e q, s.outq = e :: q ∧ (portsOut s).outData = e.byte ∧ (portsOut s).outLast = e.last) ∧
    (Inv s → startReady s = true → inReady s = false ∧ outValid s = false)

/-- R111: once a byte is offered it stays offered, the same byte, until a POP, a FAIL or a RESET. -/
def Obligations.OfferedByteStays : Prop :=
  ∀ (p : PortsIn) (s t : State), Inv s → outValid s = true → edge p s = .next t →
    p.rst = false → p.outReady = false → p.inFail = false → p.outFail = false →
    outValid t = true ∧ (portsOut t).outData = (portsOut s).outData ∧ (portsOut t).outLast = (portsOut s).outLast

/-- R116: a token event and a POP commute, in every state in which POP is enabled. -/
def Obligations.TokenAndPopCommute : Prop :=
  ∀ (i : Instr) (s : State), ((∃ d, i = .byte d) ∨ i = .endInput) → s.outq ≠ [] →
    andThen (exec .pop s) (exec i) = andThen (exec i s) (exec .pop)

/-- R114: the status outputs as functions of the state; but in IDLE, where all are 0, exactly one of `busy`, `done` and
`failed` is 1; an edge without an event leaves them. -/
def Obligations.StatusOutputs : Prop :=
  ∀ s : State,
    ((portsOut s).busy = true ↔ s.phase = .seed ∨ s.phase = .matching ∨ (s.phase = .drained ∧ s.outq ≠ [])) ∧
    ((portsOut s).done = true ↔ s.phase = .drained ∧ s.outq = []) ∧
    ((portsOut s).failed = true ↔ s.phase = .failed) ∧ (portsOut s).failCause = s.failCause ∧
    ((portsOut s).dictFull = true ↔
      (s.phase = .seed ∨ s.phase = .matching ∨ s.phase = .drained) ∧ s.nextCode.toNat > 4094) ∧
    (s.phase = .idle → (portsOut s).busy = false ∧ (portsOut s).done = false ∧ (portsOut s).failed = false) ∧
    (s.phase ≠ .idle → (portsOut s).busy.toNat + (portsOut s).done.toNat + (portsOut s).failed.toNat = 1) ∧
    ∀ p : PortsIn, edgeEvents p s = [] → ∃ t, edge p s = .next t ∧ (portsOut t).busy = (portsOut s).busy ∧
      (portsOut t).done = (portsOut s).done ∧ (portsOut t).failed = (portsOut s).failed ∧
      (portsOut t).failCause = (portsOut s).failCause ∧ (portsOut t).dictFull = (portsOut s).dictFull

/-- R115: a ready or valid signal that may be high is high after finitely many edges, how many being free
(notes/assumptions/9.md); `in_ready` so in every environment that neither resets nor fails the session and whose sink is
ready again and again, whatever tokens it offers, and until then only bytes have gone from the queue to the sink. -/
def Obligations.ReadySignalsEventuallyHigh : Prop :=
  ∀ s : State,
    (startEnabled s = true → ∃ n t, edges idleEdge n s = .next t ∧ startReady t = true ∧ coreView t = coreView s) ∧
    (s.outq ≠ [] → ∃ n t, edges idleEdge n s = .next t ∧ outValid t = true ∧ coreView t = coreView s) ∧
    (s.phase = .seed ∨ s.phase = .matching → s.outq = [] →
      ∃ n t, edges idleEdge n s = .next t ∧ inReady t = true ∧ coreView t = coreView s) ∧
    (s.phase = .seed ∨ s.phase = .matching → ∀ p : Nat → PortsIn,
      (∀ k, (p k).rst = false ∧ (p k).inFail = false ∧ (p k).outFail = false) →
      (∀ k, ∃ j, k ≤ j ∧ (p j).outReady = true) →
      ∃ n t taken, edgesOf p n s = .next t ∧ inReady t = true ∧ s.outq = taken ++ t.outq ∧
        coreView t = { coreView s with outq := t.outq, sunk := s.sunk ++ taken.map OutEntry.byte })

/-! The whole machine. -/

/-- The state right after reset meets the invariant. -/
def Obligations.ResetMeetsInvariant : Prop := Inv State.reset

/-- R25: every step keeps the invariant: the session invariants, the canonical form of the table, the marks of the
queue, the range of `cur`. -/
def Obligations.StepKeepsInvariant : Prop := ∀ s t : State, Inv s → step s = .next t → Inv t

/-- Every step, an internal operation of a trace included, keeps the canonical form of the table, which is the model's
(notes/assumptions/5.md). -/
def Obligations.StepKeepsTableCanonical : Prop := ∀ s t : State, s.table.wf → step s = .next t → t.table.wf

/-- R105: under the invariant every event that the transition table enables completes, to the phase it names: no LOOKUP
hangs, no register is read that holds no value, no byte is refused. -/
def Obligations.EnabledEventsComplete : Prop :=
  ∀ (i : Instr) (s : State) (q : Phase), i.isEvent = true → Inv s → phaseAfter i s = some q →
    ∃ t, exec i s = .next t ∧ t.phase = q

/-- Under the invariant a clock edge always completes, whatever the environment drives (R108, R105). -/
def Obligations.EdgeAlwaysCompletes : Prop := ∀ (p : PortsIn) (s : State), Inv s → ∃ t, edge p s = .next t

/-- R71 and R25 item 10: within a session a populated slot stays populated with the same record and the counter never
decreases. BYTE d in MATCHING writes no slot but the one that LOOKUP(cur, d) returns, and none at all on a hit or with the
counter at `MAX_VALUE`; BYTE in SEED, END and POP leave the whole table and the counter. -/
def Obligations.SlotsAreNeverEmptied : Prop :=
  (∀ (i : Instr) (s t : State), (midSession i = true ∨ i = .endInput) → exec i s = .next t →
    (∀ k e, memRead s.table k = some e → memRead t.table k = some e) ∧ s.nextCode.toNat ≤ t.nextCode.toNat ∧
      (i = .endInput ∨ i = .pop ∨ s.phase = .seed → t.table = s.table ∧ t.nextCode = s.nextCode)) ∧
  ∀ (d : Byte) (c : Code) (s t : State), s.phase = .matching → s.cur = some c → exec (.byte d) s = .next t →
    ∃ i, lookupSlot s.table c d = some i ∧
      (∀ k, k ≠ i.toNat → memRead t.table k = memRead s.table k) ∧
      (memRead s.table i.toNat ≠ none ∨ s.nextCode = 0xFFF#12 → t.table = s.table ∧ t.nextCode = s.nextCode)

/-- R69: in a session the table is a finite map: LOOKUP of a key hits exactly when some slot holds the key, and then it
returns that very slot. -/
def Obligations.DictionaryIsFiniteMap : Prop :=
  ∀ (p : Code) (b : Byte) (s : State), Inv s → hasSession s →
    (∀ k e, memRead s.table k = some e → e.prefixCode = some p → e.appendedByte = b →
      ∃ i : SlotIx, lookupSlot s.table p b = some i ∧ i.toNat = k) ∧
    ((∀ k e, memRead s.table k = some e → ¬ (e.prefixCode = some p ∧ e.appendedByte = b)) →
      ∃ i : SlotIx, lookupSlot s.table p b = some i ∧ memRead s.table i.toNat = none)

/-- R57, R58, R102: SESSION from any state in which START is enabled completes: the core is done and the sink has
accepted exactly COMPRESS of the input, for every input. -/
def Obligations.SessionComputesCompress : Prop :=
  ∀ (bs : List Byte) (s : State), startEnabled s = true →
    ∃ t, runLine (.session bs) s = .next t ∧ done t = true ∧ compress hw bs = .ok t.sunk ∧ t.failCause = 0#2

/-- R102: POPs interleaved with the tokens do not change the result: after END the sink has accepted a first part of
COMPRESS of the bytes and the queue holds the rest, its tail marked and nothing else; POPALL then completes the session. -/
def Obligations.InterleavedPopsDoNotMatter : Prop :=
  ∀ (es : List Instr) (s t : State), startEnabled s = true → (∀ i ∈ es, midSession i = true) →
    runEvents (.start :: (es ++ [.endInput])) s = .next t →
    compress hw (bytesOf es) = .ok (t.sunk ++ t.outq.map OutEntry.byte) ∧ t.outq ≠ [] ∧ tailMarked t.outq = true ∧
      ∃ u, runPopAll t = .next u ∧ done u = true ∧ compress hw (bytesOf es) = .ok u.sunk

/-- R92, R103: a session is independent of everything before it: from any two states in which START is enabled the same
events lead to the same state of the core. -/
def Obligations.SessionIgnoresThePast : Prop :=
  ∀ (es : List Instr) (s s' t : State), startEnabled s = true → startEnabled s' = true →
    (∀ i ∈ es, midSession i = true ∨ i = .endInput) → runEvents (.start :: es) s = .next t →
    ∃ t', runEvents (.start :: es) s' = .next t' ∧ coreView t' = coreView t

/-- R125: at a failure the sink has accepted a first part of the stream of every input that extends the bytes consumed
so far: of a FAIL before END, and of a FAIL after END and any number of POPs while bytes are still queued, which are then
never delivered. With all of them delivered the session is done and the FAIL is ignored. -/
def Obligations.FailedSessionDeliveredAPrefix : Prop :=
  (∀ (es : List Instr) (m : FailMask) (more : List Byte) (s t : State), startEnabled s = true →
    (∀ i ∈ es, midSession i = true) → runEvents (.start :: (es ++ [.fail m])) s = .next t →
    failed t = true ∧ t.failCause = m.bits ∧ ∃ z, compress hw (bytesOf es ++ more) = .ok z ∧ t.sunk <+: z) ∧
  ∀ (es : List Instr) (n : Nat) (m : FailMask) (s u : State), startEnabled s = true →
    (∀ i ∈ es, midSession i = true) →
    runEvents (.start :: (es ++ .endInput :: List.replicate n .pop)) s = .next u →
    (u.outq ≠ [] → ∃ t z, exec (.fail m) u = .next t ∧ failed t = true ∧ t.failCause = m.bits ∧ t.outq = [] ∧
      t.sunk = u.sunk ∧ compress hw (bytesOf es) = .ok z ∧ t.sunk <+: z ∧ t.sunk ≠ z) ∧
    (u.outq = [] → exec (.fail m) u = .next u ∧ done u = true ∧ compress hw (bytesOf es) = .ok u.sunk)

/-! What a session computes. -/

/-- R104: COMPRESS of any input unpacks to codes below the sentinel, then the sentinel, and after it there are fewer than
8 bits, all zero; for a non-empty input the first code is the first byte. -/
def Obligations.CompressIsFramed : Prop :=
  ∀ bs : List Byte, ∃ (z : List Byte) (cs : List Nat), compress hw bs = .ok z ∧ (∀ c ∈ cs, c < 4095) ∧
    unpack BITS (cs.length + 1) z = cs ++ [4095] ∧
    12 * (cs.length + 1) ≤ 8 * z.length ∧ 8 * z.length < 12 * (cs.length + 1) + 8 ∧
    (∀ k, 12 * (cs.length + 1) ≤ k → byteStreamBit z k = false) ∧
    (∀ b rest, bs = b :: rest → cs.head? = some b.toNat) ∧ (bs = [] → cs = [])

/-- R101, R105: every code of CODES is in `[0, MAX_CODE]`, and there are no more codes than bytes. -/
def Obligations.CodesAreBounded : Prop :=
  ∀ bs : List Byte, ∃ r, codesOf hw (bs.map BitVec.toNat) = .ok r ∧ (∀ c ∈ r.codes, c ≤ 4094) ∧
    r.codes.length ≤ bs.length

/-- R106: under R4's premises the concatenation of what the codes stand for is the input; a parameter set that breaks R4
and a byte that has no root are refused. -/
def Obligations.CodesStandForTheInput : Prop :=
  ∀ (P : Params) (bs : List Nat),
    (P.Legal → (∀ b ∈ bs, b < P.roots) → ∃ r, codesOf P bs = .ok r ∧ expandCodes P.roots r = bs) ∧
    (¬ P.Legal → ∃ e, codesOf P bs = .error (.illegalParameters e)) ∧
    (P.Legal → (∃ b ∈ bs, P.roots ≤ b) → codesOf P bs = .error .byteOutsideRoots) ∧
    ∀ (ds : List Byte) (e : ConfigRefusal), codesOf P (ds.map BitVec.toNat) = .error e → compress P ds = .error e

/-- R106: for an input of one repeated byte the codes are the byte, 0x100, 0x101, ..., which stand for runs of length
1, 2, 3, ...; here for an input that ends with a whole run. -/
def Obligations.RepeatedByteCodesGrow : Prop :=
  ∀ (v : Byte) (k : Nat), 1 ≤ k → k ≤ 3840 → ∃ r,
    codesOf hw (List.replicate (k * (k + 1) / 2) v.toNat) = .ok r ∧
    r.codes = v.toNat :: (List.range (k - 1)).map (fun j => 256 + j) ∧
    codeString ROOTS r.dict (v.toNat + 1) v.toNat = [v.toNat] ∧
    ∀ j, j + 1 < k → codeString ROOTS r.dict (257 + j) (256 + j) = List.replicate (j + 2) v.toNat
end

