-- ==== Sys2Proof/Laws/Compress.lean ====
section
/-! SUPPORT. R4's premises on the reference functions: when they refuse, and that on this hardware they never do. -/

namespace Sys2Proof.Machine

open Sys2Proof Sys2Proof.Config

/-- This hardware's parameter set passes R4's check (5021 by trial division). -/
theorem check_hw : hw.check = none := by decide +kernel

/-- Nothing is refused exactly under R4's premises. -/
theorem inputRefusal_eq_none (P : Params) (bs : List Nat) :
    inputRefusal P bs = none ↔ P.Legal ∧ ∀ b ∈ bs, b < P.roots := by
  unfold inputRefusal
  cases h : P.check with
  | some e => simp [Params.Legal, h]
  | none =>
    rw [show P.Legal ↔ True from iff_true_intro h, true_and]
    simp

/-- An illegal set is refused by the name of the first broken item, whatever the input. -/
theorem inputRefusal_illegal (P : Params) (bs : List Nat) (e : ParamError) (h : P.check = some e) :
    inputRefusal P bs = some (.illegalParameters e) := by
  unfold inputRefusal; rw [h]

/-- CODES under R4's premises. -/
theorem codesOf_ok (P : Params) (bs : List Nat) (hP : P.Legal) (hb : ∀ b ∈ bs, b < P.roots) :
    codesOf P bs = .ok (codesBetween P.firstCode P.maxCode bs) := by
  unfold codesOf; rw [(inputRefusal_eq_none P bs).2 ⟨hP, hb⟩]

/-- On this hardware every list of bytes has its codes. -/
@[simp] theorem codesOf_hw (bs : List Byte) :
    codesOf hw (bs.map BitVec.toNat) = .ok (codesBetween 256 4094 (bs.map BitVec.toNat)) := by
  refine codesOf_ok hw _ check_hw fun b hb => ?_
  obtain ⟨x, -, rfl⟩ := List.mem_map.1 hb
  exact x.isLt

/-- And its stream. -/
@[simp] theorem compress_hw (bs : List Byte) :
    compress hw bs = .ok (pack BITS ((codesBetween 256 4094 (bs.map BitVec.toNat)).codes ++ [4095])) := by
  unfold compress; rw [codesOf_hw]; rfl

end Sys2Proof.Machine
end

