-- ==== Sys2Proof/Laws/State.lean ====
section
/-! SUPPORT. What each named operation does to each field of the state: one lemma per field and operation, so that no
later proof unfolds a record update. -/

namespace Sys2Proof.Machine

open Sys2Proof Sys2Proof.Config

/-! The constants as numbers, for `omega`. -/

theorem BITS_eq : BITS = 12 := rfl
theorem TABLE_SIZE_eq : TABLE_SIZE = 5021 := rfl
theorem ROOTS_eq : ROOTS = 256 := rfl
theorem HASH_SHIFT_eq : HASH_SHIFT = 4 := rfl
theorem FIRST_CODE_eq : FIRST_CODE.toNat = 256 := rfl
theorem MAX_CODE_eq : MAX_CODE.toNat = 4094 := rfl
theorem MAX_VALUE_eq : MAX_VALUE.toNat = 4095 := rfl

/-! setProbe -/

@[simp] theorem setProbe_phase (i d : SlotIx) (s : State) :
    (setProbe i d s).phase = s.phase := rfl

@[simp] theorem setProbe_cur (i d : SlotIx) (s : State) :
    (setProbe i d s).cur = s.cur := rfl

@[simp] theorem setProbe_nextCode (i d : SlotIx) (s : State) :
    (setProbe i d s).nextCode = s.nextCode := rfl

@[simp] theorem setProbe_bitBuffer (i d : SlotIx) (s : State) :
    (setProbe i d s).bitBuffer = s.bitBuffer := rfl

@[simp] theorem setProbe_pendingBits (i d : SlotIx) (s : State) :
    (setProbe i d s).pendingBits = s.pendingBits := rfl

@[simp] theorem setProbe_table (i d : SlotIx) (s : State) :
    (setProbe i d s).table = s.table := rfl

@[simp] theorem setProbe_idx (i d : SlotIx) (s : State) :
    (setProbe i d s).idx = i := rfl

@[simp] theorem setProbe_stride (i d : SlotIx) (s : State) :
    (setProbe i d s).stride = d := rfl

@[simp] theorem setProbe_outq (i d : SlotIx) (s : State) :
    (setProbe i d s).outq = s.outq := rfl

@[simp] theorem setProbe_failCause (i d : SlotIx) (s : State) :
    (setProbe i d s).failCause = s.failCause := rfl

@[simp] theorem setProbe_sunk (i d : SlotIx) (s : State) :
    (setProbe i d s).sunk = s.sunk := rfl

@[simp] theorem setProbe_ret (i d : SlotIx) (s : State) :
    (setProbe i d s).ret = s.ret := rfl

@[simp] theorem setProbe_freeIx (i d : SlotIx) (s : State) :
    (setProbe i d s).freeIx = s.freeIx := rfl

@[simp] theorem setProbe_inputs (i d : SlotIx) (s : State) :
    (setProbe i d s).inputs = s.inputs := rfl

@[simp] theorem setProbe_line (i d : SlotIx) (s : State) :
    (setProbe i d s).line = s.line := rfl

@[simp] theorem setProbe_startStall (i d : SlotIx) (s : State) :
    (setProbe i d s).startStall = s.startStall := rfl

@[simp] theorem setProbe_inStall (i d : SlotIx) (s : State) :
    (setProbe i d s).inStall = s.inStall := rfl
@[simp] theorem setProbe_inGate (i d : SlotIx) (s : State) :
    (setProbe i d s).inGate = s.inGate := rfl

@[simp] theorem setProbe_outStall (i d : SlotIx) (s : State) :
    (setProbe i d s).outStall = s.outStall := rfl

/-! insert -/

@[simp] theorem insert_phase (i : SlotIx) (a p : Code) (b : Byte) (s : State) :
    (insert i a p b s).phase = s.phase := rfl

@[simp] theorem insert_cur (i : SlotIx) (a p : Code) (b : Byte) (s : State) :
    (insert i a p b s).cur = s.cur := rfl

@[simp] theorem insert_nextCode (i : SlotIx) (a p : Code) (b : Byte) (s : State) :
    (insert i a p b s).nextCode = s.nextCode := rfl

@[simp] theorem insert_bitBuffer (i : SlotIx) (a p : Code) (b : Byte) (s : State) :
    (insert i a p b s).bitBuffer = s.bitBuffer := rfl

@[simp] theorem insert_pendingBits (i : SlotIx) (a p : Code) (b : Byte) (s : State) :
    (insert i a p b s).pendingBits = s.pendingBits := rfl

@[simp] theorem insert_table (i : SlotIx) (a p : Code) (b : Byte) (s : State) :
    (insert i a p b s).table = memWrite s.table i.toNat (some { assignedCode := a, prefixCode := some p, appendedByte := b }) := rfl

@[simp] theorem insert_idx (i : SlotIx) (a p : Code) (b : Byte) (s : State) :
    (insert i a p b s).idx = s.idx := rfl

@[simp] theorem insert_stride (i : SlotIx) (a p : Code) (b : Byte) (s : State) :
    (insert i a p b s).stride = s.stride := rfl

@[simp] theorem insert_outq (i : SlotIx) (a p : Code) (b : Byte) (s : State) :
    (insert i a p b s).outq = s.outq := rfl

@[simp] theorem insert_failCause (i : SlotIx) (a p : Code) (b : Byte) (s : State) :
    (insert i a p b s).failCause = s.failCause := rfl

@[simp] theorem insert_sunk (i : SlotIx) (a p : Code) (b : Byte) (s : State) :
    (insert i a p b s).sunk = s.sunk := rfl

@[simp] theorem insert_ret (i : SlotIx) (a p : Code) (b : Byte) (s : State) :
    (insert i a p b s).ret = s.ret := rfl

@[simp] theorem insert_freeIx (i : SlotIx) (a p : Code) (b : Byte) (s : State) :
    (insert i a p b s).freeIx = s.freeIx := rfl

@[simp] theorem insert_inputs (i : SlotIx) (a p : Code) (b : Byte) (s : State) :
    (insert i a p b s).inputs = s.inputs := rfl

@[simp] theorem insert_line (i : SlotIx) (a p : Code) (b : Byte) (s : State) :
    (insert i a p b s).line = s.line := rfl

@[simp] theorem insert_startStall (i : SlotIx) (a p : Code) (b : Byte) (s : State) :
    (insert i a p b s).startStall = s.startStall := rfl

@[simp] theorem insert_inStall (i : SlotIx) (a p : Code) (b : Byte) (s : State) :
    (insert i a p b s).inStall = s.inStall := rfl
@[simp] theorem insert_inGate (i : SlotIx) (a p : Code) (b : Byte) (s : State) :
    (insert i a p b s).inGate = s.inGate := rfl

@[simp] theorem insert_outStall (i : SlotIx) (a p : Code) (b : Byte) (s : State) :
    (insert i a p b s).outStall = s.outStall := rfl

/-! tinit -/

@[simp] theorem tinit_phase (s : State) :
    (tinit s).phase = s.phase := rfl

@[simp] theorem tinit_cur (s : State) :
    (tinit s).cur = s.cur := rfl

@[simp] theorem tinit_nextCode (s : State) :
    (tinit s).nextCode = s.nextCode := rfl

@[simp] theorem tinit_bitBuffer (s : State) :
    (tinit s).bitBuffer = s.bitBuffer := rfl

@[simp] theorem tinit_pendingBits (s : State) :
    (tinit s).pendingBits = s.pendingBits := rfl

@[simp] theorem tinit_table (s : State) :
    (tinit s).table = initialTable := rfl

@[simp] theorem tinit_idx (s : State) :
    (tinit s).idx = s.idx := rfl

@[simp] theorem tinit_stride (s : State) :
    (tinit s).stride = s.stride := rfl

@[simp] theorem tinit_outq (s : State) :
    (tinit s).outq = s.outq := rfl

@[simp] theorem tinit_failCause (s : State) :
    (tinit s).failCause = s.failCause := rfl

@[simp] theorem tinit_sunk (s : State) :
    (tinit s).sunk = s.sunk := rfl

@[simp] theorem tinit_ret (s : State) :
    (tinit s).ret = s.ret := rfl

@[simp] theorem tinit_freeIx (s : State) :
    (tinit s).freeIx = s.freeIx := rfl

@[simp] theorem tinit_inputs (s : State) :
    (tinit s).inputs = s.inputs := rfl

@[simp] theorem tinit_line (s : State) :
    (tinit s).line = s.line := rfl

@[simp] theorem tinit_startStall (s : State) :
    (tinit s).startStall = s.startStall := rfl

@[simp] theorem tinit_inStall (s : State) :
    (tinit s).inStall = s.inStall := rfl
@[simp] theorem tinit_inGate (s : State) :
    (tinit s).inGate = s.inGate := rfl

@[simp] theorem tinit_outStall (s : State) :
    (tinit s).outStall = s.outStall := rfl

/-! sinit -/

@[simp] theorem sinit_phase (s : State) :
    (sinit s).phase = s.phase := rfl

@[simp] theorem sinit_cur (s : State) :
    (sinit s).cur = s.cur := rfl

@[simp] theorem sinit_nextCode (s : State) :
    (sinit s).nextCode = FIRST_CODE := rfl

@[simp] theorem sinit_bitBuffer (s : State) :
    (sinit s).bitBuffer = s.bitBuffer := rfl

@[simp] theorem sinit_pendingBits (s : State) :
    (sinit s).pendingBits = s.pendingBits := rfl

@[simp] theorem sinit_table (s : State) :
    (sinit s).table = s.table := rfl

@[simp] theorem sinit_idx (s : State) :
    (sinit s).idx = s.idx := rfl

@[simp] theorem sinit_stride (s : State) :
    (sinit s).stride = s.stride := rfl

@[simp] theorem sinit_outq (s : State) :
    (sinit s).outq = s.outq := rfl

@[simp] theorem sinit_failCause (s : State) :
    (sinit s).failCause = s.failCause := rfl

@[simp] theorem sinit_sunk (s : State) :
    (sinit s).sunk = s.sunk := rfl

@[simp] theorem sinit_ret (s : State) :
    (sinit s).ret = s.ret := rfl

@[simp] theorem sinit_freeIx (s : State) :
    (sinit s).freeIx = s.freeIx := rfl

@[simp] theorem sinit_inputs (s : State) :
    (sinit s).inputs = s.inputs := rfl

@[simp] theorem sinit_line (s : State) :
    (sinit s).line = s.line := rfl

@[simp] theorem sinit_startStall (s : State) :
    (sinit s).startStall = s.startStall := rfl

@[simp] theorem sinit_inStall (s : State) :
    (sinit s).inStall = s.inStall := rfl
@[simp] theorem sinit_inGate (s : State) :
    (sinit s).inGate = s.inGate := rfl

@[simp] theorem sinit_outStall (s : State) :
    (sinit s).outStall = s.outStall := rfl

/-! allocStep -/

@[simp] theorem allocStep_phase (s : State) :
    (allocStep s).phase = s.phase := by unfold allocStep; split <;> rfl

@[simp] theorem allocStep_cur (s : State) :
    (allocStep s).cur = s.cur := by unfold allocStep; split <;> rfl

@[simp] theorem allocStep_nextCode (s : State) :
    (allocStep s).nextCode = if s.nextCode.toNat ≤ MAX_CODE.toNat then s.nextCode + 1#12 else s.nextCode := by unfold allocStep; split <;> rfl

@[simp] theorem allocStep_bitBuffer (s : State) :
    (allocStep s).bitBuffer = s.bitBuffer := by unfold allocStep; split <;> rfl

@[simp] theorem allocStep_pendingBits (s : State) :
    (allocStep s).pendingBits = s.pendingBits := by unfold allocStep; split <;> rfl

@[simp] theorem allocStep_table (s : State) :
    (allocStep s).table = s.table := by unfold allocStep; split <;> rfl

@[simp] theorem allocStep_idx (s : State) :
    (allocStep s).idx = s.idx := by unfold allocStep; split <;> rfl

@[simp] theorem allocStep_stride (s : State) :
    (allocStep s).stride = s.stride := by unfold allocStep; split <;> rfl

@[simp] theorem allocStep_outq (s : State) :
    (allocStep s).outq = s.outq := by unfold allocStep; split <;> rfl

@[simp] theorem allocStep_failCause (s : State) :
    (allocStep s).failCause = s.failCause := by unfold allocStep; split <;> rfl

@[simp] theorem allocStep_sunk (s : State) :
    (allocStep s).sunk = s.sunk := by unfold allocStep; split <;> rfl

@[simp] theorem allocStep_ret (s : State) :
    (allocStep s).ret = s.ret := by unfold allocStep; split <;> rfl

@[simp] theorem allocStep_freeIx (s : State) :
    (allocStep s).freeIx = s.freeIx := by unfold allocStep; split <;> rfl

@[simp] theorem allocStep_inputs (s : State) :
    (allocStep s).inputs = s.inputs := by unfold allocStep; split <;> rfl

@[simp] theorem allocStep_line (s : State) :
    (allocStep s).line = s.line := by unfold allocStep; split <;> rfl

@[simp] theorem allocStep_startStall (s : State) :
    (allocStep s).startStall = s.startStall := by unfold allocStep; split <;> rfl

@[simp] theorem allocStep_inStall (s : State) :
    (allocStep s).inStall = s.inStall := by unfold allocStep; split <;> rfl
@[simp] theorem allocStep_inGate (s : State) :
    (allocStep s).inGate = s.inGate := by unfold allocStep; split <;> rfl

@[simp] theorem allocStep_outStall (s : State) :
    (allocStep s).outStall = s.outStall := by unfold allocStep; split <;> rfl

/-! pushBytes -/

@[simp] theorem pushBytes_phase (bs : List Byte) (s : State) :
    (pushBytes bs s).phase = s.phase := rfl

@[simp] theorem pushBytes_cur (bs : List Byte) (s : State) :
    (pushBytes bs s).cur = s.cur := rfl

@[simp] theorem pushBytes_nextCode (bs : List Byte) (s : State) :
    (pushBytes bs s).nextCode = s.nextCode := rfl

@[simp] theorem pushBytes_bitBuffer (bs : List Byte) (s : State) :
    (pushBytes bs s).bitBuffer = s.bitBuffer := rfl

@[simp] theorem pushBytes_pendingBits (bs : List Byte) (s : State) :
    (pushBytes bs s).pendingBits = s.pendingBits := rfl

@[simp] theorem pushBytes_table (bs : List Byte) (s : State) :
    (pushBytes bs s).table = s.table := rfl

@[simp] theorem pushBytes_idx (bs : List Byte) (s : State) :
    (pushBytes bs s).idx = s.idx := rfl

@[simp] theorem pushBytes_stride (bs : List Byte) (s : State) :
    (pushBytes bs s).stride = s.stride := rfl

@[simp] theorem pushBytes_outq (bs : List Byte) (s : State) :
    (pushBytes bs s).outq = s.outq ++ bs.map (OutEntry.mk false) := rfl

@[simp] theorem pushBytes_failCause (bs : List Byte) (s : State) :
    (pushBytes bs s).failCause = s.failCause := rfl

@[simp] theorem pushBytes_sunk (bs : List Byte) (s : State) :
    (pushBytes bs s).sunk = s.sunk := rfl

@[simp] theorem pushBytes_ret (bs : List Byte) (s : State) :
    (pushBytes bs s).ret = s.ret := rfl

@[simp] theorem pushBytes_freeIx (bs : List Byte) (s : State) :
    (pushBytes bs s).freeIx = s.freeIx := rfl

@[simp] theorem pushBytes_inputs (bs : List Byte) (s : State) :
    (pushBytes bs s).inputs = s.inputs := rfl

@[simp] theorem pushBytes_line (bs : List Byte) (s : State) :
    (pushBytes bs s).line = s.line := rfl

@[simp] theorem pushBytes_startStall (bs : List Byte) (s : State) :
    (pushBytes bs s).startStall = s.startStall := rfl

@[simp] theorem pushBytes_inStall (bs : List Byte) (s : State) :
    (pushBytes bs s).inStall = s.inStall := rfl
@[simp] theorem pushBytes_inGate (bs : List Byte) (s : State) :
    (pushBytes bs s).inGate = s.inGate := rfl

@[simp] theorem pushBytes_outStall (bs : List Byte) (s : State) :
    (pushBytes bs s).outStall = s.outStall := rfl

/-! setAccumulator -/

@[simp] theorem setAccumulator_phase (buf : BitBuf) (n : BitCount) (s : State) :
    (setAccumulator buf n s).phase = s.phase := rfl

@[simp] theorem setAccumulator_cur (buf : BitBuf) (n : BitCount) (s : State) :
    (setAccumulator buf n s).cur = s.cur := rfl

@[simp] theorem setAccumulator_nextCode (buf : BitBuf) (n : BitCount) (s : State) :
    (setAccumulator buf n s).nextCode = s.nextCode := rfl

@[simp] theorem setAccumulator_bitBuffer (buf : BitBuf) (n : BitCount) (s : State) :
    (setAccumulator buf n s).bitBuffer = buf := rfl

@[simp] theorem setAccumulator_pendingBits (buf : BitBuf) (n : BitCount) (s : State) :
    (setAccumulator buf n s).pendingBits = n := rfl

@[simp] theorem setAccumulator_table (buf : BitBuf) (n : BitCount) (s : State) :
    (setAccumulator buf n s).table = s.table := rfl

@[simp] theorem setAccumulator_idx (buf : BitBuf) (n : BitCount) (s : State) :
    (setAccumulator buf n s).idx = s.idx := rfl

@[simp] theorem setAccumulator_stride (buf : BitBuf) (n : BitCount) (s : State) :
    (setAccumulator buf n s).stride = s.stride := rfl

@[simp] theorem setAccumulator_outq (buf : BitBuf) (n : BitCount) (s : State) :
    (setAccumulator buf n s).outq = s.outq := rfl

@[simp] theorem setAccumulator_failCause (buf : BitBuf) (n : BitCount) (s : State) :
    (setAccumulator buf n s).failCause = s.failCause := rfl

@[simp] theorem setAccumulator_sunk (buf : BitBuf) (n : BitCount) (s : State) :
    (setAccumulator buf n s).sunk = s.sunk := rfl

@[simp] theorem setAccumulator_ret (buf : BitBuf) (n : BitCount) (s : State) :
    (setAccumulator buf n s).ret = s.ret := rfl

@[simp] theorem setAccumulator_freeIx (buf : BitBuf) (n : BitCount) (s : State) :
    (setAccumulator buf n s).freeIx = s.freeIx := rfl

@[simp] theorem setAccumulator_inputs (buf : BitBuf) (n : BitCount) (s : State) :
    (setAccumulator buf n s).inputs = s.inputs := rfl

@[simp] theorem setAccumulator_line (buf : BitBuf) (n : BitCount) (s : State) :
    (setAccumulator buf n s).line = s.line := rfl

@[simp] theorem setAccumulator_startStall (buf : BitBuf) (n : BitCount) (s : State) :
    (setAccumulator buf n s).startStall = s.startStall := rfl

@[simp] theorem setAccumulator_inStall (buf : BitBuf) (n : BitCount) (s : State) :
    (setAccumulator buf n s).inStall = s.inStall := rfl
@[simp] theorem setAccumulator_inGate (buf : BitBuf) (n : BitCount) (s : State) :
    (setAccumulator buf n s).inGate = s.inGate := rfl

@[simp] theorem setAccumulator_outStall (buf : BitBuf) (n : BitCount) (s : State) :
    (setAccumulator buf n s).outStall = s.outStall := rfl

/-! pinit -/

@[simp] theorem pinit_phase (s : State) :
    (pinit s).phase = s.phase := rfl

@[simp] theorem pinit_cur (s : State) :
    (pinit s).cur = s.cur := rfl

@[simp] theorem pinit_nextCode (s : State) :
    (pinit s).nextCode = s.nextCode := rfl

@[simp] theorem pinit_bitBuffer (s : State) :
    (pinit s).bitBuffer = 0#19 := rfl

@[simp] theorem pinit_pendingBits (s : State) :
    (pinit s).pendingBits = 0#5 := rfl

@[simp] theorem pinit_table (s : State) :
    (pinit s).table = s.table := rfl

@[simp] theorem pinit_idx (s : State) :
    (pinit s).idx = s.idx := rfl

@[simp] theorem pinit_stride (s : State) :
    (pinit s).stride = s.stride := rfl

@[simp] theorem pinit_outq (s : State) :
    (pinit s).outq = s.outq := rfl

@[simp] theorem pinit_failCause (s : State) :
    (pinit s).failCause = s.failCause := rfl

@[simp] theorem pinit_sunk (s : State) :
    (pinit s).sunk = s.sunk := rfl

@[simp] theorem pinit_ret (s : State) :
    (pinit s).ret = s.ret := rfl

@[simp] theorem pinit_freeIx (s : State) :
    (pinit s).freeIx = s.freeIx := rfl

@[simp] theorem pinit_inputs (s : State) :
    (pinit s).inputs = s.inputs := rfl

@[simp] theorem pinit_line (s : State) :
    (pinit s).line = s.line := rfl

@[simp] theorem pinit_startStall (s : State) :
    (pinit s).startStall = s.startStall := rfl

@[simp] theorem pinit_inStall (s : State) :
    (pinit s).inStall = s.inStall := rfl
@[simp] theorem pinit_inGate (s : State) :
    (pinit s).inGate = s.inGate := rfl

@[simp] theorem pinit_outStall (s : State) :
    (pinit s).outStall = s.outStall := rfl

/-! emit -/

@[simp] theorem emit_phase (c : Code) (s : State) :
    (emit c s).phase = s.phase := rfl

@[simp] theorem emit_cur (c : Code) (s : State) :
    (emit c s).cur = s.cur := rfl

@[simp] theorem emit_nextCode (c : Code) (s : State) :
    (emit c s).nextCode = s.nextCode := rfl

@[simp] theorem emit_bitBuffer (c : Code) (s : State) :
    (emit c s).bitBuffer = BitVec.ofNat 19 (emitDrain s.bitBuffer s.pendingBits c).buf := rfl

@[simp] theorem emit_pendingBits (c : Code) (s : State) :
    (emit c s).pendingBits = BitVec.ofNat 5 (emitDrain s.bitBuffer s.pendingBits c).pending := rfl

@[simp] theorem emit_table (c : Code) (s : State) :
    (emit c s).table = s.table := rfl

@[simp] theorem emit_idx (c : Code) (s : State) :
    (emit c s).idx = s.idx := rfl

@[simp] theorem emit_stride (c : Code) (s : State) :
    (emit c s).stride = s.stride := rfl

@[simp] theorem emit_outq (c : Code) (s : State) :
    (emit c s).outq = s.outq ++ (emitDrain s.bitBuffer s.pendingBits c).bytes.map (OutEntry.mk false) := rfl

@[simp] theorem emit_failCause (c : Code) (s : State) :
    (emit c s).failCause = s.failCause := rfl

@[simp] theorem emit_sunk (c : Code) (s : State) :
    (emit c s).sunk = s.sunk := rfl

@[simp] theorem emit_ret (c : Code) (s : State) :
    (emit c s).ret = s.ret := rfl

@[simp] theorem emit_freeIx (c : Code) (s : State) :
    (emit c s).freeIx = s.freeIx := rfl

@[simp] theorem emit_inputs (c : Code) (s : State) :
    (emit c s).inputs = s.inputs := rfl

@[simp] theorem emit_line (c : Code) (s : State) :
    (emit c s).line = s.line := rfl

@[simp] theorem emit_startStall (c : Code) (s : State) :
    (emit c s).startStall = s.startStall := rfl

@[simp] theorem emit_inStall (c : Code) (s : State) :
    (emit c s).inStall = s.inStall := rfl
@[simp] theorem emit_inGate (c : Code) (s : State) :
    (emit c s).inGate = s.inGate := rfl

@[simp] theorem emit_outStall (c : Code) (s : State) :
    (emit c s).outStall = s.outStall := rfl

/-! flush -/

@[simp] theorem flush_phase (s : State) :
    (flush s).phase = s.phase := by unfold flush; split <;> rfl

@[simp] theorem flush_cur (s : State) :
    (flush s).cur = s.cur := by unfold flush; split <;> rfl

@[simp] theorem flush_nextCode (s : State) :
    (flush s).nextCode = s.nextCode := by unfold flush; split <;> rfl

@[simp] theorem flush_bitBuffer (s : State) :
    (flush s).bitBuffer = 0#19 := by unfold flush; split <;> rfl

@[simp] theorem flush_pendingBits (s : State) :
    (flush s).pendingBits = 0#5 := by unfold flush; split <;> rfl

@[simp] theorem flush_table (s : State) :
    (flush s).table = s.table := by unfold flush; split <;> rfl

@[simp] theorem flush_idx (s : State) :
    (flush s).idx = s.idx := by unfold flush; split <;> rfl

@[simp] theorem flush_stride (s : State) :
    (flush s).stride = s.stride := by unfold flush; split <;> rfl

@[simp] theorem flush_outq (s : State) :
    (flush s).outq = if s.pendingBits = 0#5 then s.outq else s.outq ++ [OutEntry.mk false (flushByte s.bitBuffer s.pendingBits)] := by unfold flush; split <;> simp_all [pushBytes, setAccumulator]

@[simp] theorem flush_failCause (s : State) :
    (flush s).failCause = s.failCause := by unfold flush; split <;> rfl

@[simp] theorem flush_sunk (s : State) :
    (flush s).sunk = s.sunk := by unfold flush; split <;> rfl

@[simp] theorem flush_ret (s : State) :
    (flush s).ret = s.ret := by unfold flush; split <;> rfl

@[simp] theorem flush_freeIx (s : State) :
    (flush s).freeIx = s.freeIx := by unfold flush; split <;> rfl

@[simp] theorem flush_inputs (s : State) :
    (flush s).inputs = s.inputs := by unfold flush; split <;> rfl

@[simp] theorem flush_line (s : State) :
    (flush s).line = s.line := by unfold flush; split <;> rfl

@[simp] theorem flush_startStall (s : State) :
    (flush s).startStall = s.startStall := by unfold flush; split <;> rfl

@[simp] theorem flush_inStall (s : State) :
    (flush s).inStall = s.inStall := by unfold flush; split <;> rfl
@[simp] theorem flush_inGate (s : State) :
    (flush s).inGate = s.inGate := by unfold flush; split <;> rfl

@[simp] theorem flush_outStall (s : State) :
    (flush s).outStall = s.outStall := by unfold flush; split <;> rfl

/-! finish -/

@[simp] theorem finish_phase (s : State) :
    (finish s).phase = .drained := rfl

@[simp] theorem finish_cur (s : State) :
    (finish s).cur = s.cur := by simp [finish]

@[simp] theorem finish_nextCode (s : State) :
    (finish s).nextCode = s.nextCode := by simp [finish]

@[simp] theorem finish_bitBuffer (s : State) :
    (finish s).bitBuffer = 0#19 := rfl

@[simp] theorem finish_pendingBits (s : State) :
    (finish s).pendingBits = 0#5 := rfl

@[simp] theorem finish_table (s : State) :
    (finish s).table = s.table := by simp [finish]

@[simp] theorem finish_idx (s : State) :
    (finish s).idx = s.idx := by simp [finish]

@[simp] theorem finish_stride (s : State) :
    (finish s).stride = s.stride := by simp [finish]

@[simp] theorem finish_outq (s : State) :
    (finish s).outq = markTail (flush (emit MAX_VALUE s)).outq := rfl

@[simp] theorem finish_failCause (s : State) :
    (finish s).failCause = s.failCause := by simp [finish]

@[simp] theorem finish_sunk (s : State) :
    (finish s).sunk = s.sunk := by simp [finish]

@[simp] theorem finish_ret (s : State) :
    (finish s).ret = s.ret := by simp [finish]

@[simp] theorem finish_freeIx (s : State) :
    (finish s).freeIx = s.freeIx := by simp [finish]

@[simp] theorem finish_inputs (s : State) :
    (finish s).inputs = s.inputs := by simp [finish]

@[simp] theorem finish_line (s : State) :
    (finish s).line = s.line := by simp [finish]

@[simp] theorem finish_startStall (s : State) :
    (finish s).startStall = s.startStall := by simp [finish]

@[simp] theorem finish_inStall (s : State) :
    (finish s).inStall = s.inStall := by simp [finish]
@[simp] theorem finish_inGate (s : State) :
    (finish s).inGate = s.inGate := by simp [finish]

@[simp] theorem finish_outStall (s : State) :
    (finish s).outStall = s.outStall := by simp [finish]

/-! extend -/

@[simp] theorem extend_phase (e : Entry) (s : State) :
    (extend e s).phase = s.phase := rfl

@[simp] theorem extend_cur (e : Entry) (s : State) :
    (extend e s).cur = some e.assignedCode := rfl

@[simp] theorem extend_nextCode (e : Entry) (s : State) :
    (extend e s).nextCode = s.nextCode := rfl

@[simp] theorem extend_bitBuffer (e : Entry) (s : State) :
    (extend e s).bitBuffer = s.bitBuffer := rfl

@[simp] theorem extend_pendingBits (e : Entry) (s : State) :
    (extend e s).pendingBits = s.pendingBits := rfl

@[simp] theorem extend_table (e : Entry) (s : State) :
    (extend e s).table = s.table := rfl

@[simp] theorem extend_idx (e : Entry) (s : State) :
    (extend e s).idx = s.idx := rfl

@[simp] theorem extend_stride (e : Entry) (s : State) :
    (extend e s).stride = s.stride := rfl

@[simp] theorem extend_outq (e : Entry) (s : State) :
    (extend e s).outq = s.outq := rfl

@[simp] theorem extend_failCause (e : Entry) (s : State) :
    (extend e s).failCause = s.failCause := rfl

@[simp] theorem extend_sunk (e : Entry) (s : State) :
    (extend e s).sunk = s.sunk := rfl

@[simp] theorem extend_ret (e : Entry) (s : State) :
    (extend e s).ret = s.ret := rfl

@[simp] theorem extend_freeIx (e : Entry) (s : State) :
    (extend e s).freeIx = s.freeIx := rfl

@[simp] theorem extend_inputs (e : Entry) (s : State) :
    (extend e s).inputs = s.inputs := rfl

@[simp] theorem extend_line (e : Entry) (s : State) :
    (extend e s).line = s.line := rfl

@[simp] theorem extend_startStall (e : Entry) (s : State) :
    (extend e s).startStall = s.startStall := rfl

@[simp] theorem extend_inStall (e : Entry) (s : State) :
    (extend e s).inStall = s.inStall := rfl
@[simp] theorem extend_inGate (e : Entry) (s : State) :
    (extend e s).inGate = s.inGate := rfl

@[simp] theorem extend_outStall (e : Entry) (s : State) :
    (extend e s).outStall = s.outStall := rfl

/-! seedByte -/

@[simp] theorem seedByte_phase (d : Byte) (s : State) :
    (seedByte d s).phase = .matching := rfl

@[simp] theorem seedByte_cur (d : Byte) (s : State) :
    (seedByte d s).cur = some d.toCode := rfl

@[simp] theorem seedByte_nextCode (d : Byte) (s : State) :
    (seedByte d s).nextCode = s.nextCode := rfl

@[simp] theorem seedByte_bitBuffer (d : Byte) (s : State) :
    (seedByte d s).bitBuffer = s.bitBuffer := rfl

@[simp] theorem seedByte_pendingBits (d : Byte) (s : State) :
    (seedByte d s).pendingBits = s.pendingBits := rfl

@[simp] theorem seedByte_table (d : Byte) (s : State) :
    (seedByte d s).table = s.table := rfl

@[simp] theorem seedByte_idx (d : Byte) (s : State) :
    (seedByte d s).idx = s.idx := rfl

@[simp] theorem seedByte_stride (d : Byte) (s : State) :
    (seedByte d s).stride = s.stride := rfl

@[simp] theorem seedByte_outq (d : Byte) (s : State) :
    (seedByte d s).outq = s.outq := rfl

@[simp] theorem seedByte_failCause (d : Byte) (s : State) :
    (seedByte d s).failCause = s.failCause := rfl

@[simp] theorem seedByte_sunk (d : Byte) (s : State) :
    (seedByte d s).sunk = s.sunk := rfl

@[simp] theorem seedByte_ret (d : Byte) (s : State) :
    (seedByte d s).ret = s.ret := rfl

@[simp] theorem seedByte_freeIx (d : Byte) (s : State) :
    (seedByte d s).freeIx = s.freeIx := rfl

@[simp] theorem seedByte_inputs (d : Byte) (s : State) :
    (seedByte d s).inputs = s.inputs := rfl

@[simp] theorem seedByte_line (d : Byte) (s : State) :
    (seedByte d s).line = s.line := rfl

@[simp] theorem seedByte_startStall (d : Byte) (s : State) :
    (seedByte d s).startStall = s.startStall := rfl

@[simp] theorem seedByte_inStall (d : Byte) (s : State) :
    (seedByte d s).inStall = s.inStall := rfl
@[simp] theorem seedByte_inGate (d : Byte) (s : State) :
    (seedByte d s).inGate = s.inGate := rfl

@[simp] theorem seedByte_outStall (d : Byte) (s : State) :
    (seedByte d s).outStall = s.outStall := rfl

/-! miss -/

@[simp] theorem allocCode_emit (c : Code) (s : State) : allocCode (emit c s) = allocCode s := rfl

@[simp] theorem miss_phase (i : SlotIx) (c : Code) (d : Byte) (s : State) :
    (miss i c d s).phase = s.phase := by unfold miss; simp only [allocCode_emit]; cases allocCode s <;> simp

@[simp] theorem miss_cur (i : SlotIx) (c : Code) (d : Byte) (s : State) :
    (miss i c d s).cur = some d.toCode := rfl

@[simp] theorem miss_nextCode (i : SlotIx) (c : Code) (d : Byte) (s : State) :
    (miss i c d s).nextCode = (allocStep s).nextCode := by unfold miss; simp only [allocCode_emit]; cases allocCode s <;> simp

@[simp] theorem miss_bitBuffer (i : SlotIx) (c : Code) (d : Byte) (s : State) :
    (miss i c d s).bitBuffer = (emit c s).bitBuffer := by unfold miss; simp only [allocCode_emit]; cases allocCode s <;> simp

@[simp] theorem miss_pendingBits (i : SlotIx) (c : Code) (d : Byte) (s : State) :
    (miss i c d s).pendingBits = (emit c s).pendingBits := by unfold miss; simp only [allocCode_emit]; cases allocCode s <;> simp

@[simp] theorem miss_table (i : SlotIx) (c : Code) (d : Byte) (s : State) :
    (miss i c d s).table = match allocCode s with
    | some a => memWrite s.table i.toNat (some { assignedCode := a, prefixCode := some c, appendedByte := d })
    | none => s.table := by unfold miss; simp only [allocCode_emit]; cases allocCode s <;> simp

@[simp] theorem miss_idx (i : SlotIx) (c : Code) (d : Byte) (s : State) :
    (miss i c d s).idx = s.idx := by unfold miss; simp only [allocCode_emit]; cases allocCode s <;> simp

@[simp] theorem miss_stride (i : SlotIx) (c : Code) (d : Byte) (s : State) :
    (miss i c d s).stride = s.stride := by unfold miss; simp only [allocCode_emit]; cases allocCode s <;> simp

@[simp] theorem miss_outq (i : SlotIx) (c : Code) (d : Byte) (s : State) :
    (miss i c d s).outq = (emit c s).outq := by unfold miss; simp only [allocCode_emit]; cases allocCode s <;> simp

@[simp] theorem miss_failCause (i : SlotIx) (c : Code) (d : Byte) (s : State) :
    (miss i c d s).failCause = s.failCause := by unfold miss; simp only [allocCode_emit]; cases allocCode s <;> simp

@[simp] theorem miss_sunk (i : SlotIx) (c : Code) (d : Byte) (s : State) :
    (miss i c d s).sunk = s.sunk := by unfold miss; simp only [allocCode_emit]; cases allocCode s <;> simp

@[simp] theorem miss_ret (i : SlotIx) (c : Code) (d : Byte) (s : State) :
    (miss i c d s).ret = s.ret := by unfold miss; simp only [allocCode_emit]; cases allocCode s <;> simp

@[simp] theorem miss_freeIx (i : SlotIx) (c : Code) (d : Byte) (s : State) :
    (miss i c d s).freeIx = s.freeIx := by unfold miss; simp only [allocCode_emit]; cases allocCode s <;> simp

@[simp] theorem miss_inputs (i : SlotIx) (c : Code) (d : Byte) (s : State) :
    (miss i c d s).inputs = s.inputs := by unfold miss; simp only [allocCode_emit]; cases allocCode s <;> simp

@[simp] theorem miss_line (i : SlotIx) (c : Code) (d : Byte) (s : State) :
    (miss i c d s).line = s.line := by unfold miss; simp only [allocCode_emit]; cases allocCode s <;> simp

@[simp] theorem miss_startStall (i : SlotIx) (c : Code) (d : Byte) (s : State) :
    (miss i c d s).startStall = s.startStall := by unfold miss; simp only [allocCode_emit]; cases allocCode s <;> simp

@[simp] theorem miss_inStall (i : SlotIx) (c : Code) (d : Byte) (s : State) :
    (miss i c d s).inStall = s.inStall := by unfold miss; simp only [allocCode_emit]; cases allocCode s <;> simp
@[simp] theorem miss_inGate (i : SlotIx) (c : Code) (d : Byte) (s : State) :
    (miss i c d s).inGate = s.inGate := by unfold miss; simp only [allocCode_emit]; cases allocCode s <;> simp

@[simp] theorem miss_outStall (i : SlotIx) (c : Code) (d : Byte) (s : State) :
    (miss i c d s).outStall = s.outStall := by unfold miss; simp only [allocCode_emit]; cases allocCode s <;> simp

/-! freeProbe -/

@[simp] theorem freeProbe_phase (s : State) :
    (freeProbe s).phase = s.phase := rfl

@[simp] theorem freeProbe_cur (s : State) :
    (freeProbe s).cur = s.cur := rfl

@[simp] theorem freeProbe_nextCode (s : State) :
    (freeProbe s).nextCode = s.nextCode := rfl

@[simp] theorem freeProbe_bitBuffer (s : State) :
    (freeProbe s).bitBuffer = s.bitBuffer := rfl

@[simp] theorem freeProbe_pendingBits (s : State) :
    (freeProbe s).pendingBits = s.pendingBits := rfl

@[simp] theorem freeProbe_table (s : State) :
    (freeProbe s).table = s.table := rfl

@[simp] theorem freeProbe_idx (s : State) :
    (freeProbe s).idx = freeIdx s.freeIx := rfl

@[simp] theorem freeProbe_stride (s : State) :
    (freeProbe s).stride = freeStride s.freeIx := rfl

@[simp] theorem freeProbe_outq (s : State) :
    (freeProbe s).outq = s.outq := rfl

@[simp] theorem freeProbe_failCause (s : State) :
    (freeProbe s).failCause = s.failCause := rfl

@[simp] theorem freeProbe_sunk (s : State) :
    (freeProbe s).sunk = s.sunk := rfl

@[simp] theorem freeProbe_ret (s : State) :
    (freeProbe s).ret = s.ret := rfl

@[simp] theorem freeProbe_freeIx (s : State) :
    (freeProbe s).freeIx = s.freeIx + 1 := rfl

@[simp] theorem freeProbe_inputs (s : State) :
    (freeProbe s).inputs = s.inputs := rfl

@[simp] theorem freeProbe_line (s : State) :
    (freeProbe s).line = s.line := rfl

@[simp] theorem freeProbe_startStall (s : State) :
    (freeProbe s).startStall = s.startStall := rfl

@[simp] theorem freeProbe_inStall (s : State) :
    (freeProbe s).inStall = s.inStall := rfl
@[simp] theorem freeProbe_inGate (s : State) :
    (freeProbe s).inGate = s.inGate := rfl

@[simp] theorem freeProbe_outStall (s : State) :
    (freeProbe s).outStall = s.outStall := rfl

/-! loseSession -/

@[simp] theorem loseSession_phase (s : State) :
    (loseSession s).phase = s.phase := rfl

@[simp] theorem loseSession_cur (s : State) :
    (loseSession s).cur = none := rfl

@[simp] theorem loseSession_nextCode (s : State) :
    (loseSession s).nextCode = freeNextCode s.freeIx := rfl

@[simp] theorem loseSession_bitBuffer (s : State) :
    (loseSession s).bitBuffer = freeBitBuffer s.freeIx := rfl

@[simp] theorem loseSession_pendingBits (s : State) :
    (loseSession s).pendingBits = freePendingBits s.freeIx := rfl

@[simp] theorem loseSession_table (s : State) :
    (loseSession s).table = freeTable s.freeIx := rfl

@[simp] theorem loseSession_idx (s : State) :
    (loseSession s).idx = freeIdx s.freeIx := rfl

@[simp] theorem loseSession_stride (s : State) :
    (loseSession s).stride = freeStride s.freeIx := rfl

@[simp] theorem loseSession_outq (s : State) :
    (loseSession s).outq = s.outq := rfl

@[simp] theorem loseSession_failCause (s : State) :
    (loseSession s).failCause = s.failCause := rfl

@[simp] theorem loseSession_sunk (s : State) :
    (loseSession s).sunk = s.sunk := rfl

@[simp] theorem loseSession_ret (s : State) :
    (loseSession s).ret = s.ret := rfl

@[simp] theorem loseSession_freeIx (s : State) :
    (loseSession s).freeIx = s.freeIx + 1 := rfl

@[simp] theorem loseSession_inputs (s : State) :
    (loseSession s).inputs = s.inputs := rfl

@[simp] theorem loseSession_line (s : State) :
    (loseSession s).line = s.line := rfl

@[simp] theorem loseSession_startStall (s : State) :
    (loseSession s).startStall = s.startStall := rfl

@[simp] theorem loseSession_inStall (s : State) :
    (loseSession s).inStall = s.inStall := rfl
@[simp] theorem loseSession_inGate (s : State) :
    (loseSession s).inGate = s.inGate := rfl

@[simp] theorem loseSession_outStall (s : State) :
    (loseSession s).outStall = s.outStall := rfl

/-! takeFailure -/

@[simp] theorem takeFailure_phase (m : FailMask) (s : State) :
    (takeFailure m s).phase = .failed := rfl

@[simp] theorem takeFailure_cur (m : FailMask) (s : State) :
    (takeFailure m s).cur = none := rfl

@[simp] theorem takeFailure_nextCode (m : FailMask) (s : State) :
    (takeFailure m s).nextCode = freeNextCode s.freeIx := rfl

@[simp] theorem takeFailure_bitBuffer (m : FailMask) (s : State) :
    (takeFailure m s).bitBuffer = freeBitBuffer s.freeIx := rfl

@[simp] theorem takeFailure_pendingBits (m : FailMask) (s : State) :
    (takeFailure m s).pendingBits = freePendingBits s.freeIx := rfl

@[simp] theorem takeFailure_table (m : FailMask) (s : State) :
    (takeFailure m s).table = freeTable s.freeIx := rfl

@[simp] theorem takeFailure_idx (m : FailMask) (s : State) :
    (takeFailure m s).idx = freeIdx s.freeIx := rfl

@[simp] theorem takeFailure_stride (m : FailMask) (s : State) :
    (takeFailure m s).stride = freeStride s.freeIx := rfl

@[simp] theorem takeFailure_outq (m : FailMask) (s : State) :
    (takeFailure m s).outq = [] := rfl

@[simp] theorem takeFailure_failCause (m : FailMask) (s : State) :
    (takeFailure m s).failCause = m.bits := rfl

@[simp] theorem takeFailure_sunk (m : FailMask) (s : State) :
    (takeFailure m s).sunk = s.sunk := rfl

@[simp] theorem takeFailure_ret (m : FailMask) (s : State) :
    (takeFailure m s).ret = s.ret := rfl

@[simp] theorem takeFailure_freeIx (m : FailMask) (s : State) :
    (takeFailure m s).freeIx = s.freeIx + 1 := rfl

@[simp] theorem takeFailure_inputs (m : FailMask) (s : State) :
    (takeFailure m s).inputs = s.inputs := rfl

@[simp] theorem takeFailure_line (m : FailMask) (s : State) :
    (takeFailure m s).line = s.line := rfl

@[simp] theorem takeFailure_startStall (m : FailMask) (s : State) :
    (takeFailure m s).startStall = s.startStall := rfl

@[simp] theorem takeFailure_inStall (m : FailMask) (s : State) :
    (takeFailure m s).inStall = s.inStall := rfl
@[simp] theorem takeFailure_inGate (m : FailMask) (s : State) :
    (takeFailure m s).inGate = s.inGate := rfl

@[simp] theorem takeFailure_outStall (m : FailMask) (s : State) :
    (takeFailure m s).outStall = s.outStall := rfl

/-! startSession -/

@[simp] theorem startSession_phase (s : State) :
    (startSession s).phase = .seed := rfl

@[simp] theorem startSession_cur (s : State) :
    (startSession s).cur = none := rfl

@[simp] theorem startSession_nextCode (s : State) :
    (startSession s).nextCode = FIRST_CODE := rfl

@[simp] theorem startSession_bitBuffer (s : State) :
    (startSession s).bitBuffer = 0#19 := rfl

@[simp] theorem startSession_pendingBits (s : State) :
    (startSession s).pendingBits = 0#5 := rfl

@[simp] theorem startSession_table (s : State) :
    (startSession s).table = initialTable := rfl

@[simp] theorem startSession_idx (s : State) :
    (startSession s).idx = freeIdx s.freeIx := rfl

@[simp] theorem startSession_stride (s : State) :
    (startSession s).stride = freeStride s.freeIx := rfl

@[simp] theorem startSession_outq (s : State) :
    (startSession s).outq = [] := rfl

@[simp] theorem startSession_failCause (s : State) :
    (startSession s).failCause = 0#2 := rfl

@[simp] theorem startSession_sunk (s : State) :
    (startSession s).sunk = [] := rfl

@[simp] theorem startSession_ret (s : State) :
    (startSession s).ret = s.ret := rfl

@[simp] theorem startSession_freeIx (s : State) :
    (startSession s).freeIx = s.freeIx + 1 := rfl

@[simp] theorem startSession_inputs (s : State) :
    (startSession s).inputs = s.inputs := rfl

@[simp] theorem startSession_line (s : State) :
    (startSession s).line = s.line := rfl

@[simp] theorem startSession_startStall (s : State) :
    (startSession s).startStall = s.startStall := rfl

@[simp] theorem startSession_inStall (s : State) :
    (startSession s).inStall = s.inStall := rfl
@[simp] theorem startSession_inGate (s : State) :
    (startSession s).inGate = s.inGate := rfl

@[simp] theorem startSession_outStall (s : State) :
    (startSession s).outStall = s.outStall := rfl

/-! resetCore -/

@[simp] theorem resetCore_phase (s : State) :
    (resetCore s).phase = .idle := rfl

@[simp] theorem resetCore_cur (s : State) :
    (resetCore s).cur = none := rfl

@[simp] theorem resetCore_nextCode (s : State) :
    (resetCore s).nextCode = freeNextCode s.freeIx := rfl

@[simp] theorem resetCore_bitBuffer (s : State) :
    (resetCore s).bitBuffer = freeBitBuffer s.freeIx := rfl

@[simp] theorem resetCore_pendingBits (s : State) :
    (resetCore s).pendingBits = freePendingBits s.freeIx := rfl

@[simp] theorem resetCore_table (s : State) :
    (resetCore s).table = freeTable s.freeIx := rfl

@[simp] theorem resetCore_idx (s : State) :
    (resetCore s).idx = freeIdx s.freeIx := rfl

@[simp] theorem resetCore_stride (s : State) :
    (resetCore s).stride = freeStride s.freeIx := rfl

@[simp] theorem resetCore_outq (s : State) :
    (resetCore s).outq = [] := rfl

@[simp] theorem resetCore_failCause (s : State) :
    (resetCore s).failCause = 0#2 := rfl

@[simp] theorem resetCore_sunk (s : State) :
    (resetCore s).sunk = [] := rfl

@[simp] theorem resetCore_ret (s : State) :
    (resetCore s).ret = s.ret := rfl

@[simp] theorem resetCore_freeIx (s : State) :
    (resetCore s).freeIx = s.freeIx + 1 := rfl

@[simp] theorem resetCore_inputs (s : State) :
    (resetCore s).inputs = s.inputs := rfl

@[simp] theorem resetCore_line (s : State) :
    (resetCore s).line = s.line := rfl

@[simp] theorem resetCore_startStall (s : State) :
    (resetCore s).startStall = s.startStall := rfl

@[simp] theorem resetCore_inStall (s : State) :
    (resetCore s).inStall = s.inStall := rfl
@[simp] theorem resetCore_inGate (s : State) :
    (resetCore s).inGate = s.inGate := rfl

@[simp] theorem resetCore_outStall (s : State) :
    (resetCore s).outStall = s.outStall := rfl

/-! takeInput -/

@[simp] theorem takeInput_phase (rest : List Input) (s : State) :
    (takeInput rest s).phase = s.phase := rfl

@[simp] theorem takeInput_cur (rest : List Input) (s : State) :
    (takeInput rest s).cur = s.cur := rfl

@[simp] theorem takeInput_nextCode (rest : List Input) (s : State) :
    (takeInput rest s).nextCode = s.nextCode := rfl

@[simp] theorem takeInput_bitBuffer (rest : List Input) (s : State) :
    (takeInput rest s).bitBuffer = s.bitBuffer := rfl

@[simp] theorem takeInput_pendingBits (rest : List Input) (s : State) :
    (takeInput rest s).pendingBits = s.pendingBits := rfl

@[simp] theorem takeInput_table (rest : List Input) (s : State) :
    (takeInput rest s).table = s.table := rfl

@[simp] theorem takeInput_idx (rest : List Input) (s : State) :
    (takeInput rest s).idx = s.idx := rfl

@[simp] theorem takeInput_stride (rest : List Input) (s : State) :
    (takeInput rest s).stride = s.stride := rfl

@[simp] theorem takeInput_outq (rest : List Input) (s : State) :
    (takeInput rest s).outq = s.outq := rfl

@[simp] theorem takeInput_failCause (rest : List Input) (s : State) :
    (takeInput rest s).failCause = s.failCause := rfl

@[simp] theorem takeInput_sunk (rest : List Input) (s : State) :
    (takeInput rest s).sunk = s.sunk := rfl

@[simp] theorem takeInput_ret (rest : List Input) (s : State) :
    (takeInput rest s).ret = s.ret := rfl

@[simp] theorem takeInput_freeIx (rest : List Input) (s : State) :
    (takeInput rest s).freeIx = s.freeIx := rfl

@[simp] theorem takeInput_inputs (rest : List Input) (s : State) :
    (takeInput rest s).inputs = rest := rfl

@[simp] theorem takeInput_line (rest : List Input) (s : State) :
    (takeInput rest s).line = s.line + 1 := rfl

@[simp] theorem takeInput_startStall (rest : List Input) (s : State) :
    (takeInput rest s).startStall = s.startStall := rfl

@[simp] theorem takeInput_inStall (rest : List Input) (s : State) :
    (takeInput rest s).inStall = s.inStall := rfl
@[simp] theorem takeInput_inGate (rest : List Input) (s : State) :
    (takeInput rest s).inGate = s.inGate := rfl

@[simp] theorem takeInput_outStall (rest : List Input) (s : State) :
    (takeInput rest s).outStall = s.outStall := rfl

/-! tick -/

@[simp] theorem tick_phase (evs : List Instr) (s t : State) :
    (tick evs s t).phase = t.phase := rfl

@[simp] theorem tick_cur (evs : List Instr) (s t : State) :
    (tick evs s t).cur = t.cur := rfl

@[simp] theorem tick_nextCode (evs : List Instr) (s t : State) :
    (tick evs s t).nextCode = t.nextCode := rfl

@[simp] theorem tick_bitBuffer (evs : List Instr) (s t : State) :
    (tick evs s t).bitBuffer = t.bitBuffer := rfl

@[simp] theorem tick_pendingBits (evs : List Instr) (s t : State) :
    (tick evs s t).pendingBits = t.pendingBits := rfl

@[simp] theorem tick_table (evs : List Instr) (s t : State) :
    (tick evs s t).table = t.table := rfl

@[simp] theorem tick_idx (evs : List Instr) (s t : State) :
    (tick evs s t).idx = t.idx := rfl

@[simp] theorem tick_stride (evs : List Instr) (s t : State) :
    (tick evs s t).stride = t.stride := rfl

@[simp] theorem tick_outq (evs : List Instr) (s t : State) :
    (tick evs s t).outq = t.outq := rfl

@[simp] theorem tick_failCause (evs : List Instr) (s t : State) :
    (tick evs s t).failCause = t.failCause := rfl

@[simp] theorem tick_sunk (evs : List Instr) (s t : State) :
    (tick evs s t).sunk = t.sunk := rfl

@[simp] theorem tick_ret (evs : List Instr) (s t : State) :
    (tick evs s t).ret = t.ret := rfl

@[simp] theorem tick_freeIx (evs : List Instr) (s t : State) :
    (tick evs s t).freeIx = t.freeIx + 1 := rfl

@[simp] theorem tick_inputs (evs : List Instr) (s t : State) :
    (tick evs s t).inputs = t.inputs := rfl

@[simp] theorem tick_line (evs : List Instr) (s t : State) :
    (tick evs s t).line = t.line := rfl

@[simp] theorem tick_startStall (evs : List Instr) (s t : State) :
    (tick evs s t).startStall = countDown (freeStartStall t.freeIx) s.startStall := rfl

@[simp] theorem tick_inStall (evs : List Instr) (s t : State) :
    (tick evs s t).inStall = countDown (freeInStall t.freeIx) s.inStall := rfl
@[simp] theorem tick_inGate (evs : List Instr) (s t : State) :
    (tick evs s t).inGate = freeInGate t.freeIx := rfl

@[simp] theorem tick_outStall (evs : List Instr) (s t : State) :
    (tick evs s t).outStall = if outValid s && !evs.any endsOffer then 0 else countDown (freeOutStall t.freeIx) s.outStall := rfl

end Sys2Proof.Machine
end

