-- ==== Sys2Proof/Laws/Packer.lean ====
section
/-! SUPPORT. The laws of the drain loop (42_bit_packer.md R83, R84, R86, R91). -/

namespace Sys2Proof.Machine

open Sys2Proof Sys2Proof.Config

theorem and_low_mask (x k : Nat) : x &&& (2 ^ k - 1) = x % 2 ^ k := Nat.and_two_pow_sub_one_eq_mod x k

theorem and_byte_mask (x : Nat) : x &&& 0xFF = x % 256 := and_low_mask x 8

/-- What the drain leaves pending: fewer than 8 bits, the remainder of the count (R86). -/
theorem drain_pending (n buf pending : Nat) (h : pending / 8 ≤ n) : (drain n buf pending).pending = pending % 8 := by
  induction n generalizing buf pending with
  | zero => simp only [drain]; omega
  | succ n ih =>
    simp only [drain]
    split
    · simp only []; rw [ih]
      · omega
      · omega
    · simp only []; omega

/-- How many bytes the drain pushes: `floor(pending / 8)` (R83). -/
theorem drain_length (n buf pending : Nat) (h : pending / 8 ≤ n) :
    (drain n buf pending).bytes.length = pending / 8 := by
  induction n generalizing buf pending with
  | zero => simp only [drain, List.length_nil]; omega
  | succ n ih =>
    simp only [drain]
    split
    · simp only [List.length_cons]; rw [ih]
      · omega
      · omega
    · simp only [List.length_nil]; omega

/-- What the drain leaves in the buffer: its low `pending mod 8` bits, when a byte was drained (R84). -/
theorem drain_buf (n buf pending : Nat) (h : pending / 8 ≤ n) (h8 : 8 ≤ pending) :
    (drain n buf pending).buf = buf % 2 ^ (pending % 8) := by
  induction n generalizing buf pending with
  | zero => omega
  | succ n ih =>
    simp only [drain, if_pos h8]
    by_cases h16 : 8 ≤ pending - 8
    · rw [ih _ _ (by omega) h16, and_low_mask, show (pending - 8) % 8 = pending % 8 by omega,
        Nat.mod_mod_of_dvd]
      exact Nat.pow_dvd_pow 2 (by omega)
    · have : (drain n (buf &&& (2 ^ (pending - 8) - 1)) (pending - 8)).buf = buf &&& (2 ^ (pending - 8) - 1) := by
        cases n <;> simp [drain, h16]
      rw [this, and_low_mask, show pending % 8 = pending - 8 by omega]

/-- The bytes that the drain pushes: byte `k` is the `k`-th group of 8 of the `pending` bits, from the top (R83). -/
theorem drain_bytes (n buf pending : Nat) (h : pending / 8 ≤ n) (k : Nat) (hk : k < pending / 8) :
    (drain n buf pending).bytes[k]? = some (BitVec.ofNat 8 (buf >>> (pending - 8 * (k + 1)))) := by
  induction n generalizing buf pending k with
  | zero => omega
  | succ n ih =>
    have h8 : 8 ≤ pending := by omega
    simp only [drain, if_pos h8]
    cases k with
    | zero =>
      simp only [List.getElem?_cons_zero, and_byte_mask, Option.some.injEq]
      apply BitVec.eq_of_toNat_eq
      simp
    | succ k =>
      rw [List.getElem?_cons_succ, ih _ _ (by omega) k (by omega)]
      simp only [Option.some.injEq]
      apply BitVec.eq_of_toNat_eq
      simp only [BitVec.toNat_ofNat, and_low_mask, Nat.shiftRight_eq_div_pow]
      have e1 : pending - 8 - 8 * (k + 1) = pending - 8 * (k + 1 + 1) := by omega
      rw [e1]
      have e2 : pending - 8 = (pending - 8 * (k + 1 + 1)) + 8 * (k + 1) := by omega
      rw [e2, Nat.pow_add, Nat.mod_mul_right_div_self, Nat.mod_mod_of_dvd]
      exact Nat.pow_dvd_pow 2 (by omega)

theorem emitDrain_pending (buf : BitBuf) (pending : BitCount) (c : Code) :
    (emitDrain buf pending c).pending = (pending.toNat + BITS) % 8 :=
  drain_pending _ _ _ (by omega)

theorem emitDrain_length (buf : BitBuf) (pending : BitCount) (c : Code) :
    (emitDrain buf pending c).bytes.length = (pending.toNat + BITS) / 8 :=
  drain_length _ _ _ (by omega)

/-- The code's bits enter below the bits already held (R83): `(buf << BITS) | c = buf * 2^BITS + c`. -/
theorem append_code (buf : BitBuf) (c : Code) : (buf.toNat <<< BITS) ||| c.toNat = buf.toNat * 4096 + c.toNat := by
  rw [← Nat.shiftLeft_add_eq_or_of_lt c.isLt, Nat.shiftLeft_eq]

theorem emitDrain_buf (buf : BitBuf) (pending : BitCount) (c : Code) :
    (emitDrain buf pending c).buf = (buf.toNat * 4096 + c.toNat) % 2 ^ ((pending.toNat + BITS) % 8) := by
  rw [emitDrain, drain_buf _ _ _ (by omega) (by rw [BITS_eq]; omega), append_code]

theorem emitDrain_bytes (buf : BitBuf) (pending : BitCount) (c : Code) (k : Nat) (hk : k < (pending.toNat + BITS) / 8) :
    (emitDrain buf pending c).bytes[k]? =
      some (BitVec.ofNat 8 ((buf.toNat * 4096 + c.toNat) >>> (pending.toNat + BITS - 8 * (k + 1)))) := by
  rw [emitDrain, drain_bytes _ _ _ (by omega) k hk, append_code]

/-- Marking the tail keeps every byte (44_interfaces.md R113). -/
@[simp] theorem markTail_bytes (q : List OutEntry) : (markTail q).map OutEntry.byte = q.map OutEntry.byte := by
  induction q with
  | nil => rfl
  | cons e q ih =>
    cases q with
    | nil => rfl
    | cons f q => simp only [markTail, List.map_cons] at ih ⊢; rw [ih]

@[simp] theorem markTail_length (q : List OutEntry) : (markTail q).length = q.length := by
  rw [← List.length_map (f := OutEntry.byte), markTail_bytes, List.length_map]

/-- What is marked is the entry at the tail. -/
theorem markTail_append (q : List OutEntry) (e : OutEntry) : markTail (q ++ [e]) = q ++ [{ e with last := true }] := by
  induction q with
  | nil => rfl
  | cons f q ih =>
    cases q with
    | nil => rfl
    | cons g q => simp only [List.cons_append, markTail] at ih ⊢; rw [ih]

end Sys2Proof.Machine
end

