-- ==== Sys2Proof/Laws/Table.lean ====
section
/-! SUPPORT. The laws of the table: a read after a write (20_memory.md R32, R38), the canonical form kept by every
operation, equal reads make equal tables, and what TINIT's table holds (40_dictionary.md R66). -/

namespace Sys2Proof.Machine

open Sys2Proof Sys2Proof.Config

/-! Reads. -/

@[simp] theorem memRead_nil (i : Nat) : memRead [] i = none := rfl

theorem memRead_cons (j : Nat) (e : Entry) (t : Table) (i : Nat) :
    memRead ((j, e) :: t) i = if j = i then some e else memRead t i := rfl

theorem memRead_none_of_notMem (t : Table) (i : Nat) (h : ∀ c ∈ t, c.1 ≠ i) : memRead t i = none := by
  induction t with
  | nil => rfl
  | cons c t ih =>
    obtain ⟨j, e⟩ := c
    rw [memRead_cons, if_neg (h (j, e) (by simp)), ih fun c hc => h c (by simp [hc])]

/-- A table whose indices are all above `i` has slot `i` empty. -/
theorem memRead_none_of_lt (t : Table) (i : Nat) (h : ∀ c ∈ t, i < c.1) : memRead t i = none :=
  memRead_none_of_notMem t i fun c hc => (h c hc).ne'

theorem mem_of_memRead (t : Table) (i : Nat) (e : Entry) (h : memRead t i = some e) : (i, e) ∈ t := by
  induction t with
  | nil => simp at h
  | cons c t ih =>
    obtain ⟨j, f⟩ := c
    rw [memRead_cons] at h
    split at h
    · simp_all
    · simp [ih h]

theorem memRead_of_mem (t : Table) (hs : t.Pairwise fun a b => a.1 < b.1) (i : Nat) (e : Entry) (h : (i, e) ∈ t) :
    memRead t i = some e := by
  induction t with
  | nil => simp at h
  | cons c t ih =>
    obtain ⟨j, f⟩ := c
    rw [List.pairwise_cons] at hs
    rw [memRead_cons]
    rcases List.mem_cons.1 h with h | h
    · simp_all
    · have := hs.1 _ h
      rw [if_neg (by simp at this; omega), ih hs.2 h]

/-! Reads after writes. -/

theorem memRead_setEntry (t : Table) (i : Nat) (e : Entry) (k : Nat) :
    memRead (setEntry i e t) k = if i = k then some e else memRead t k := by
  induction t with
  | nil => simp [setEntry, memRead_cons]
  | cons c t ih =>
    obtain ⟨j, f⟩ := c
    simp only [setEntry]
    split
    · simp [memRead_cons]
    · split
      · subst_vars; simp only [memRead_cons]; split <;> rfl
      · simp only [memRead_cons, ih]
        by_cases h1 : j = k <;> by_cases h2 : i = k <;> simp_all

theorem memRead_eraseEntry (t : Table) (i k : Nat) :
    memRead (eraseEntry i t) k = if i = k then none else memRead t k := by
  induction t with
  | nil => simp [eraseEntry]
  | cons c t ih =>
    obtain ⟨j, f⟩ := c
    simp only [eraseEntry]
    split
    · subst_vars; simp only [memRead_cons, ih]; split <;> rfl
    · simp only [memRead_cons, ih]
      by_cases h1 : j = k <;> by_cases h2 : i = k <;> simp_all

/-- A read after a write: the written slot gives what was written, every other slot what it held. -/
theorem memRead_memWrite (t : Table) (i : Nat) (r : Slot) (k : Nat) :
    memRead (memWrite t i r) k = if i = k then r else memRead t k := by
  cases r <;> simp [memWrite, memRead_setEntry, memRead_eraseEntry]

@[simp] theorem memRead_memWrite_self (t : Table) (i : Nat) (r : Slot) : memRead (memWrite t i r) i = r := by
  simp [memRead_memWrite]

theorem memRead_memWrite_ne (t : Table) (i : Nat) (r : Slot) (k : Nat) (h : i ≠ k) :
    memRead (memWrite t i r) k = memRead t k := by
  simp [memRead_memWrite, h]

/-! The canonical form. -/

theorem mem_setEntry (t : Table) (i : Nat) (e : Entry) (c : Nat × Entry) (h : c ∈ setEntry i e t) :
    c = (i, e) ∨ c ∈ t := by
  induction t with
  | nil => simpa [setEntry] using h
  | cons d t ih =>
    obtain ⟨j, f⟩ := d
    simp only [setEntry] at h
    split at h
    · simpa using h
    · split at h
      · rcases List.mem_cons.1 h with h | h <;> simp [h]
      · rcases List.mem_cons.1 h with h | h
        · simp [h]
        · rcases ih h with h | h <;> simp [h]

theorem mem_eraseEntry (t : Table) (i : Nat) (c : Nat × Entry) (h : c ∈ eraseEntry i t) : c ∈ t := by
  induction t with
  | nil => simp [eraseEntry] at h
  | cons d t ih =>
    obtain ⟨j, f⟩ := d
    simp only [eraseEntry] at h
    split at h
    · simp [ih h]
    · rcases List.mem_cons.1 h with h | h
      · simp [h]
      · simp [ih h]

theorem pairwise_setEntry (t : Table) (i : Nat) (e : Entry) (h : t.Pairwise fun a b => a.1 < b.1) :
    (setEntry i e t).Pairwise fun a b => a.1 < b.1 := by
  induction t with
  | nil => simp [setEntry]
  | cons d t ih =>
    obtain ⟨j, f⟩ := d
    have h' := List.pairwise_cons.1 h
    simp only [setEntry]
    split
    · rename_i hlt
      refine List.pairwise_cons.2 ⟨fun c hc => ?_, h⟩
      rcases List.mem_cons.1 hc with hc | hc
      · simp [hc, hlt]
      · exact lt_trans hlt (h'.1 c hc)
    · split
      · subst_vars; exact List.pairwise_cons.2 h'
      · refine List.pairwise_cons.2 ⟨fun c hc => ?_, ih h'.2⟩
        rcases mem_setEntry t i e c hc with hc | hc
        · simp [hc]; omega
        · exact h'.1 c hc

theorem pairwise_eraseEntry (t : Table) (i : Nat) (h : t.Pairwise fun a b => a.1 < b.1) :
    (eraseEntry i t).Pairwise fun a b => a.1 < b.1 := by
  induction t with
  | nil => simp [eraseEntry]
  | cons d t ih =>
    obtain ⟨j, f⟩ := d
    have h' := List.pairwise_cons.1 h
    simp only [eraseEntry]
    split
    · exact ih h'.2
    · exact List.pairwise_cons.2 ⟨fun c hc => h'.1 c (mem_eraseEntry t i c hc), ih h'.2⟩

/-- A write to an existing slot keeps the canonical form. -/
theorem wf_memWrite (t : Table) (i : Nat) (r : Slot) (h : t.wf) (hi : i < TABLE_SIZE) : (memWrite t i r).wf := by
  cases r with
  | none => exact ⟨pairwise_eraseEntry t i h.1, fun c hc => h.2 c (mem_eraseEntry t i c hc)⟩
  | some e =>
    refine ⟨pairwise_setEntry t i e h.1, fun c hc => ?_⟩
    rcases mem_setEntry t i e c hc with hc | hc
    · simpa [hc] using hi
    · exact h.2 c hc

/-- Populating an empty slot adds one pair. -/
theorem length_setEntry (t : Table) (i : Nat) (e : Entry) (h : memRead t i = none) :
    (setEntry i e t).length = t.length + 1 := by
  induction t with
  | nil => simp [setEntry]
  | cons d t ih =>
    obtain ⟨j, f⟩ := d
    rw [memRead_cons] at h
    simp only [setEntry]
    split
    · simp
    · split
      · simp_all
      · split at h
        · simp at h
        · simp [ih h]

/-- In canonical form equal reads make equal tables: the form is one for each content. -/
theorem table_ext (t u : Table) (ht : t.wf) (hu : u.wf) (h : ∀ i, memRead t i = memRead u i) : t = u := by
  have key : ∀ (t u : Table), (t.Pairwise fun a b => a.1 < b.1) → (u.Pairwise fun a b => a.1 < b.1) →
      (∀ i, memRead t i = memRead u i) → t = u := by
    intro t
    induction t with
    | nil =>
      intro u _ _ h
      cases u with
      | nil => rfl
      | cons d u => obtain ⟨k, f⟩ := d; have := h k; simp [memRead_cons] at this
    | cons c t ih =>
      obtain ⟨j, e⟩ := c
      intro u ht hu h
      cases u with
      | nil => have := h j; simp [memRead_cons] at this
      | cons d u =>
        obtain ⟨k, f⟩ := d
        have ht' := List.pairwise_cons.1 ht
        have hu' := List.pairwise_cons.1 hu
        have hjk : j = k := by
          by_contra hne
          rcases lt_or_gt_of_ne hne with hlt | hlt
          · have := h j
            rw [memRead_cons, if_pos rfl, memRead_cons, if_neg (by omega),
              memRead_none_of_lt u j fun c hc => lt_trans hlt (hu'.1 c hc)] at this
            simp at this
          · have := h k
            rw [memRead_cons, if_neg (by omega), memRead_cons, if_pos rfl,
              memRead_none_of_lt t k fun c hc => lt_trans hlt (ht'.1 c hc)] at this
            simp at this
        subst hjk
        have hef : e = f := by have := h j; simpa [memRead_cons] using this
        subst hef
        congr 1
        refine ih u ht'.2 hu'.2 fun i => ?_
        by_cases hi : j = i
        · subst hi
          rw [memRead_none_of_lt t j ht'.1, memRead_none_of_lt u j hu'.1]
        · have := h i
          simpa [memRead_cons, hi] using this
  exact key t u ht.1 hu.1 h

/-! Tables given slot by slot. -/

theorem tableFrom_ge (f : Nat → Slot) (k n : Nat) : ∀ c ∈ tableFrom f k n, k ≤ c.1 ∧ c.1 < k + n := by
  induction n generalizing k with
  | zero => simp [tableFrom]
  | succ n ih =>
    intro c hc
    simp only [tableFrom] at hc
    split at hc
    · rcases List.mem_cons.1 hc with hc | hc
      · simp [hc]
      · have := ih (k + 1) c hc; omega
    · have := ih (k + 1) c hc; omega

theorem pairwise_tableFrom (f : Nat → Slot) (k n : Nat) :
    (tableFrom f k n).Pairwise fun a b => a.1 < b.1 := by
  induction n generalizing k with
  | zero => simp [tableFrom]
  | succ n ih =>
    simp only [tableFrom]
    split
    · refine List.pairwise_cons.2 ⟨fun c hc => ?_, ih (k + 1)⟩
      have := tableFrom_ge f (k + 1) n c hc
      simp only; omega
    · exact ih (k + 1)

theorem memRead_tableFrom (f : Nat → Slot) (k n i : Nat) :
    memRead (tableFrom f k n) i = if k ≤ i ∧ i < k + n then f i else none := by
  induction n generalizing k with
  | zero => simp [tableFrom]
  | succ n ih =>
    simp only [tableFrom]
    by_cases hki : k = i
    · subst hki
      have h0 : memRead (tableFrom f (k + 1) n) k = none :=
        memRead_none_of_lt _ _ fun c hc => by have := tableFrom_ge f (k + 1) n c hc; omega
      split <;> simp_all [memRead_cons]
    · have hiff : (k + 1 ≤ i ∧ i < k + 1 + n) ↔ (k ≤ i ∧ i < k + (n + 1)) := by omega
      split <;> simp only [memRead_cons, hki, if_false, ih, hiff]

/-- Every table given slot by slot, below `TABLE_SIZE`, is canonical. -/
theorem wf_tableFrom (f : Nat → Slot) (k n : Nat) (h : k + n ≤ TABLE_SIZE) : (tableFrom f k n).wf :=
  ⟨pairwise_tableFrom f k n, fun c hc => by have := tableFrom_ge f k n c hc; omega⟩

theorem wf_freeTable (n : Nat) : (freeTable n).wf := wf_tableFrom _ _ _ (Nat.le_of_eq (Nat.zero_add _))

theorem wf_initialTable : initialTable.wf := wf_tableFrom _ _ _ (by decide)

/-- TINIT's table: the roots, and every other slot empty (R31, R66). -/
theorem memRead_initialTable (i : Nat) :
    memRead initialTable i = if i < ROOTS then some (rootEntry i) else none := by
  simp [initialTable, memRead_tableFrom]

theorem length_tableFrom_some (g : Nat → Entry) (k n : Nat) :
    (tableFrom (fun i => some (g i)) k n).length = n := by
  induction n generalizing k with
  | zero => rfl
  | succ n ih => simp [tableFrom, ih]

theorem length_initialTable : initialTable.length = ROOTS := length_tableFrom_some _ _ _

theorem wf_nil : Table.wf [] := ⟨List.Pairwise.nil, by simp⟩

/-- The table right after reset is in canonical form. -/
theorem wf_reset : State.reset.table.wf := wf_nil

end Sys2Proof.Machine
end

