-- ==== Sys2Proof/Laws/Probe.lean ====
section
/-! SUPPORT. The laws of the probe: the ranges and formulas of HASH, STRIDE and NEXT as naturals (40_dictionary.md R60 to
R62, R73), and what the probe loop answers (R63, R68). -/

namespace Sys2Proof.Machine

open Sys2Proof Sys2Proof.Config

/-! HASH, STRIDE, NEXT as naturals. -/

theorem byte_lt_roots (d : Byte) : d.toNat < ROOTS := d.isLt

@[simp] theorem not_roots_le_byte (d : Byte) : ¬ ROOTS ≤ d.toNat := Nat.not_le.2 d.isLt

/-- HASH's formula on naturals (R60). -/
theorem homeIndex_toNat (p : Code) (b : Byte) :
    (homeIndex p b).toNat = (b.toNat <<< HASH_SHIFT) ^^^ p.toNat := by
  have hb := b.isLt
  have hp := p.isLt
  simp only [homeIndex, BitVec.toNat_xor, BitVec.toNat_shiftLeft, BitVec.toNat_setWidth]
  rw [Nat.mod_eq_of_lt (a := p.toNat) (by omega), Nat.mod_eq_of_lt (a := b.toNat) (by omega), Nat.mod_eq_of_lt]
  rw [Nat.shiftLeft_eq, HASH_SHIFT_eq]; omega

/-- A home index lies in `[0, 2^BITS)` and needs no reduction (R60). -/
theorem homeIndex_lt (p : Code) (b : Byte) : (homeIndex p b).toNat < 4096 := by
  rw [homeIndex_toNat]
  refine Nat.xor_lt_two_pow (n := 12) ?_ p.isLt
  have := b.isLt
  rw [Nat.shiftLeft_eq, HASH_SHIFT_eq]; omega

theorem homeIndex_lt_tableSize (p : Code) (b : Byte) : (homeIndex p b).toNat < TABLE_SIZE :=
  lt_trans (homeIndex_lt p b) (by decide)

/-- STRIDE's formula on naturals, for a slot index (R61). -/
theorem strideOf_toNat (h : SlotIx) (hh : h.toNat < TABLE_SIZE) :
    (strideOf h).toNat = if h.toNat = 0 then 1 else TABLE_SIZE - h.toNat := by
  unfold strideOf
  by_cases h0 : h = 0#13
  · simp [h0]
  · have : h.toNat ≠ 0 := fun hn => h0 (BitVec.eq_of_toNat_eq (by simpa using hn))
    rw [if_neg h0, if_pos hh, if_neg this, BitVec.toNat_ofNat, Nat.mod_eq_of_lt (by rw [TABLE_SIZE_eq]; omega)]

theorem strideOf_range (h : SlotIx) (hh : h.toNat < TABLE_SIZE) :
    1 ≤ (strideOf h).toNat ∧ (strideOf h).toNat < TABLE_SIZE := by
  rw [strideOf_toNat h hh, TABLE_SIZE_eq] at *; split <;> omega

/-- NEXT's formula on naturals: subtract, and add `TABLE_SIZE` where that would be negative (R62). -/
theorem nextIndex_toNat (i d : SlotIx) (hi : i.toNat < TABLE_SIZE) (hd : d.toNat < TABLE_SIZE) :
    (nextIndex i d).toNat = if i.toNat < d.toNat then i.toNat + TABLE_SIZE - d.toNat else i.toNat - d.toNat := by
  rw [nextIndex, if_pos ⟨hi, hd⟩, BitVec.toNat_ofInt]
  simp only [nextSigned, TABLE_SIZE_eq] at *
  split <;> split <;> omega

/-- NEXT stays inside the table (R73). -/
theorem nextIndex_lt (i d : SlotIx) (hi : i.toNat < TABLE_SIZE) (hd : d.toNat < TABLE_SIZE) :
    (nextIndex i d).toNat < TABLE_SIZE := by
  rw [nextIndex_toNat i d hi hd]; rw [TABLE_SIZE_eq] at *; split <;> omega

/-! The loop. -/

@[simp] theorem probeIter_zero (d i : SlotIx) : probeIter d 0 i = i := rfl

@[simp] theorem probeIter_succ (d i : SlotIx) (k : Nat) :
    probeIter d (k + 1) i = probeIter d k (nextIndex i d) := rfl

theorem probeIter_lt (d i : SlotIx) (hi : i.toNat < TABLE_SIZE) (hd : d.toNat < TABLE_SIZE) (k : Nat) :
    (probeIter d k i).toNat < TABLE_SIZE := by
  induction k generalizing i with
  | zero => exact hi
  | succ k ih => exact ih (nextIndex i d) (nextIndex_lt i d hi hd)

/-- A slot at which the loop of the key `(p, b)` stops: empty, or populated with the key (R63). -/
def stopsAt (t : Table) (p : Code) (b : Byte) (i : Nat) : Prop :=
  memRead t i = none ∨ ∃ e, memRead t i = some e ∧ e.hasKey p b = true

theorem probeLoop_succ (t : Table) (p : Code) (b : Byte) (d : SlotIx) (n : Nat) (i : SlotIx) :
    (stopsAt t p b i.toNat ∧ probeLoop t p b d (n + 1) i = some i) ∨
      (¬ stopsAt t p b i.toNat ∧ probeLoop t p b d (n + 1) i = probeLoop t p b d n (nextIndex i d)) := by
  simp only [probeLoop, stopsAt]
  cases h : memRead t i.toNat with
  | none => simp
  | some e => cases hk : e.hasKey p b <;> simp [hk]

/-- What an answer of the loop says: it is the first slot of the path at which the loop stops. -/
theorem probeLoop_eq_some (t : Table) (p : Code) (b : Byte) (d : SlotIx) (n : Nat) (i r : SlotIx) :
    probeLoop t p b d n i = some r ↔
      ∃ k, k < n ∧ r = probeIter d k i ∧ stopsAt t p b (probeIter d k i).toNat ∧
        ∀ j, j < k → ¬ stopsAt t p b (probeIter d j i).toNat := by
  induction n generalizing i with
  | zero => simp [probeLoop]
  | succ n ih =>
    rcases probeLoop_succ t p b d n i with ⟨hs, he⟩ | ⟨hs, he⟩
    · rw [he]
      constructor
      · intro h
        exact ⟨0, by omega, by simpa using h.symm, by simpa using hs, by omega⟩
      · rintro ⟨k, _, rfl, _, hb⟩
        cases k with
        | zero => rfl
        | succ k => exact absurd hs (hb 0 (by omega))
    · rw [he, ih]
      constructor
      · rintro ⟨k, hk, hr, h1, h2⟩
        refine ⟨k + 1, by omega, hr, h1, fun j hj => ?_⟩
        cases j with
        | zero => exact hs
        | succ j => exact h2 j (by omega)
      · rintro ⟨k, hk, hr, h1, h2⟩
        cases k with
        | zero => exact absurd h1 hs
        | succ k => exact ⟨k, by omega, hr, h1, fun j hj => h2 (j + 1) (by omega)⟩

/-- No answer: the loop stops at none of the first `n` slots of the path. -/
theorem probeLoop_eq_none (t : Table) (p : Code) (b : Byte) (d : SlotIx) (n : Nat) (i : SlotIx) :
    probeLoop t p b d n i = none ↔ ∀ k, k < n → ¬ stopsAt t p b (probeIter d k i).toNat := by
  induction n generalizing i with
  | zero => simp [probeLoop]
  | succ n ih =>
    rcases probeLoop_succ t p b d n i with ⟨hs, he⟩ | ⟨hs, he⟩
    · rw [he]
      constructor
      · intro h; simp at h
      · intro h; exact absurd hs (h 0 (by omega))
    · rw [he, ih]
      constructor
      · intro h k hk
        cases k with
        | zero => exact hs
        | succ k => exact h k (by omega)
      · intro h k hk; exact h (k + 1) (by omega)

/-- Everything LOOKUP can do when it answers: it writes `idx` and `stride`, and the slot it returns is the first of the
path that is empty or holds the key (R63). -/
theorem lookup_cases (p : Code) (b : Byte) (s t : State) (i : SlotIx) (h : lookup p b s = some (i, t)) :
    t = setProbe i (strideOf (homeIndex p b)) s ∧ i.toNat < TABLE_SIZE ∧ stopsAt s.table p b i.toNat := by
  unfold lookup at h
  split at h
  · simp at h
  · rename_i r hr
    simp only [Option.some.injEq, Prod.mk.injEq] at h
    obtain ⟨rfl, rfl⟩ := h
    obtain ⟨k, _, rfl, hs, _⟩ := (probeLoop_eq_some _ _ _ _ _ _ _).1 hr
    exact ⟨rfl, probeIter_lt _ _ (homeIndex_lt_tableSize p b)
      (strideOf_range _ (homeIndex_lt_tableSize p b)).2 k, hs⟩

theorem lookup_eq_none (p : Code) (b : Byte) (s : State) : lookup p b s = none ↔ lookupSlot s.table p b = none := by
  unfold lookup; split <;> simp_all

end Sys2Proof.Machine
end

