-- ==== Sys2Proof/Laws/Exec.lean ====
section
/-! SUPPORT. Everything an event, a run, an edge and a step can do when it answers a next state: one inversion lemma
each, which later proofs cite instead of unfolding the meanings. -/

namespace Sys2Proof.Machine

open Sys2Proof Sys2Proof.Config

/-! Runs. -/

@[simp] theorem andThen_next (s : State) (f : State → Result) : andThen (.next s) f = f s := rfl
@[simp] theorem andThen_fault (e : Fault) (f : State → Result) : andThen (.fault e) f = .fault e := rfl
@[simp] theorem andThen_refused (e : Refusal) (f : State → Result) : andThen (.refused e) f = .refused e := rfl

theorem andThen_eq_next (r : Result) (f : State → Result) (t : State) :
    andThen r f = .next t ↔ ∃ u, r = .next u ∧ f u = .next t := by
  cases r <;> simp

@[simp] theorem runEvents_nil (s : State) : runEvents [] s = .next s := rfl

theorem runEvents_cons (i : Instr) (is : List Instr) (s : State) :
    runEvents (i :: is) s = andThen (exec i s) (runEvents is) := rfl

theorem runEvents_append (is js : List Instr) (s : State) :
    runEvents (is ++ js) s = andThen (runEvents is s) (runEvents js) := by
  induction is generalizing s with
  | nil => rfl
  | cons i is ih =>
    simp only [List.cons_append, runEvents_cons]
    cases exec i s <;> simp [ih]

/-! The events. -/

/-- START answers next only where it is enabled, and then with a fresh session (R92, R99). -/
theorem execStart_next (s t : State) : execStart s = .next t ↔ startEnabled s = true ∧ t = startSession s := by
  unfold execStart
  split
  · rename_i h; simp only [h, true_and, Host.Outcome.next.injEq]; exact eq_comm
  · rename_i h; simp [h]

/-- POP answers next only with a byte at the head of the queue (R112). -/
theorem execPop_next (s t : State) :
    execPop s = .next t ↔ ∃ e q, s.outq = e :: q ∧ t = { s with outq := q, sunk := s.sunk ++ [e.byte] } := by
  unfold execPop
  cases h : s.outq with
  | nil => simp
  | cons e q =>
    constructor
    · intro hh; exact ⟨e, q, rfl, (by simpa using hh.symm)⟩
    · rintro ⟨e', q', heq, rfl⟩
      simp only [List.cons.injEq] at heq
      obtain ⟨rfl, rfl⟩ := heq
      rfl

/-- FAIL always answers next: taken while a session is active, ignored otherwise (R121). -/
theorem execFail_next (m : FailMask) (s t : State) :
    execFail m s = .next t ↔ t = if busy s then takeFailure m s else s := by
  unfold execFail; split <;> simp [eq_comm]

/-- What one step of the match loop can do (R94 to R96). -/
theorem matchByte_next (c : Code) (d : Byte) (s t : State) (h : matchByte c d s = .next t) :
    ∃ i, lookupSlot s.table c d = some i ∧
      ((∃ e, memRead s.table i.toNat = some e ∧ t = extend e (setProbe i (strideOf (homeIndex c d)) s)) ∨
        (memRead s.table i.toNat = none ∧ t = miss i c d (setProbe i (strideOf (homeIndex c d)) s))) := by
  unfold matchByte lookup at h
  cases hl : lookupSlot s.table c d with
  | none => simp [hl] at h
  | some i =>
    refine ⟨i, rfl, ?_⟩
    simp only [hl, setProbe_table] at h
    cases hm : memRead s.table i.toNat with
    | none => right; simpa [hm, eq_comm] using h
    | some e => left; refine ⟨e, rfl, ?_⟩; simpa [hm, eq_comm] using h

/-- What BYTE can do when it answers next (R93, R94). -/
theorem execByte_next (d : Byte) (s t : State) (h : execByte d s = .next t) :
    (s.phase = .seed ∧ t = seedByte d s) ∨
      (s.phase = .matching ∧ ∃ c, s.cur = some c ∧ matchByte c d s = .next t) := by
  unfold execByte at h
  rw [if_neg (not_roots_le_byte d)] at h
  cases hp : s.phase <;> simp only [hp] at h
  · exact absurd h (by simp)
  · left; simpa [eq_comm] using h
  · right
    cases hc : s.cur with
    | none => simp [hc] at h
    | some c => exact ⟨rfl, c, rfl, by simpa [hc] using h⟩
  · exact absurd h (by simp)
  · exact absurd h (by simp)

/-- What END can do when it answers next (R97, R98). -/
theorem execEnd_next (s t : State) (h : execEnd s = .next t) :
    (s.phase = .seed ∧ t = finish s) ∨
      (s.phase = .matching ∧ ∃ c, s.cur = some c ∧ t = finish (emit c s)) := by
  unfold execEnd at h
  cases hp : s.phase <;> simp only [hp] at h
  · exact absurd h (by simp)
  · left; simpa [eq_comm] using h
  · right
    cases hc : s.cur with
    | none => simp [hc] at h
    | some c => exact ⟨rfl, c, rfl, by simpa [hc, eq_comm] using h⟩
  · exact absurd h (by simp)
  · exact absurd h (by simp)

/-! The step. -/

/-- What a step can do when it answers next: nothing is left to do, or one move is made. -/
theorem step_next (s t : State) (h : step s = .next t) :
    (s.inputs = [] ∧ t = s) ∨
      (∃ w rest i, s.inputs = .word w :: rest ∧ decodeEvent w = .ok i ∧ exec i (takeInput rest s) = .next t) ∨
      (∃ ws rest i, s.inputs = .trace ws :: rest ∧ decodeLine ws = .ok i ∧ exec i (takeInput rest s) = .next t) ∨
      (∃ p rest, s.inputs = .edge p :: rest ∧ edge p (takeInput rest s) = .next t) := by
  unfold step fetch at h
  rcases hi : s.inputs with _ | ⟨x, rest⟩
  · left; refine ⟨rfl, ?_⟩; simpa [hi, eq_comm] using h
  · cases x with
    | word w =>
      right; left
      simp only [hi] at h
      cases hd : decodeEvent w with
      | error e => simp [hd] at h
      | ok i => exact ⟨w, rest, i, rfl, hd, by simpa [hd] using h⟩
    | trace ws =>
      right; right; left
      simp only [hi] at h
      cases hd : decodeLine ws with
      | error e => simp [hd] at h
      | ok i => exact ⟨ws, rest, i, rfl, hd, by simpa [hd] using h⟩
    | edge p =>
      right; right; right
      simp only [hi] at h
      exact ⟨p, rest, rfl, h⟩

/-- A script word decodes to an event only (R48). -/
theorem decodeEvent_isEvent (w : EventWord) (i : Instr) (h : decodeEvent w = .ok i) : i.isEvent = true := by
  unfold decodeEvent noArg failMaskOf at h
  simp only at h
  repeat' split at h
  all_goals first
    | (injection h with h; subst h; rfl)
    | (simp at h)

/-- After a LOOKUP `hit` says whether the slot it returned is populated (10_state.md R21). -/
theorem hit_lookup (p : Code) (b : Byte) (s t : State) (i : SlotIx) (h : lookup p b s = some (i, t))
    (hp : s.phase ≠ .idle) : hit t = populated (memRead s.table i.toNat) := by
  unfold lookup at h
  split at h
  · simp at h
  · simp only [Option.some.injEq, Prod.mk.injEq] at h
    obtain ⟨rfl, rfl⟩ := h
    unfold hit setProbe
    cases hq : s.phase <;> simp_all

/-- `hit` is driven 0 in IDLE (R21, R26). -/
theorem hit_idle (s : State) (h : s.phase = .idle) : hit s = false := by unfold hit; rw [h]

end Sys2Proof.Machine
end

