-- ==== Sys2Proof/Laws/PerInstr.lean ====
section
/-! SUPPORT. Facts that hold of every instruction as syntax, one lemma per constructor: its event word is the one that
its row of spec/opcode_table.json covers (30_encoding.md R46, R47). -/

namespace Sys2Proof.Laws.RowOfMnemonic

open Sys2Proof

/-- The row of the instruction's mnemonic covers its event word, and no other row does. -/
def Statement (i : Instr) : Prop :=
  (opcodeRows.filter fun r => r.covers i.eventWord).map OpRow.mnemonic = [i.mnemonic]

/-- Which rows cover a word, by their mnemonics. -/
theorem ofWord (w : EventWord) (m : String) (h : (opcodeRows.filter fun r => r.covers w).map OpRow.mnemonic = [m]) :
    (opcodeRows.filter fun r => r.covers w).map OpRow.mnemonic = [m] := h

theorem byte (d : Byte) : Statement (.byte d) := by
  have : ∀ d : Byte, (opcodeRows.filter fun r => r.covers (Instr.byte d).eventWord).map OpRow.mnemonic = ["BYTE"] := by
    decide
  exact this d
theorem endInput : Statement .endInput := rfl
theorem start : Statement .start := rfl
theorem fail (m : FailMask) : Statement (.fail m) := by cases m <;> rfl
theorem pop : Statement .pop := rfl
theorem reset : Statement .reset := rfl
theorem hash (p : Code) (b : Byte) : Statement (.hash p b) := ofWord 0x1000#13 "HASH" (by decide)
theorem stride (h : SlotIx) : Statement (.stride h) := ofWord 0x1100#13 "STRIDE" (by decide)
theorem next (i d : SlotIx) : Statement (.next i d) := ofWord 0x1200#13 "NEXT" (by decide)
theorem lookup (p : Code) (b : Byte) : Statement (.lookup p b) := ofWord 0x1300#13 "LOOKUP" (by decide)
theorem insert (i : SlotIx) (a p : Code) (b : Byte) : Statement (.insert i a p b) :=
  ofWord 0x1400#13 "INSERT" (by decide)
theorem tinit : Statement .tinit := rfl
theorem sinit : Statement .sinit := rfl
theorem alloc : Statement .alloc := rfl
theorem pinit : Statement .pinit := rfl
theorem emit (c : Code) : Statement (.emit c) := ofWord 0x1900#13 "EMIT" (by decide)
theorem flush : Statement .flush := rfl

end Sys2Proof.Laws.RowOfMnemonic
end

