-- ==== Sys2Proof/Laws/Session.lean ====
section
/-! SUPPORT. The invariant of a fresh session: whatever came before START, its table, counter and accumulator meet
10_state.md R25. -/

namespace Sys2Proof.Machine

open Sys2Proof Sys2Proof.Config

/-- A populated slot of TINIT's table is a root slot and holds its root record. -/
theorem initialTable_populated (i : Nat) (e : Entry) (h : memRead initialTable i = some e) :
    i < ROOTS ∧ e = rootEntry i := by
  rw [memRead_initialTable] at h
  split at h
  · rename_i hi; exact ⟨hi, (by simpa using h.symm)⟩
  · simp at h

/-- The session invariant where nothing has been learnt yet. -/
theorem sessionInv_fresh (s : State) (ht : s.table = initialTable) (hn : s.nextCode = FIRST_CODE)
    (hb : s.bitBuffer = 0#19) (hp : s.pendingBits = 0#5)
    (hc : s.phase = .matching → ∃ d : Byte, s.cur = some d.toCode) : SessionInv s where
  roots i hi := by rw [ht, memRead_initialTable, if_pos hi]
  codesBelow i e hi h := by have := (initialTable_populated i e (ht ▸ h)).1; omega
  codesPresent a h1 h2 := by rw [hn] at h2; omega
  codesUnique i j e f hi _ h _ _ := by have := (initialTable_populated i e (ht ▸ h)).1; omega
  count := by rw [ht, hn, length_initialTable]; simp
  links i e hi h := by have := (initialTable_populated i e (ht ▸ h)).1; omega
  keysUnique i j e f h1 h2 _ hk := by
    obtain ⟨hi, rfl⟩ := initialTable_populated i e (ht ▸ h1)
    obtain ⟨hj, rfl⟩ := initialTable_populated j f (ht ▸ h2)
    have := congrArg BitVec.toNat hk
    simp only [rootEntry, BitVec.toNat_ofNat] at this
    rw [ROOTS_eq] at hi hj
    omega
  onPath i e p h hp := by
    obtain ⟨_, rfl⟩ := initialTable_populated i e (ht ▸ h)
    simp [rootEntry] at hp
  counter := by rw [hn]
  pending := Or.inl hp
  buffer := by rw [hb, hp]; decide
  cur hm := by
    obtain ⟨d, hd⟩ := hc hm
    refine ⟨_, hd, Or.inl ?_⟩
    have := d.isLt
    rw [BitVec.toNat_setWidth, ROOTS_eq]; omega

/-- START establishes the invariant, whatever the state before it was. -/
theorem inv_startSession (s : State) (hx : ∀ x ∈ s.inputs, x.external = true) : Inv (startSession s) where
  table := wf_initialTable
  session _ := sessionInv_fresh _ rfl rfl rfl rfl (by simp)
  queueEmpty _ := rfl
  queueOpen h := by simp at h
  queueClosed h := by simp at h
  curNone _ := rfl
  accumulatorEmpty _ := ⟨rfl, rfl⟩
  cause := by simp
  external := hx

end Sys2Proof.Machine
end

