-- ==== Sys2Proof/Tests/Slice0.lean ====
section
/-! SUPPORT. The model's own tests: the ill-formed terms that WellFormed refuses, words written out from
30_encoding.md R46 and R47, vectors of 95_test_vectors.md (named T1 to T25, P1 to P7 in each comment), and for each
statement with hypotheses a witness that meets them all. -/

namespace Sys2Proof.Tests

open Sys2Proof Sys2Proof.Machine Sys2Proof.Config

/-- A field of the next state, if there is one. -/
def after {α : Type} (r : Result) (f : State → α) : Option α :=
  match r with
  | .next t => some (f t)
  | .fault _ => none
  | .refused _ => none

/-- Why a run stopped, if it stopped with a fault. -/
def faultOf (r : Result) : Option Fault :=
  match r with
  | .next _ => none
  | .fault e => some e
  | .refused _ => none

/-- Why a run was refused, if it was. -/
def refusalOf (r : Result) : Option Refusal :=
  match r with
  | .next _ => none
  | .fault _ => none
  | .refused e => some e

/-- A small state: MATCHING on `cur`, the given slots and accumulator. -/
def small (cur : Code) (t : Table) (buf : BitBuf) (n : BitCount) : State :=
  { State.reset with phase := .matching, cur := some cur, table := t, bitBuffer := buf, pendingBits := n }

/-! WellFormed refuses each ill-formed operand. -/

theorem test_wf_byte_outside_roots : (Instr.byte 0x80#8).wellFormedFor 128 = false := by decide
theorem test_wf_byte : (Instr.byte 0xFF#8).wellFormed = true := by decide
theorem test_wf_hash_prefix : (Instr.hash 0xFFF#12 0#8).wellFormed = false := by decide
theorem test_wf_stride_home : (Instr.stride 4096#13).wellFormed = false := by decide
theorem test_wf_next_slot : (Instr.next 5021#13 1#13).wellFormed = false := by decide
theorem test_wf_next_zero : (Instr.next 0#13 0#13).wellFormed = false := by decide
theorem test_wf_next_stride : (Instr.next 0#13 5021#13).wellFormed = false := by decide
theorem test_wf_lookup_prefix : (Instr.lookup 0xFFF#12 0#8).wellFormed = false := by decide
theorem test_wf_lookup_byte : (Instr.lookup 0#12 0x80#8).wellFormedFor 128 = false := by decide
theorem test_wf_insert_root : (Instr.insert 255#13 256#12 0#12 0#8).wellFormed = false := by decide
theorem test_wf_insert_slot : (Instr.insert 5021#13 256#12 0#12 0#8).wellFormed = false := by decide
theorem test_wf_insert_low_code : (Instr.insert 256#13 255#12 0#12 0#8).wellFormed = false := by decide
theorem test_wf_insert_sentinel : (Instr.insert 256#13 0xFFF#12 0#12 0#8).wellFormed = false := by decide
theorem test_wf_insert_prefix : (Instr.insert 256#13 256#12 256#12 0#8).wellFormed = false := by decide
theorem test_wf_insert_byte : (Instr.insert 256#13 256#12 0#12 0x80#8).wellFormedFor 128 = false := by decide
theorem test_wf_insert : (Instr.insert 1105#13 0x100#12 0x041#12 0x41#8).wellFormed = true := by decide

/-! Words written out bit by bit from R46 and R47 (`cls op arg`), and T24. -/

theorem test_word_byte : decodeEvent 0b0000001000001#13 = .ok (.byte 0x41#8) := by decide
theorem test_word_end : decodeEvent 0b0000100000000#13 = .ok .endInput := by decide
theorem test_word_start : decodeEvent 0b0001000000000#13 = .ok .start := by decide
theorem test_word_fail_in : decodeEvent 0b0001100000001#13 = .ok (.fail .input) := by decide
theorem test_word_fail_both : decodeEvent 0b0001100000011#13 = .ok (.fail .both) := by decide
theorem test_word_pop : decodeEvent 0b0010000000000#13 = .ok .pop := by decide
theorem test_word_reset : decodeEvent 0b0010100000000#13 = .ok .reset := by decide
theorem test_word_fail_zero : decodeEvent 0x0300#13 = .error .reserved := by decide
theorem test_word_fail_high : decodeEvent 0x0304#13 = .error .reserved := by decide
theorem test_word_end_arg : decodeEvent 0x0101#13 = .error .reserved := by decide
theorem test_word_op6 : decodeEvent 0x0600#13 = .error .reserved := by decide
theorem test_word_internal : decodeEvent 0x1900#13 = .error .internal := by decide
theorem test_word_internal_reserved : decodeEvent 0x1B00#13 = .error .reserved := by decide
theorem test_line_hash : decodeLine [0b0001000000000000#16, 0x041#16, 0x41#16] = .ok (.hash 0x041#12 0x41#8) := by decide
theorem test_line_stride : decodeLine [0b0001000100000000#16, 1105#16] = .ok (.stride 1105#13) := by decide
theorem test_line_next : decodeLine [0b0001001000000000#16, 1105#16, 3916#16] = .ok (.next 1105#13 3916#13) := by decide
theorem test_line_lookup : decodeLine [0b0001001100000000#16, 0x041#16, 0x41#16] = .ok (.lookup 0x041#12 0x41#8) := by
  decide
theorem test_line_insert : decodeLine [0b0001010000000000#16, 1105#16, 0x100#16, 0x041#16, 0x41#16]
    = .ok (.insert 1105#13 0x100#12 0x041#12 0x41#8) := by decide
theorem test_line_tinit : decodeLine [0b0001010100000000#16] = .ok .tinit := by decide
theorem test_line_sinit : decodeLine [0b0001011000000000#16] = .ok .sinit := by decide
theorem test_line_alloc : decodeLine [0b0001011100000000#16] = .ok .alloc := by decide
theorem test_line_pinit : decodeLine [0b0001100000000000#16] = .ok .pinit := by decide
theorem test_line_emit : decodeLine [0b0001100100000000#16, 0xFFF#16] = .ok (.emit 0xFFF#12) := by decide
theorem test_line_flush : decodeLine [0b0001101000000000#16] = .ok .flush := by decide
theorem test_line_wide_operand : decodeLine [0x1900#16, 0x1000#16] = .error .operandTooWide := by decide
theorem test_line_missing_operand : decodeLine [0x1000#16, 0x041#16] = .error .missingOperand := by decide
theorem test_line_trailing : decodeLine [0x1A00#16, 0#16] = .error .trailingWords := by decide
theorem test_line_high_bits : decodeLine [0x2000#16] = .error .notAnEventWord := by decide
theorem test_line_empty : decodeLine [] = .error .emptyLine := by decide
theorem test_script_position : decodeScript 1 [0x0500#13, 0x0200#13, 0x1000#13] = .error (3, .internal) := by decide
theorem test_table_word_byte : decodeTableWord 16 0x0041 = some (.byte 0x41#8) := by decide
theorem test_table_word_insert : decodeTableWord 16 0x1400 = some (.insert 0#13 0#12 0#12 0#8) := by decide

/-! T8, T9, T10: HASH, STRIDE, NEXT. -/

theorem test_hash_scenario_and_cancelling : homeIndex 0x041#12 0x41#8 = 1105#13 ∧ homeIndex 0xFFE#12 0xFF#8 = 0x00E#13 := by
  decide
theorem test_stride_ends : strideOf 0#13 = 1#13 ∧ strideOf 4095#13 = 926#13 := by decide
theorem test_next_wraps : nextIndex 0#13 1#13 = 5020#13 ∧ nextIndex 1105#13 3916#13 = 2210#13 := by decide
theorem test_exec_hash : after (exec (.hash 0x00F#12 0xFF#8) State.reset) State.ret = some (.slot 4095#13) := by decide
theorem test_exec_stride : after (exec (.stride 1#13) State.reset) State.ret = some (.stride 5020#13) := by decide
theorem test_exec_next : after (exec (.next 100#13 100#13) State.reset) State.ret = some (.slot 0#13) := by decide

/-! T11, T12: LOOKUP, TINIT, INSERT, slot words. -/

theorem test_lookup_collision_and_hit :
    let t : Table := [(1105, ⟨0x100#12, some 0x041#12, 0x41#8⟩)]
    lookupSlot t 0x051#12 0x40#8 = some 2210#13 ∧
      after (exec (.lookup 0x041#12 0x41#8) (small 0#12 t 0#19 0#5)) State.ret = some (.slot 1105#13) := by decide +kernel
theorem test_lookup_passes_roots : lookupSlot initialTable 0x300#12 0x30#8 = some 5020#13 ∧
    lookupSlot initialTable 0x0FF#12 0x0F#8 = some 270#13 := by decide +kernel
theorem test_tinit_root :
    after (exec .tinit State.reset) (fun t => packSlot (memRead t.table 65)) = some 0x041FFF41#32 := by decide +kernel
theorem test_tinit_empty :
    after (exec .tinit State.reset) (fun t => packSlot (memRead t.table 256)) = some 0xFFFFFF00#32 := by decide +kernel
theorem test_insert_word :
    after (exec (.insert 479#13 0xFFE#12 0x0DC#12 0#8) State.reset) (fun t => packSlot (memRead t.table 479))
      = some 0xFFE0DC00#32 := by decide +kernel
theorem test_insert_no_slot : faultOf (exec (.insert 5021#13 0x100#12 0#12 0#8) State.reset) = some .noSuchSlot := by
  decide

/-! T13: SINIT, ALLOC. -/

theorem test_sinit : after (exec .sinit { State.reset with nextCode := 9#12 }) State.nextCode = some 256#12 := by decide
theorem test_alloc_last : after (exec .alloc { State.reset with nextCode := 4094#12 }) (fun t => (t.ret, t.nextCode))
    = some (.code (some 4094#12), 4095#12) := by decide
theorem test_alloc_none : after (exec .alloc { State.reset with nextCode := 4095#12 }) (fun t => (t.ret, t.nextCode))
    = some (.code none, 4095#12) := by decide

/-! T14: PINIT, EMIT, FLUSH. -/

/-- The accumulator and the bytes of the queue. -/
def packer (t : State) : BitBuf × BitCount × List Byte := (t.bitBuffer, t.pendingBits, t.outq.map OutEntry.byte)

theorem test_pinit : after (exec .pinit (small 0#12 [] 0xF#19 4#5)) packer = some (0#19, 0#5, []) := by decide
theorem test_emit_first : after (exec (.emit 0x041#12) (small 0#12 [] 0#19 0#5)) packer
    = some (1#19, 4#5, [0x04#8]) := by decide
theorem test_emit_second : after (exec (.emit 0xDEF#12) (small 0#12 [] 0xC#19 4#5)) packer
    = some (0#19, 0#5, [0xCD#8, 0xEF#8]) := by decide
theorem test_flush_nibble : after (exec .flush (small 0#12 [] 0xC#19 4#5)) packer = some (0#19, 0#5, [0xC0#8]) := by
  decide
theorem test_flush_empty : after (exec .flush (small 0#12 [] 0#19 0#5)) packer = some (0#19, 0#5, []) := by decide

/-! T1, T16, T20, T21, P1 to P7: the events. -/

/-- A fresh session. -/
def fresh : State := startSession State.reset

theorem test_start : after (exec .start State.reset) (fun t => (t.phase, t.nextCode, memRead t.table 65))
    = some (.seed, 0x100#12, some ⟨0x041#12, none, 0x41#8⟩) := by decide +kernel
theorem test_start_in_session : faultOf (exec .start { fresh with line := 5 }) = some (.stuck 5) := by decide
theorem test_byte_seed_and_hit :
    after (exec (.byte 0x41#8) fresh) (fun t => (t.phase, t.cur)) = some (.matching, some 0x041#12) ∧
    after (exec (.byte 0x41#8) (small 0x041#12 [(1105, ⟨0x100#12, some 0x041#12, 0x41#8⟩)] 1#19 4#5))
      (fun t => (t.cur, t.nextCode, packer t)) = some (some 0x100#12, 0x100#12, (1#19, 4#5, [])) := by decide +kernel
theorem test_byte_miss :
    after (exec (.byte 0x41#8) (small 0x041#12 [] 0#19 0#5))
      (fun t => (t.cur, t.nextCode, packSlot (memRead t.table 1105))) = some (some 0x041#12, 0x101#12, 0x10004141#32) ∧
    after (exec (.byte 0x41#8) (small 0x041#12 [] 0#19 0#5)) packer = some (1#19, 4#5, [0x04#8]) := by decide +kernel
theorem test_end_single : after (exec .endInput (small 0x041#12 [] 0#19 0#5)) (fun t => (t.phase, t.outq))
    = some (.drained, [⟨false, 0x04#8⟩, ⟨false, 0x1F#8⟩, ⟨true, 0xFF#8⟩]) := by decide
theorem test_end_empty_input : after (exec .endInput fresh) (fun t => (t.phase, t.outq, t.cur))
    = some (.drained, [⟨false, 0xFF#8⟩, ⟨true, 0xF0#8⟩], none) ∧
    faultOf (exec .endInput State.reset) = some (.stuck 0) := by decide
theorem test_pop : after (exec .pop { fresh with phase := .drained, outq := [⟨false, 4#8⟩, ⟨true, 9#8⟩] })
    (fun t => (t.outq, t.sunk)) = some ([⟨true, 9#8⟩], [4#8]) := by decide
theorem test_pop_empty : faultOf (exec .pop State.reset) = some (.stuck 0) := by decide
theorem test_fail_taken :
    after (exec (.fail .output) { fresh with phase := .matching, outq := [⟨false, 0x10#8⟩], sunk := [0x04#8] })
      (fun t => (t.phase, t.failCause, t.outq, t.sunk)) = some (.failed, 2#2, [], [0x04#8]) := by decide
theorem test_fail_ignored :
    after (exec (.fail .input) { State.reset with phase := .failed, failCause := 2#2 }) (fun t => (t.phase, t.failCause))
      = some (.failed, 2#2) := by decide
theorem test_reset :
    after (exec .reset { fresh with phase := .drained, outq := [⟨true, 0xFF#8⟩], sunk := [4#8] })
      (fun t => (t.phase, t.outq, t.sunk, done t, hit t)) = some (.idle, [], [], false, false) := by decide
theorem test_scenario_codes : (codesOf hw [0x41, 0x41, 0x41, 0x41]).map Codes.codes = .ok [0x041, 0x100, 0x041] := by
  decide +kernel
theorem test_scenario_bytes : compress hw [0x41#8, 0x41#8, 0x41#8, 0x41#8]
    = .ok [0x04#8, 0x11#8, 0x00#8, 0x04#8, 0x1F#8, 0xFF#8] := by decide +kernel
/-- T23: the small configuration. -/
theorem test_small_configuration :
    compress { bits := 9, tableSize := 521, hashShift := 1, roots := 256, firstCode := 256 }
      [0x41#8, 0x41#8, 0x41#8, 0x41#8] = .ok [0x20#8, 0xC0#8, 0x08#8, 0x3F#8, 0xF0#8] := by decide +kernel
/-- A composite table size is refused by name (R4 item 4). -/
theorem test_illegal_parameters : compress { hw with tableSize := 5022 } [] = .error (.illegalParameters .tableNotPrime) := by
  decide +kernel
/-- A byte without a root is refused (R4 item 5). -/
theorem test_byte_without_root : compress { hw with roots := 128 } [0x7F#8, 0x80#8] = .error .byteOutsideRoots := by
  decide +kernel
/-- P5: stuck at line 2. -/
theorem test_script_p5 :
    faultOf (match parseScript "RESET\nBYTE 0x41".toList with
      | .ok ls => runScript ls State.reset
      | .error _ => .refused .byteOutsideRoots) = some (.stuck 2) := by decide +kernel
/-- R56: the three forms of a value, a cause, a comment. -/
theorem test_script_syntax : [parseLine "BYTE 0x4".toList, parseLine "BYTE 65".toList, parseLine "BYTE ' '".toList,
    parseLine "FAIL BOTH".toList, parseLine "# x".toList, parseLine "SESSION \"A\"".toList, parseLine "BYTE 256".toList]
    = [some (.event (.byte 4#8)), some (.event (.byte 65#8)), some (.event (.byte 32#8)), some (.event (.fail .both)),
       some .ignored, some (.session [0x41#8]), none] := by decide +kernel

/-! T19: the ports. -/

/-- A token offered and a byte taken on one edge. -/
def bothPorts : PortsIn := { idleEdge with inValid := true, inData := 0x41#8, outReady := true }

theorem test_edge_reset : edgeEvents { bothPorts with rst := true, inFail := true } fresh = [.reset] := by decide
theorem test_edge_fail : edgeEvents { bothPorts with outFail := true } { fresh with phase := .matching } = [.fail .output] := by
  decide
theorem test_edge_fail_both :
    edgeEvents { bothPorts with inFail := true, outFail := true } { fresh with phase := .matching } = [.fail .both] := by
  decide
theorem test_edge_start : edgeEvents { idleEdge with start := true, inFail := true } State.reset = [.start] := by decide
theorem test_edge_end_in_seed : edgeEvents { bothPorts with inEnd := true } fresh = [.endInput] := by decide
theorem test_status_done : (portsOut { fresh with phase := .drained }).done = true := by decide

/-! The step on a placed word (the host's interface). -/

theorem test_step_start : after (step (State.reset.withFetchWord 16 0x0200)) (fun t => (t.phase, t.line))
    = some (.seed, 1) := by decide
theorem test_step_operation : after (step (State.reset.withFetchWord 16 0x1700)) State.ret
    = some (.code (some 256#12)) := by decide
theorem test_step_reserved : refusalOf (step (State.reset.withFetchWord 16 0x0600))
    = some (.undecodable 1 .reserved) := by decide
theorem test_step_internal_in_script : refusalOf (step { State.reset with inputs := [.word 0x1700#13] })
    = some (.undecodable 1 .internal) := by decide

/-! Witnesses: for each statement with hypotheses, a state and operands that meet them. -/

theorem witness_StepRunsDecodedInstruction :
    ({ State.reset with inputs := [.word 0x0200#13] } : State).inputs = .word 0x0200#13 :: [] ∧
      decodeEvent 0x0200#13 = .ok .start ∧ decodeLine [0x1A00#16] = .ok .flush ∧ decodeEvent 0x0600#13 = .error .reserved ∧
      decodeLine [] = .error .emptyLine ∧ State.reset.inputs = [] ∧ decodeTableWord 16 0x1A00 = some .flush := by decide

theorem witness_LookupReturnsFirstStop : hasEmptySlot initialTable := ⟨256, by decide, by
  rw [memRead_initialTable, if_neg (by decide)]⟩

/-- A table in which every slot is populated: LOOKUP does not end there. -/
theorem witness_LookupHangsOnlyOnFullTable (p : Code) (b : Byte) :
    ∀ i, i < 5021 → ∃ e, memRead (tableFrom (fun j => some (rootEntry j)) 0 5021) i = some e ∧
      ¬ (e.prefixCode = some p ∧ e.appendedByte = b) := by
  intro i hi
  refine ⟨rootEntry i, by rw [memRead_tableFrom, if_pos (by omega)], ?_⟩
  simp [rootEntry]

theorem witness_LookupHangsOnlyOnFullTable_bound :
    State.reset.table.wf ∧ (after (exec (.lookup 0x041#12 0x41#8) State.reset) State.ret) = some (.slot 1105#13) :=
  ⟨wf_reset, by decide +kernel⟩

/-- Boundary operands of each clause: home indices 0 and 4095, and an operand outside R61's range. -/
theorem witness_StrideFormula : (0#13).toNat < 4096 ∧ strideOf 0#13 = 1#13 ∧ (4095#13).toNat < 4096 ∧
    strideOf 4095#13 = 926#13 ∧ ¬ (4096#13).toNat < 4096 := by decide

theorem witness_NextSubtractsModulo : (5020#13).toNat < 5021 ∧ 1 ≤ (1#13).toNat ∧ nextIndex 5020#13 1#13 = 5019#13 ∧
    nextIndex 0#13 5020#13 = 1#13 := by decide

/-- R67's examples for `h = 0`, and `2 * 4095 mod 5021`. -/
theorem witness_ProbeClosedForm : (4095#13).toNat < 4096 ∧ 4095#13 ≠ 0#13 ∧
    probeIter (strideOf 4095#13) 1 4095#13 = 3169#13 ∧ probeIter (strideOf 0#13) 2 0#13 = 5019#13 := by decide

theorem witness_ProbeVisitsEverySlotOnce : (4095#13).toNat < 4096 ∧ (5020 : Nat) < 5021 := by decide

/-- The last slot, and the first index that names none. -/
theorem witness_InsertWritesOneSlot : (5020#13).toNat < 5021 ∧ 5021 ≤ (5021#13).toNat ∧ State.reset.table.wf :=
  ⟨by decide, by decide, wf_reset⟩

theorem witness_SinitAndAlloc : ({ State.reset with nextCode := 4094#12 } : State).nextCode.toNat ≤ 4094 ∧
    ({ State.reset with nextCode := 0xFFF#12 } : State).nextCode = 0xFFF#12 := by decide

/-- R85 at 0, at 7 (the most that R86 allows) and above. -/
theorem witness_PinitAndFlush : (small 0#12 [] 0#19 0#5).pendingBits = 0#5 ∧ (small 0#12 [] 0x7F#19 7#5).pendingBits ≠ 0#5 ∧
    after (exec .flush (small 0#12 [] 0x7F#19 7#5)) packer = some (0#19, 0#5, [0xFE#8]) ∧
    (small 0#12 [] 0#19 9#5).pendingBits ≠ 0#5 := by decide

theorem witness_RootSlotsNeverMatch :
    (∀ i, i < ROOTS → memRead fresh.table i = some (rootEntry i)) ∧
      (after (exec (.lookup 0x300#12 0x30#8) fresh) State.ret) = some (.slot 5020#13) :=
  ⟨fun i hi => by rw [show fresh.table = initialTable from rfl, memRead_initialTable, if_pos hi], by decide +kernel⟩

theorem witness_SlotWordRoundTrip :
    (rootEntry 65).assignedCode.toNat ≤ MAX_CODE.toNat ∧ (0x041#12).toNat ≤ MAX_CODE.toNat := by decide

theorem witness_PackLengthAndPadding : 1 ≤ BITS ∧ [0xFFF].length * BITS % 8 ≠ 0 ∧ [0xFFF].length % 2 = 1 ∧
    [0x041, 0xFFF].length % 2 = 0 := by decide

theorem witness_StartCreatesSession : State.reset.phase = .idle ∧ fresh.phase = .seed ∧
    ({ fresh with phase := .drained } : State).outq = [] := by decide

theorem witness_ByteSeedsMatch : fresh.phase = .seed := by decide

theorem witness_ByteExtendsOnHit :
    let s := small 0x041#12 [(1105, ⟨0x100#12, some 0x041#12, 0x41#8⟩)] 1#19 4#5
    s.phase = .matching ∧ s.cur = some 0x041#12 ∧
      (after (exec (.lookup 0x041#12 0x41#8) s) State.ret) = some (.slot 1105#13) ∧
      memRead s.table 1105 = some ⟨0x100#12, some 0x041#12, 0x41#8⟩ := by decide +kernel

theorem witness_ByteMissEmitsAndGrows :
    let s := small 0x041#12 [] 0#19 0#5
    s.phase = .matching ∧ s.cur = some 0x041#12 ∧
      (after (exec (.lookup 0x041#12 0x41#8) s) State.ret) = some (.slot 1105#13) ∧ memRead s.table 1105 = none ∧
      s.nextCode.toNat ≤ 4094 ∧ ({ s with nextCode := 0xFFF#12 } : State).nextCode = 0xFFF#12 := by decide +kernel

theorem witness_ByteCompletesInMatching :
    (small 0x041#12 [] 0#19 0#5).phase = .matching ∧ (small 0x041#12 [] 0#19 0#5).cur = some 0x041#12 ∧
      hasEmptySlot (small 0x041#12 [] 0#19 0#5).table := ⟨rfl, rfl, 0, by decide, rfl⟩

theorem witness_EndEmitsTerminal : (small 0x041#12 [] 0#19 0#5).phase = .matching ∧ fresh.phase = .seed := by decide

theorem witness_EndPushesTheseBytes :
    (small 0x041#12 [] 0#19 0#5).pendingBits = 0#5 ∧ (small 0x041#12 [] 0xA#19 4#5).bitBuffer = (0xA#4).setWidth 19 ∧
      (small 0x041#12 [] 0xA#19 4#5).pendingBits = 4#5 ∧ fresh.bitBuffer = 0#19 ∧ fresh.pendingBits = 0#5 := by decide

theorem witness_NotEnabledIsStuck : State.reset.phase ≠ .seed ∧ State.reset.phase ≠ .matching ∧ fresh.phase = .seed := by
  decide

theorem witness_PhaseFollowsTransitionTable :
    Instr.isEvent .start = true ∧ (after (exec .start State.reset) State.phase) = some .seed ∧
      phaseAfter .pop State.reset = none := by decide

theorem witness_EventsAreTheirTraces :
    (after (exec .start State.reset) State.phase) = some .seed ∧ (after (exec (.byte 7#8) fresh) State.phase) = some .matching ∧
      (after (exec .endInput fresh) State.phase) = some .drained := by decide

theorem witness_PopDeliversHead : ({ fresh with outq := [⟨false, 4#8⟩] } : State).outq = ⟨false, 4#8⟩ :: [] ∧
    State.reset.outq = [] := by decide

/-- The rows of T20: SEED, MATCHING, DRAINED with a byte queued; IDLE, FAILED, done. -/
theorem witness_FailIsTakenOrIgnored : fresh.phase = .seed ∧ (small 0#12 [] 0#19 0#5).phase = .matching ∧
    (let s : State := { fresh with phase := .drained, outq := [⟨true, 0xFF#8⟩] }; s.phase = .drained ∧ s.outq ≠ []) ∧
    State.reset.phase = .idle ∧ ({ State.reset with phase := .failed } : State).phase = .failed ∧
    (let s : State := { fresh with phase := .drained }; s.phase = .drained ∧ s.outq = []) := by decide

theorem witness_FirstCauseIsKept : busy fresh = true ∧
    (after (exec (.fail .input) fresh) State.failCause) = some 1#2 := by decide

theorem witness_EdgePriority :
    ({ idleEdge with rst := true } : PortsIn).rst = true ∧ busy fresh = true ∧
      ({ idleEdge with outFail := true } : PortsIn).outFail = true ∧ idleEdge.rst = false ∧ idleEdge.start = false ∧
      idleEdge.inValid = false ∧ idleEdge.outReady = false := by decide

/-- A drained session with one byte left to offer, at the edge on which it is offered. -/
def offered : State := { fresh with phase := .drained, outq := [⟨true, 0xF0#8⟩] }

theorem inv_offered : Inv offered where
  table := wf_initialTable
  session _ := sessionInv_fresh _ rfl rfl rfl rfl (by simp [offered])
  queueEmpty h := by simp [offered] at h
  queueOpen h := by simp [offered] at h
  queueClosed _ := by decide
  curNone h := by simp [offered] at h
  accumulatorEmpty _ := ⟨rfl, rfl⟩
  cause := by decide
  external := by simp [offered, fresh, State.reset]

/-- The same session once that byte is taken. -/
def completed : State := { offered with outq := [] }

theorem inv_completed : Inv completed where
  table := wf_initialTable
  session _ := sessionInv_fresh _ rfl rfl rfl rfl (by simp [completed, offered])
  queueEmpty _ := rfl
  queueOpen h := by simp [completed, offered] at h
  queueClosed _ := by decide
  curNone h := by simp [completed, offered] at h
  accumulatorEmpty _ := ⟨rfl, rfl⟩
  cause := by decide
  external := by simp [completed, offered, fresh, State.reset]

theorem witness_PopDeliversHead_last : Inv offered ∧ offered.outq = ⟨true, 0xF0#8⟩ :: [] := ⟨inv_offered, rfl⟩

theorem witness_ReadySignalsMeanEnabled :
    startReady State.reset = true ∧ inReady fresh = true ∧ outValid offered = true ∧
      startReady { fresh with phase := .drained } = true := by decide

theorem witness_OfferedByteStays : Inv offered ∧ outValid offered = true ∧
    (after (edge idleEdge offered) State.phase) = some .drained ∧ idleEdge.rst = false ∧ idleEdge.outReady = false ∧
    idleEdge.inFail = false ∧ idleEdge.outFail = false := ⟨inv_offered, by decide⟩

theorem witness_TokenAndPopCommute : offered.outq ≠ [] := by decide

theorem witness_StatusOutputs : State.reset.phase = .idle ∧ fresh.phase ≠ .idle ∧ edgeEvents idleEdge fresh = [] := by decide

theorem witness_ReadySignalsEventuallyHigh : startEnabled State.reset = true ∧ offered.outq ≠ [] ∧ fresh.phase = .seed ∧
    fresh.outq = [] := by decide

/-- An environment whose sink is always ready, and a session that holds a byte. -/
theorem witness_ReadySignalsEventuallyHigh_sink :
    let p : Nat → PortsIn := fun _ => { idleEdge with outReady := true }
    let s : State := { fresh with phase := .matching, outq := [⟨false, 4#8⟩] }
    s.phase = .matching ∧ s.outq ≠ [] ∧ (∀ k, (p k).rst = false ∧ (p k).inFail = false ∧ (p k).outFail = false) ∧
      ∀ k, ∃ j, k ≤ j ∧ (p j).outReady = true :=
  ⟨rfl, by decide, fun _ => ⟨rfl, rfl, rfl⟩, fun k => ⟨k, Nat.le_refl k, rfl⟩⟩

theorem inv_fresh : Inv fresh := inv_startSession _ (by simp [State.reset])

theorem witness_StepKeepsInvariant :
    Inv { fresh with inputs := [.word 0x0041#13] } ∧
      (after (step { fresh with inputs := [.word 0x0041#13] }) State.phase) = some .matching :=
  ⟨inv_startSession { State.reset with inputs := [.word 0x0041#13] } (by simp [Input.external]), by decide⟩

theorem witness_StepKeepsTableCanonical :
    State.reset.table.wf ∧ (after (step (State.reset.withFetchWord 16 0x1700)) State.ret) = some (.code (some 256#12)) :=
  ⟨wf_reset, by decide⟩

theorem witness_EnabledEventsComplete : Instr.isEvent (.byte 7#8) = true ∧ Inv fresh ∧
    phaseAfter (.byte 7#8) fresh = some .matching := ⟨rfl, inv_fresh, rfl⟩

theorem witness_EdgeAlwaysCompletes : Inv offered := inv_offered

theorem witness_SlotsAreNeverEmptied : midSession (.byte 7#8) = true ∧
    (after (exec (.byte 0x41#8) (small 0x041#12 [(3, rootEntry 3)] 0#19 0#5)) State.nextCode) = some 257#12 ∧
    memRead (small 0x041#12 [(3, rootEntry 3)] 0#19 0#5).table 3 = some (rootEntry 3) := by decide +kernel

/-- BYTE in MATCHING: a miss, a miss with the code space exhausted, a hit. -/
theorem witness_SlotsAreNeverEmptied_slot :
    let s := small 0x041#12 [] 0#19 0#5
    let u := small 0x041#12 [(1105, ⟨0x100#12, some 0x041#12, 0x41#8⟩)] 0#19 0#5
    s.phase = .matching ∧ s.cur = some 0x041#12 ∧ lookupSlot s.table 0x041#12 0x41#8 = some 1105#13 ∧
      after (exec (.byte 0x41#8) s) State.nextCode = some 257#12 ∧
      after (exec (.byte 0x41#8) { s with nextCode := 0xFFF#12 }) State.table = some [] ∧
      memRead u.table 1105 ≠ none ∧ after (exec (.byte 0x41#8) u) State.cur = some (some 0x100#12) := by decide +kernel

/-- The record that the scenario of T1 inserts first. -/
def firstLearnt : Entry := ⟨0x100#12, some 0x041#12, 0x41#8⟩

/-- A session that has learnt one key (T1 after the second byte). -/
def learnt : State :=
  { fresh with
    phase := .matching, cur := some 0x041#12, nextCode := 257#12, bitBuffer := 1#19, pendingBits := 4#5
    table := setEntry 1105 firstLearnt initialTable, outq := [⟨false, 4#8⟩] }

theorem memRead_learnt (i : Nat) : memRead learnt.table i =
    if 1105 = i then some firstLearnt else if i < ROOTS then some (rootEntry i) else none := by
  rw [show learnt.table = setEntry 1105 firstLearnt initialTable from rfl, memRead_setEntry, memRead_initialTable]

theorem learnt_populated (i : Nat) (e : Entry) (h : memRead learnt.table i = some e) :
    (i = 1105 ∧ e = firstLearnt) ∨ (i < ROOTS ∧ e = rootEntry i) := by
  rw [memRead_learnt] at h
  split at h
  · left; exact ⟨by omega, by simpa using h.symm⟩
  · split at h
    · right; exact ⟨by assumption, by simpa using h.symm⟩
    · simp at h

theorem learnt_beyond_roots (i : Nat) (e : Entry) (hi : ROOTS ≤ i) (h : memRead learnt.table i = some e) :
    i = 1105 ∧ e = firstLearnt := by
  rcases learnt_populated i e h with h | h
  · exact h
  · omega

theorem sessionInv_learnt : SessionInv learnt where
  roots i hi := by rw [memRead_learnt, if_neg (by rw [ROOTS_eq] at hi; omega), if_pos hi]
  codesBelow i e hi h := by obtain ⟨_, rfl⟩ := learnt_beyond_roots i e hi h; decide
  codesPresent a h1 h2 := ⟨1105, firstLearnt, by decide, by rw [memRead_learnt, if_pos rfl], by
    rw [FIRST_CODE_eq] at h1; have : learnt.nextCode.toNat = 257 := rfl; rw [this] at h2
    have : firstLearnt.assignedCode.toNat = 256 := rfl; omega⟩
  codesUnique i j e f hi hj h1 h2 _ := by
    obtain ⟨rfl, _⟩ := learnt_beyond_roots i e hi h1
    obtain ⟨rfl, _⟩ := learnt_beyond_roots j f hj h2
    rfl
  count := by
    rw [show learnt.table = setEntry 1105 firstLearnt initialTable from rfl,
      length_setEntry _ _ _ (by rw [memRead_initialTable, if_neg (by decide)]), length_initialTable]
    rfl
  links i e hi h := by obtain ⟨_, rfl⟩ := learnt_beyond_roots i e hi h; exact ⟨_, rfl, by decide⟩
  keysUnique i j e f h1 h2 hp hb := by
    rcases learnt_populated i e h1 with ⟨rfl, rfl⟩ | ⟨hi, rfl⟩ <;> rcases learnt_populated j f h2 with ⟨rfl, rfl⟩ | ⟨hj, rfl⟩
    · rfl
    · simp [firstLearnt, rootEntry] at hp
    · simp [firstLearnt, rootEntry] at hp
    · have := congrArg BitVec.toNat hb
      simp only [rootEntry, BitVec.toNat_ofNat] at this
      rw [ROOTS_eq] at hi hj
      omega
  onPath i e p h hp := by
    rcases learnt_populated i e h with ⟨rfl, rfl⟩ | ⟨hi, rfl⟩
    · simp only [firstLearnt, Option.some.injEq] at hp
      subst hp
      exact ⟨0, by decide, by decide, by omega⟩
    · simp [rootEntry] at hp
  counter := by decide
  pending := Or.inr rfl
  buffer := by decide
  cur _ := ⟨_, rfl, Or.inl (by decide)⟩

theorem inv_learnt : Inv learnt where
  table := wf_memWrite initialTable 1105 (some firstLearnt) wf_initialTable (by decide)
  session _ := sessionInv_learnt
  queueEmpty h := by simp [learnt] at h
  queueOpen _ := by decide
  queueClosed h := by simp [learnt] at h
  curNone h := by simp [learnt] at h
  accumulatorEmpty h := by simp [learnt] at h
  cause := by decide
  external := by simp [learnt, fresh, State.reset]

/-- The handshakes: START alone, a token alone, a POP alone, and both on one edge. -/
theorem witness_EdgePriority_handshakes :
    (Inv completed ∧ startReady completed = true) ∧ (Inv fresh ∧ inReady fresh = true ∧ outValid fresh = false) ∧
      (Inv offered ∧ outValid offered = true ∧ inReady offered = false) ∧
      (Inv learnt ∧ inReady learnt = true ∧ outValid learnt = true) ∧ bothPorts.inValid = true ∧ bothPorts.outReady = true :=
  ⟨⟨inv_completed, by decide⟩, ⟨inv_fresh, by decide⟩, ⟨inv_offered, by decide⟩, ⟨inv_learnt, by decide⟩, by decide⟩

/-- Both clauses: a key that is stored, and a key that no slot holds. -/
theorem witness_DictionaryIsFiniteMap : Inv learnt ∧ hasSession learnt ∧ memRead learnt.table 1105 = some firstLearnt ∧
    (∀ k e, memRead learnt.table k = some e → ¬ (e.prefixCode = some 0x100#12 ∧ e.appendedByte = 0x41#8)) :=
  ⟨inv_learnt, Or.inr (Or.inl rfl), by rw [memRead_learnt, if_pos rfl], fun k e h => by
    rcases learnt_populated k e h with ⟨_, rfl⟩ | ⟨_, rfl⟩
    · decide
    · simp [rootEntry]⟩

theorem witness_SessionComputesCompress : startEnabled State.reset = true := by decide

theorem witness_InterleavedPopsDoNotMatter : startEnabled State.reset = true ∧ midSession (.byte 7#8) = true ∧
    (after (runEvents (.start :: ([.byte 7#8] ++ [.endInput])) State.reset) State.phase) = some .drained := by decide

theorem witness_SessionIgnoresThePast : startEnabled State.reset = true ∧
    startEnabled { State.reset with phase := .failed, nextCode := 9#12 } = true ∧
    (after (runEvents (.start :: [.byte 7#8, .endInput]) State.reset) State.phase) = some .drained := by decide

theorem witness_FailedSessionDeliveredAPrefix : startEnabled State.reset = true ∧
    (after (runEvents (.start :: ([.byte 7#8] ++ [.fail .input])) State.reset) State.phase) = some .failed := by decide

/-- The other half: after END with bytes still queued, and after END and as many POPs as there are bytes. -/
theorem witness_FailedSessionDeliveredAPrefix_drained : startEnabled State.reset = true ∧
    after (runEvents (.start :: ([.byte 7#8] ++ .endInput :: List.replicate 2 .pop)) State.reset) (fun t => (t.sunk, t.outq))
      = some ([0x00#8, 0x7F#8], [⟨true, 0xFF#8⟩]) ∧
    after (runEvents (.start :: ([.byte 7#8] ++ .endInput :: List.replicate 3 .pop)) State.reset) State.outq = some [] := by
  decide

/-- A legal set with its input, an illegal set, and a legal set with a byte that has no root. -/
theorem witness_CodesStandForTheInput : hw.Legal ∧ (∀ b ∈ [0x41, 0xFF], b < hw.roots) ∧
    ¬ ({ hw with tableSize := 5022 } : Params).Legal ∧ ({ hw with roots := 128 } : Params).Legal ∧
    ∃ b ∈ [0x80], ({ hw with roots := 128 } : Params).roots ≤ b := by decide +kernel

theorem witness_RepeatedByteCodesGrow : (1 ≤ 3840) ∧ (3840 ≤ 3840) ∧ 3838 + 1 < 3840 := by decide

end Sys2Proof.Tests
end

/-! PROOFS. The check of a parameter set against the conditions of 00_scope.md R4, and the derived constants of R5:
trial division decides primality, and each refusing branch of the check denies one condition. -/

namespace Sys2Proof

open Sys2Proof.Config

/-- The trial division over `k` candidates from `d` on passes exactly when none of them divides `n`. -/
theorem noDivisorFrom_eq_true (n d k : Nat) :
    noDivisorFrom n d k = true ↔ ∀ m, d ≤ m → m < d + k → ¬ m ∣ n := by
  induction k generalizing d with
  | zero => exact iff_of_true rfl fun m hd hm => absurd hm (by omega)
  | succ k ih =>
    have hfirst : (n % d != 0) = true ↔ ¬ d ∣ n := by simp [Nat.dvd_iff_mod_eq_zero]
    rw [noDivisorFrom, Bool.and_eq_true, hfirst, ih]
    constructor
    · rintro ⟨hd, hrest⟩ m hle hlt
      obtain rfl | hgt := hle.eq_or_lt
      · exact hd
      · exact hrest m hgt (by omega)
    · intro h
      exact ⟨h d le_rfl (by omega), fun m hle hlt => h m (by omega) (by omega)⟩

/-- Trial division decides primality in the library's sense (R4 item 4). -/
theorem isPrime_eq_true (n : Nat) : isPrime n = true ↔ n.Prime := by
  rw [isPrime, Bool.and_eq_true, decide_eq_true_iff, noDivisorFrom_eq_true, Nat.prime_def_lt']
  refine and_congr_right fun htwo => ?_
  rw [Nat.add_sub_cancel' htwo]

/-- The check refuses by no item exactly when every item of R4 holds. -/
theorem Params.legal_iff (P : Params) : P.Legal ↔
    9 ≤ P.bits ∧ 8 + P.hashShift ≤ P.bits ∧ 2 ^ P.bits < P.tableSize ∧ P.tableSize.Prime ∧
      P.roots ≤ 256 ∧ P.roots ≤ P.firstCode ∧ P.firstCode ≤ P.maxCode := by
  rw [← isPrime_eq_true, Params.Legal, Params.check]
  split_ifs with hbits hshift hsize hprime hroots
  · exact iff_of_false id (by omega)
  · exact iff_of_false id (by omega)
  · exact iff_of_false id (by omega)
  · exact iff_of_false id (by simp [hprime])
  · exact iff_of_false id (by omega)
  · simp only [Bool.not_eq_false] at hprime
    exact iff_of_true rfl ⟨by omega, by omega, by omega, hprime, by omega⟩

/-- A slot index of this hardware takes 13 bits: `2 ^ 12 < 5021 ≤ 2 ^ 13` (R5). -/
theorem idxWidth_hw : hw.idxWidth = 13 :=
  le_antisymm (Nat.clog_le_of_le_pow (by decide)) ((Nat.lt_clog_iff_pow_lt (by decide)).2 (by decide))

/-- Settles O8: the check is R4's list because trial division is primality; this hardware's set passes it by
`check_hw`, and R5's constants are computed from it. -/
theorem legalParametersAsListed : Obligations.LegalParametersAsListed :=
  ⟨Params.legal_iff, fun _ => ⟨rfl, rfl⟩, Machine.check_hw, fun d => d.isLt,
    idxWidth_hw, rfl, rfl, rfl, rfl, rfl⟩

end Sys2Proof

/-! PROOFS. The probe path in closed form (40_dictionary.md R63, R67): which slot LOOKUP returns, and that an INSERT there
puts its key on its own path (R69). -/

namespace Sys2Proof.Machine

open Sys2Proof Sys2Proof.Config

/-- NEXT is one subtraction modulo the table size (R62). -/
theorem nextIndex_toNat_mod (i d : SlotIx) (hi : i.toNat < TABLE_SIZE) (hd : d.toNat < TABLE_SIZE) :
    (nextIndex i d).toNat = (i.toNat + (TABLE_SIZE - d.toNat)) % TABLE_SIZE := by
  rw [nextIndex_toNat i d hi hd]
  rw [TABLE_SIZE_eq] at *
  split <;> omega

theorem probeIter_toNat (d i : SlotIx) (hi : i.toNat < TABLE_SIZE) (hd : d.toNat < TABLE_SIZE) (k : Nat) :
    (probeIter d k i).toNat = (i.toNat + k * (TABLE_SIZE - d.toNat)) % TABLE_SIZE := by
  induction k generalizing i with
  | zero => simp [Nat.mod_eq_of_lt hi]
  | succ k ih =>
    rw [probeIter_succ, ih _ (nextIndex_lt i d hi hd), nextIndex_toNat_mod i d hi hd, Nat.mod_add_mod, Nat.add_assoc,
      Nat.succ_mul, Nat.add_comm (k * _)]

/-- The iterates of NEXT with a home index's own stride are R67's slots. -/
theorem probeIter_strideOf (h : SlotIx) (hh : h.toNat < TABLE_SIZE) (k : Nat) :
    (probeIter (strideOf h) k h).toNat = probeSlot h.toNat k := by
  rw [probeIter_toNat _ _ hh (strideOf_range h hh).2, strideOf_toNat h hh, probeSlot]
  split
  · next h0 => rw [h0, Nat.zero_add]
  · rw [Nat.sub_sub_self hh.le, Nat.succ_mul, Nat.add_comm]

theorem probeIter_homeIndex (p : Code) (b : Byte) (k : Nat) :
    (probeIter (strideOf (homeIndex p b)) k (homeIndex p b)).toNat = probeSlot (homeIndex p b).toNat k :=
  probeIter_strideOf _ (homeIndex_lt_tableSize p b) k

/-- LOOKUP returns the first slot of R67's path that is empty or holds the key. -/
theorem lookupSlot_first_stop {t : Table} {p : Code} {b : Byte} {i : SlotIx} (h : lookupSlot t p b = some i) :
    ∃ k, k < TABLE_SIZE ∧ i.toNat = probeSlot (homeIndex p b).toNat k ∧ stopsAt t p b i.toNat ∧
      ∀ j, j < k → ¬ stopsAt t p b (probeSlot (homeIndex p b).toNat j) := by
  obtain ⟨k, hk, rfl, hstop, hbefore⟩ := (probeLoop_eq_some _ _ _ _ _ _ _).1 h
  exact ⟨k, hk, probeIter_homeIndex p b k, hstop, fun j hj => probeIter_homeIndex p b j ▸ hbefore j hj⟩

theorem lookupSlot_lt {t : Table} {p : Code} {b : Byte} {i : SlotIx} (h : lookupSlot t p b = some i) :
    i.toNat < TABLE_SIZE := by
  obtain ⟨k, _, hi, _⟩ := lookupSlot_first_stop h
  rw [hi, ← probeIter_homeIndex]
  exact probeIter_lt _ _ (homeIndex_lt_tableSize p b) (strideOf_range _ (homeIndex_lt_tableSize p b)).2 k

@[simp] theorem hasKey_iff (e : Entry) (p : Code) (b : Byte) :
    e.hasKey p b = true ↔ e.prefixCode = some p ∧ e.appendedByte = b := by
  simp [Entry.hasKey]

/-- A populated slot that LOOKUP returns holds the key. -/
theorem lookupSlot_hit_key {t : Table} {p : Code} {b : Byte} {i : SlotIx} {e : Entry}
    (h : lookupSlot t p b = some i) (he : memRead t i.toNat = some e) : e.prefixCode = some p ∧ e.appendedByte = b := by
  obtain ⟨_, _, _, hempty | ⟨f, hf, hkey⟩, _⟩ := lookupSlot_first_stop h
  · simp [hempty] at he
  · obtain rfl : f = e := Option.some.inj (hf.symm.trans he)
    exact (hasKey_iff f p b).1 hkey

/-- What LOOKUP passes over is populated. -/
theorem populated_of_not_stopsAt {t : Table} {p : Code} {b : Byte} {i : Nat} (h : ¬ stopsAt t p b i) :
    populated (memRead t i) = true :=
  Option.isSome_iff_ne_none.2 fun hempty => h (Or.inl hempty)

/-- The slot that LOOKUP returns is the place that R69 gives its key. -/
theorem onProbePath_of_lookupSlot {t : Table} {p : Code} {b : Byte} {i : SlotIx} (h : lookupSlot t p b = some i) :
    onProbePath t p b i.toNat := by
  obtain ⟨k, hk, hi, _, hbefore⟩ := lookupSlot_first_stop h
  exact ⟨k, hk, hi, fun j hj => populated_of_not_stopsAt (hbefore j hj)⟩

/-- A key stays on its path while no slot is emptied. -/
theorem onProbePath_mono {t u : Table} {p : Code} {b : Byte} {i : Nat}
    (htu : ∀ k, populated (memRead t k) = true → populated (memRead u k) = true) (h : onProbePath t p b i) :
    onProbePath u p b i := by
  obtain ⟨k, hk, hi, hbefore⟩ := h
  exact ⟨k, hk, hi, fun j hj => htu _ (hbefore j hj)⟩

/-- R69's reason: where every key sits on its path, an empty slot returned by LOOKUP means that no slot holds the key. A
slot with the key before it would have stopped the loop; one after it would have found the returned slot populated. -/
theorem key_absent_of_lookupSlot_empty {t : Table} {p : Code} {b : Byte} {i : SlotIx}
    (hpath : ∀ k e, memRead t k = some e → e.prefixCode = some p → onProbePath t p e.appendedByte k)
    (h : lookupSlot t p b = some i) (hempty : memRead t i.toNat = none) (j : Nat) (e : Entry)
    (he : memRead t j = some e) : ¬ (e.prefixCode = some p ∧ e.appendedByte = b) := by
  rintro ⟨hp, rfl⟩
  obtain ⟨k, _, hi, _, hbefore⟩ := lookupSlot_first_stop h
  obtain ⟨k', _, hj, hbefore'⟩ := hpath j e he hp
  rcases lt_trichotomy k' k with hlt | rfl | hgt
  · exact hbefore k' hlt (Or.inr ⟨e, hj ▸ he, (hasKey_iff _ _ _).2 ⟨hp, rfl⟩⟩)
  · rw [hj, ← hi, hempty] at he
    simp at he
  · have hfull := hbefore' k hgt
    rw [← hi, hempty] at hfull
    simp [populated] at hfull

/-! A record written into an empty slot. -/

theorem memRead_memWrite_some {t : Table} {i k : Nat} {r : Slot} {f : Entry} (h : memRead (memWrite t i r) k = some f) :
    (k = i ∧ r = some f) ∨ memRead t k = some f := by
  rw [memRead_memWrite] at h
  split at h
  · next hik => exact Or.inl ⟨hik.symm, h⟩
  · exact Or.inr h

/-- Writing into an empty slot keeps every record. -/
theorem memRead_memWrite_of_empty {t : Table} {i k : Nat} {r : Slot} {f : Entry} (hempty : memRead t i = none)
    (h : memRead t k = some f) : memRead (memWrite t i r) k = some f := by
  rw [memRead_memWrite_ne _ _ _ _ (by rintro rfl; simp [hempty] at h), h]

theorem populated_memWrite_of_empty {t : Table} {i k : Nat} {r : Slot} (hempty : memRead t i = none)
    (h : populated (memRead t k) = true) : populated (memRead (memWrite t i r) k) = true := by
  obtain ⟨f, hf⟩ := Option.isSome_iff_exists.1 h
  rw [memRead_memWrite_of_empty hempty hf]
  rfl

end Sys2Proof.Machine

/-! PROOFS. What the shared operations keep of the session invariant (10_state.md R25): moving registers, EMIT, and
learning one key. -/

namespace Sys2Proof.Machine

open Sys2Proof Sys2Proof.Config

/-! The range of a current code. -/

theorem SessionInv.root_lt {s : State} (h : SessionInv s) {i : Nat} (hi : i < ROOTS) : i < s.nextCode.toNat :=
  lt_of_lt_of_le hi h.counter

/-- A root code or an assigned code is below the counter, for `ROOTS = FIRST_CODE` on this hardware. -/
theorem SessionInv.cur_lt {s : State} (h : SessionInv s) (hp : s.phase = .matching) :
    ∃ c, s.cur = some c ∧ c.toNat < s.nextCode.toNat := by
  obtain ⟨c, hc, hroot | ⟨_, hlt⟩⟩ := h.cur hp
  · exact ⟨c, hc, h.root_lt hroot⟩
  · exact ⟨c, hc, hlt⟩

theorem rootOrAssigned_of_lt {c n : Nat} (h : c < n) : c < ROOTS ∨ (FIRST_CODE.toNat ≤ c ∧ c < n) :=
  (Nat.lt_or_ge c ROOTS).imp_right fun hge => ⟨hge, h⟩

/-- The code of a byte is a root code (R53). -/
theorem toCode_lt_roots (d : Byte) : d.toCode.toNat < ROOTS := by
  rw [BitVec.toNat_setWidth_of_le (by decide)]
  exact d.isLt

/-- The code of a populated slot is below the counter. -/
theorem SessionInv.assignedCode_lt {s : State} (h : SessionInv s) {i : Nat} {e : Entry}
    (he : memRead s.table i = some e) : e.assignedCode.toNat < s.nextCode.toNat := by
  by_cases hi : i < ROOTS
  · obtain rfl : rootEntry i = e := Option.some.inj ((h.roots i hi).symm.trans he)
    exact lt_of_le_of_lt (by simpa [rootEntry] using Nat.mod_le _ _) (h.root_lt hi)
  · exact (h.codesBelow i e (Nat.not_lt.1 hi) he).2

/-- An empty slot is no root slot. -/
theorem SessionInv.roots_le_of_empty {s : State} (h : SessionInv s) {i : Nat} (hempty : memRead s.table i = none) :
    ROOTS ≤ i := by
  by_contra hi
  simp [h.roots i (Nat.not_le.1 hi)] at hempty

/-! Moving registers. -/

/-- R25 with the dictionary left alone: only items 8 and 9 speak of other registers. -/
theorem SessionInv.of_same_dictionary {s t : State} (h : SessionInv s) (ht : t.table = s.table)
    (hn : t.nextCode = s.nextCode) (hpending : t.pendingBits = 0#5 ∨ t.pendingBits = 4#5)
    (hbuffer : t.bitBuffer.toNat < 2 ^ t.pendingBits.toNat)
    (hcur : t.phase = .matching → ∃ c, t.cur = some c ∧ c.toNat < s.nextCode.toNat) : SessionInv t where
  roots := by simpa only [ht] using h.roots
  codesBelow := by simpa only [ht, hn] using h.codesBelow
  codesPresent := by simpa only [ht, hn] using h.codesPresent
  codesUnique := by simpa only [ht] using h.codesUnique
  count := by simpa only [ht, hn] using h.count
  links := by simpa only [ht] using h.links
  keysUnique := by simpa only [ht] using h.keysUnique
  onPath := by simpa only [ht] using h.onPath
  counter := by simpa only [hn] using h.counter
  pending := hpending
  buffer := hbuffer
  cur hm := by
    obtain ⟨c, hc, hlt⟩ := hcur hm
    exact ⟨c, hc, rootOrAssigned_of_lt (hn ▸ hlt)⟩

/-- R95, R96: the match goes on with a code below the counter. -/
theorem SessionInv.setCur {s : State} (h : SessionInv s) {c : Code} (hc : c.toNat < s.nextCode.toNat) :
    SessionInv { s with cur := some c } :=
  h.of_same_dictionary rfl rfl h.pending h.buffer fun _ => ⟨c, rfl, hc⟩

theorem SessionInv.setProbe {s : State} (h : SessionInv s) (i d : SlotIx) : SessionInv (setProbe i d s) :=
  h.of_same_dictionary rfl rfl h.pending h.buffer h.cur_lt

/-! EMIT. -/

/-- R86: EMIT turns 0 pending bits into 4 and 4 into 0, for `BITS = 12`. -/
theorem emit_pendingBits_zero_or_four (c : Code) (s : State) (h : s.pendingBits = 0#5 ∨ s.pendingBits = 4#5) :
    (emit c s).pendingBits = 0#5 ∨ (emit c s).pendingBits = 4#5 := by
  rw [emit_pendingBits, emitDrain_pending]
  rcases h with h | h <;> rw [h]
  · exact Or.inr rfl
  · exact Or.inl rfl

/-- R84: EMIT leaves no bit above the valid ones. -/
theorem emit_bitBuffer_lt (c : Code) (s : State) : (emit c s).bitBuffer.toNat < 2 ^ (emit c s).pendingBits.toNat := by
  rw [emit_bitBuffer, emit_pendingBits, emitDrain_pending, emitDrain_buf, BitVec.toNat_ofNat, BitVec.toNat_ofNat,
    Nat.mod_eq_of_lt (show (s.pendingBits.toNat + BITS) % 8 < 2 ^ 5 by omega)]
  exact lt_of_le_of_lt (Nat.mod_le _ _) (Nat.mod_lt _ (by positivity))

theorem SessionInv.emit {s : State} (h : SessionInv s) (c : Code) : SessionInv (emit c s) :=
  h.of_same_dictionary rfl rfl (emit_pendingBits_zero_or_four c s h.pending) (emit_bitBuffer_lt c s) h.cur_lt

/-! Learning a key. -/

theorem allocCode_eq_some (s : State) (a : Code) :
    allocCode s = some a ↔ s.nextCode.toNat ≤ MAX_CODE.toNat ∧ a = s.nextCode := by
  unfold allocCode
  split <;> simp_all [eq_comm]

theorem allocCode_eq_none (s : State) : allocCode s = none ↔ MAX_CODE.toNat < s.nextCode.toNat := by
  unfold allocCode
  split <;> simp_all

/-- ALLOC counts on by one while a code is left (R76). -/
theorem allocStep_nextCode_toNat {s : State} (h : s.nextCode.toNat ≤ MAX_CODE.toNat) :
    (allocStep s).nextCode.toNat = s.nextCode.toNat + 1 := by
  rw [allocStep_nextCode, if_pos h]
  rw [MAX_CODE_eq] at h
  bv_omega

theorem allocStep_of_exhausted {s : State} (h : MAX_CODE.toNat < s.nextCode.toNat) : allocStep s = s :=
  if_neg (Nat.not_le.2 h)

/-- R96 with a code left: the key gets the next code in the empty slot that LOOKUP returned for it. -/
def learn (i : SlotIx) (c : Code) (d : Byte) (s : State) : State := insert i s.nextCode c d (allocStep s)

theorem miss_eq_of_room {s : State} (h : s.nextCode.toNat ≤ MAX_CODE.toNat) (i : SlotIx) (c : Code) (d : Byte) :
    miss i c d s = { learn i c d (emit c s) with cur := some d.toCode } := by
  unfold miss learn
  simp only [allocCode_emit, (allocCode_eq_some s _).2 ⟨h, rfl⟩, emit_nextCode]

theorem miss_eq_of_exhausted {s : State} (h : MAX_CODE.toNat < s.nextCode.toNat) (i : SlotIx) (c : Code) (d : Byte) :
    miss i c d s = { emit c s with cur := some d.toCode } := by
  unfold miss
  simp only [allocCode_emit, (allocCode_eq_none s).2 h, allocStep_of_exhausted (s := emit c s) h]

/-- The records after learning a key: the new one in its slot, and the old ones. -/
theorem memRead_learn_cases {s : State} {i : SlotIx} {c : Code} {d : Byte} {k : Nat} {f : Entry}
    (h : memRead (learn i c d s).table k = some f) :
    (k = i.toNat ∧ f = ⟨s.nextCode, some c, d⟩) ∨ memRead s.table k = some f := by
  rw [learn, insert_table, allocStep_table] at h
  exact (memRead_memWrite_some h).imp_left fun ⟨hk, hf⟩ => ⟨hk, (Option.some.inj hf).symm⟩

theorem memRead_learn_self (s : State) (i : SlotIx) (c : Code) (d : Byte) :
    memRead (learn i c d s).table i.toNat = some ⟨s.nextCode, some c, d⟩ := by
  rw [learn, insert_table, memRead_memWrite_self]

theorem memRead_learn_of_some {s : State} {i : SlotIx} {c : Code} {d : Byte} {k : Nat} {f : Entry}
    (hempty : memRead s.table i.toNat = none) (h : memRead s.table k = some f) :
    memRead (learn i c d s).table k = some f := by
  rw [learn, insert_table, allocStep_table, memRead_memWrite_of_empty hempty h]

section Learn

variable {s : State} {i : SlotIx} {c : Code} {d : Byte}

theorem learn_nextCode_toNat (hroom : s.nextCode.toNat ≤ MAX_CODE.toNat) :
    (learn i c d s).nextCode.toNat = s.nextCode.toNat + 1 :=
  allocStep_nextCode_toNat hroom

/-- The new code is no old slot's. -/
theorem SessionInv.assignedCode_ne_nextCode (h : SessionInv s) {k : Nat} {e : Entry}
    (he : memRead s.table k = some e) : e.assignedCode ≠ s.nextCode :=
  fun heq => absurd (h.assignedCode_lt he) (by rw [heq]; exact lt_irrefl _)

/-- Items 2, 3 and 5 after learning: the new code is the last one below the counter. -/
theorem SessionInv.codesBelow_learn (h : SessionInv s) (hroom : s.nextCode.toNat ≤ MAX_CODE.toNat) (k : Nat)
    (e : Entry) (hk : ROOTS ≤ k) (he : memRead (learn i c d s).table k = some e) :
    FIRST_CODE.toNat ≤ e.assignedCode.toNat ∧ e.assignedCode.toNat < (learn i c d s).nextCode.toNat := by
  rw [learn_nextCode_toNat hroom]
  rcases memRead_learn_cases he with ⟨_, rfl⟩ | he
  · exact ⟨h.counter, Nat.lt_succ_self _⟩
  · exact (h.codesBelow k e hk he).imp_right Nat.lt_succ_of_lt

/-- Item 2 after learning: every code below the counter has its slot. -/
theorem SessionInv.codesPresent_learn (h : SessionInv s) (hempty : memRead s.table i.toNat = none)
    (hroom : s.nextCode.toNat ≤ MAX_CODE.toNat) (a : Nat) (ha : FIRST_CODE.toNat ≤ a)
    (hlt : a < (learn i c d s).nextCode.toNat) :
    ∃ k e, ROOTS ≤ k ∧ memRead (learn i c d s).table k = some e ∧ e.assignedCode.toNat = a := by
  rw [learn_nextCode_toNat hroom] at hlt
  rcases Nat.lt_succ_iff_lt_or_eq.1 hlt with hlt | rfl
  · obtain ⟨k, e, hk, he, hcode⟩ := h.codesPresent a ha hlt
    exact ⟨k, e, hk, memRead_learn_of_some hempty he, hcode⟩
  · exact ⟨_, _, h.roots_le_of_empty hempty, memRead_learn_self s i c d, rfl⟩

/-- Item 2 after learning: no code is in two slots. -/
theorem SessionInv.codesUnique_learn (h : SessionInv s) (j k : Nat) (e f : Entry) (hj : ROOTS ≤ j) (hk : ROOTS ≤ k)
    (he : memRead (learn i c d s).table j = some e) (hf : memRead (learn i c d s).table k = some f)
    (hcode : e.assignedCode = f.assignedCode) : j = k := by
  rcases memRead_learn_cases he with ⟨rfl, rfl⟩ | he <;> rcases memRead_learn_cases hf with ⟨rfl, rfl⟩ | hf
  · rfl
  · exact absurd hcode.symm (h.assignedCode_ne_nextCode hf)
  · exact absurd hcode (h.assignedCode_ne_nextCode he)
  · exact h.codesUnique j k e f hj hk he hf hcode

/-- Item 6 after learning: LOOKUP's empty slot says that no old slot holds the new key. -/
theorem SessionInv.keysUnique_learn (h : SessionInv s) (hlook : lookupSlot s.table c d = some i)
    (hempty : memRead s.table i.toNat = none) (j k : Nat) (e f : Entry)
    (he : memRead (learn i c d s).table j = some e) (hf : memRead (learn i c d s).table k = some f)
    (hprefix : e.prefixCode = f.prefixCode) (hbyte : e.appendedByte = f.appendedByte) : j = k := by
  have habsent := key_absent_of_lookupSlot_empty (fun k e he hp => h.onPath k e c he hp) hlook hempty
  rcases memRead_learn_cases he with ⟨rfl, rfl⟩ | he <;> rcases memRead_learn_cases hf with ⟨rfl, rfl⟩ | hf
  · rfl
  · exact absurd ⟨hprefix.symm, hbyte.symm⟩ (habsent k f hf)
  · exact absurd ⟨hprefix, hbyte⟩ (habsent j e he)
  · exact h.keysUnique j k e f he hf hprefix hbyte

/-- R69's reason after learning: the new key sits where its LOOKUP ended, and no path lost a populated slot. -/
theorem SessionInv.onPath_learn (h : SessionInv s) (hlook : lookupSlot s.table c d = some i)
    (hempty : memRead s.table i.toNat = none) (k : Nat) (e : Entry) (p : Code)
    (he : memRead (learn i c d s).table k = some e) (hp : e.prefixCode = some p) :
    onProbePath (learn i c d s).table p e.appendedByte k := by
  rw [learn, insert_table, allocStep_table]
  refine onProbePath_mono (fun _ => populated_memWrite_of_empty hempty) ?_
  rcases memRead_learn_cases he with ⟨rfl, rfl⟩ | he
  · obtain rfl : c = p := Option.some.inj hp
    exact onProbePath_of_lookupSlot hlook
  · exact h.onPath k e p he hp

/-- R25 is kept when a key `(c, d)` is learnt in the empty slot that its LOOKUP returned. -/
theorem SessionInv.learn (h : SessionInv s) (hlook : lookupSlot s.table c d = some i)
    (hempty : memRead s.table i.toNat = none) (hroom : s.nextCode.toNat ≤ MAX_CODE.toNat)
    (hc : c.toNat < s.nextCode.toNat) : SessionInv (learn i c d s) where
  roots k hk := memRead_learn_of_some hempty (h.roots k hk)
  codesBelow := h.codesBelow_learn hroom
  codesPresent := h.codesPresent_learn hempty hroom
  codesUnique := h.codesUnique_learn
  count := by
    have hcounter := h.counter
    rw [learn_nextCode_toNat hroom, Machine.learn, insert_table, allocStep_table, memWrite,
      length_setEntry _ _ _ hempty, h.count]
    omega
  links k e hk he := by
    rcases memRead_learn_cases he with ⟨_, rfl⟩ | he
    · exact ⟨c, rfl, hc⟩
    · exact h.links k e hk he
  keysUnique := h.keysUnique_learn hlook hempty
  onPath := h.onPath_learn hlook hempty
  counter := by
    rw [learn_nextCode_toNat hroom]
    exact Nat.le_succ_of_le h.counter
  pending := by simpa [Machine.learn] using h.pending
  buffer := by simpa [Machine.learn] using h.buffer
  cur hm := by
    obtain ⟨c', hc', hlt⟩ := h.cur_lt (by simpa [Machine.learn] using hm)
    rw [learn_nextCode_toNat hroom]
    exact ⟨c', by simpa [Machine.learn] using hc', rootOrAssigned_of_lt (Nat.lt_succ_of_lt hlt)⟩

/-- R25 is kept by the miss branch of BYTE (R96), with a code left and with none. -/
theorem SessionInv.miss (h : SessionInv s) (hlook : lookupSlot s.table c d = some i)
    (hempty : memRead s.table i.toNat = none) (hc : c.toNat < s.nextCode.toNat) : SessionInv (miss i c d s) := by
  have hd : d.toCode.toNat < s.nextCode.toNat := h.root_lt (toCode_lt_roots d)
  rcases Nat.lt_or_ge MAX_CODE.toNat s.nextCode.toNat with hfull | hroom
  · rw [miss_eq_of_exhausted hfull]
    exact (h.emit c).setCur hd
  · rw [miss_eq_of_room hroom]
    refine ((h.emit c).learn hlook hempty hroom hc).setCur ?_
    rw [learn_nextCode_toNat (s := Machine.emit c s) hroom]
    exact Nat.lt_succ_of_lt hd

end Learn

end Sys2Proof.Machine

/-! PROOFS. The marks of the queue (44_interfaces.md R113): no operation but END marks an entry, and END marks the tail. -/

namespace Sys2Proof.Machine

open Sys2Proof Sys2Proof.Config

@[simp] theorem noneMarked_nil : noneMarked [] = true := rfl

theorem noneMarked_append (q r : List OutEntry) : noneMarked (q ++ r) = (noneMarked q && noneMarked r) :=
  List.all_append

@[simp] theorem noneMarked_append_pushed (q : List OutEntry) (bs : List Byte) :
    noneMarked (q ++ bs.map (OutEntry.mk false)) = noneMarked q := by
  rw [noneMarked_append, Bool.and_eq_left_iff_imp]
  simp [noneMarked]

theorem noneMarked_emit (c : Code) (s : State) : noneMarked (emit c s).outq = noneMarked s.outq :=
  noneMarked_append_pushed _ _

theorem noneMarked_flush (s : State) : noneMarked (flush s).outq = noneMarked s.outq := by
  rw [flush_outq]
  split
  · rfl
  · exact noneMarked_append_pushed s.outq [_]

theorem noneMarked_tail {e : OutEntry} {q : List OutEntry} (h : noneMarked (e :: q) = true) : noneMarked q = true :=
  (Bool.and_eq_true_iff.1 h).2

theorem tailMarked_concat (q : List OutEntry) (e : OutEntry) :
    tailMarked (q ++ [e]) = (noneMarked q && e.last) := by
  induction q with
  | nil => rfl
  | cons f q ih =>
    cases q with
    | nil => simp [tailMarked, noneMarked]
    | cons g q =>
      simp only [List.cons_append, tailMarked] at ih ⊢
      rw [ih, ← Bool.and_assoc]
      rfl

theorem tailMarked_markTail {q : List OutEntry} (h : noneMarked q = true) : tailMarked (markTail q) = true := by
  rcases List.eq_nil_or_concat q with rfl | ⟨r, e, rfl⟩
  · rfl
  · rw [List.concat_eq_append, noneMarked_append, Bool.and_eq_true] at h
    rw [List.concat_eq_append, markTail_append, tailMarked_concat, h.1]
    rfl

theorem tailMarked_tail {e : OutEntry} {q : List OutEntry} (h : tailMarked (e :: q) = true) : tailMarked q = true := by
  cases q with
  | nil => rfl
  | cons f q => exact (Bool.and_eq_true_iff.1 h).2

/-- END marks the tail of a queue in which nothing is marked (R97, R98). -/
theorem tailMarked_finish {s : State} (h : noneMarked s.outq = true) : tailMarked (finish s).outq = true := by
  rw [finish_outq]
  refine tailMarked_markTail ?_
  rw [noneMarked_flush, noneMarked_emit, h]

end Sys2Proof.Machine

/-! PROOFS. Every event, every edge and every step keeps the machine's invariant. -/

namespace Sys2Proof.Machine

open Sys2Proof Sys2Proof.Config

/-! The invariant, phase by phase: what it asks in each phase. -/

theorem Inv.failCause_eq_zero {s : State} (h : Inv s) (hp : s.phase ≠ .failed) : s.failCause = 0#2 :=
  not_not.1 fun hne => hp (h.cause.1 hne)

theorem Inv.of_noSession {s : State} (hp : s.phase = .idle ∨ s.phase = .failed) (htable : s.table.wf)
    (hq : s.outq = []) (hcur : s.cur = none) (hcause : s.failCause ≠ 0#2 ↔ s.phase = .failed)
    (hx : ∀ x ∈ s.inputs, x.external = true) : Inv s where
  table := htable
  session h := by rcases hp with hp | hp <;> simp [hasSession, hp] at h
  queueEmpty _ := hq
  queueOpen h := by simp [h] at hp
  queueClosed h := by simp [h] at hp
  curNone _ := hcur
  accumulatorEmpty h := by rcases hp with hp | hp <;> simp [hp] at h
  cause := hcause
  external := hx

theorem Inv.of_matching {s : State} (hp : s.phase = .matching) (htable : s.table.wf) (hsession : SessionInv s)
    (hq : noneMarked s.outq = true) (hcause : s.failCause = 0#2) (hx : ∀ x ∈ s.inputs, x.external = true) : Inv s where
  table := htable
  session _ := hsession
  queueEmpty h := by simp [hp] at h
  queueOpen _ := hq
  queueClosed h := by simp [hp] at h
  curNone h := by simp [hp] at h
  accumulatorEmpty h := by simp [hp] at h
  cause := by simp [hcause, hp]
  external := hx

theorem Inv.of_drained {s : State} (hp : s.phase = .drained) (htable : s.table.wf) (hsession : SessionInv s)
    (hq : tailMarked s.outq = true) (hacc : s.bitBuffer = 0#19 ∧ s.pendingBits = 0#5) (hcause : s.failCause = 0#2)
    (hx : ∀ x ∈ s.inputs, x.external = true) : Inv s where
  table := htable
  session _ := hsession
  queueEmpty h := by simp [hp] at h
  queueOpen h := by simp [hp] at h
  queueClosed _ := hq
  curNone h := by simp [hp] at h
  accumulatorEmpty _ := hacc
  cause := by simp [hcause, hp]
  external := hx

/-- The invariant speaks of what R10 lists and of the moves to come, and of nothing else. -/
theorem Inv.of_coreView_eq {s t : State} (h : Inv s) (hv : coreView t = coreView s)
    (hx : ∀ x ∈ t.inputs, x.external = true) : Inv t := by
  simp only [coreView, CoreView.mk.injEq] at hv
  obtain ⟨hphase, hcur, hnext, hbuf, hpending, htable, hq, hcause, -⟩ := hv
  exact {
    table := htable ▸ h.table
    session := fun hs => by
      have hinv : SessionInv s := h.session (by simpa only [hasSession, hphase] using hs)
      refine hinv.of_same_dictionary htable hnext (hpending ▸ hinv.pending) (hbuf ▸ hpending ▸ hinv.buffer) fun hm => ?_
      exact hcur ▸ hinv.cur_lt (hphase ▸ hm)
    queueEmpty := by simpa only [hphase, hq] using h.queueEmpty
    queueOpen := by simpa only [hphase, hq] using h.queueOpen
    queueClosed := by simpa only [hphase, hq] using h.queueClosed
    curNone := by simpa only [hphase, hcur] using h.curNone
    accumulatorEmpty := by simpa only [hphase, hbuf, hpending] using h.accumulatorEmpty
    cause := by simpa only [hphase, hcause] using h.cause
    external := hx }

/-! The events. -/

/-- BYTE in SEED (R93): the byte is its own root code. -/
theorem Inv.seedByte {s : State} (h : Inv s) (hp : s.phase = .seed) (d : Byte) : Inv (seedByte d s) := by
  have hsession := h.session (Or.inl hp)
  refine Inv.of_matching rfl h.table ?_ ?_ (h.failCause_eq_zero (by simp [hp])) h.external
  · exact hsession.of_same_dictionary rfl rfl hsession.pending hsession.buffer fun _ =>
      ⟨d.toCode, rfl, hsession.root_lt (toCode_lt_roots d)⟩
  · rw [seedByte_outq, h.queueEmpty (Or.inr (Or.inl hp)), noneMarked_nil]

/-- BYTE in MATCHING, hit branch (R95). -/
theorem Inv.extend {s : State} (h : Inv s) (hp : s.phase = .matching) {i d : SlotIx} {k : Nat} {e : Entry}
    (he : memRead s.table k = some e) : Inv (extend e (setProbe i d s)) := by
  have hsession := h.session (Or.inr (Or.inl hp))
  exact Inv.of_matching hp h.table ((hsession.setProbe i d).setCur (hsession.assignedCode_lt he)) (h.queueOpen hp)
    (h.failCause_eq_zero (by simp [hp])) h.external

theorem miss_table_wf {s : State} (h : s.table.wf) {i : SlotIx} (hi : i.toNat < TABLE_SIZE) (c : Code) (d : Byte) :
    (miss i c d s).table.wf := by
  rw [miss_table]
  split
  · exact wf_memWrite _ _ _ h hi
  · exact h

/-- BYTE in MATCHING, miss branch (R96). -/
theorem Inv.miss {s : State} (h : Inv s) (hp : s.phase = .matching) {i : SlotIx} {c : Code} {d : Byte}
    (hcur : s.cur = some c) (hlook : lookupSlot s.table c d = some i) (hempty : memRead s.table i.toNat = none)
    (stride : SlotIx) : Inv (miss i c d (setProbe i stride s)) := by
  have hsession := h.session (Or.inr (Or.inl hp))
  obtain ⟨c', hcur', hlt⟩ := hsession.cur_lt hp
  obtain rfl : c = c' := Option.some.inj (hcur.symm.trans hcur')
  refine Inv.of_matching (by simpa using hp) (miss_table_wf (s := setProbe i stride s) h.table (lookupSlot_lt hlook) c d)
    ((hsession.setProbe i stride).miss hlook hempty hlt) ?_ (by simpa using h.failCause_eq_zero (by simp [hp]))
    (by simpa using h.external)
  rw [miss_outq, noneMarked_emit]
  exact h.queueOpen hp

theorem Inv.execByte {s t : State} (h : Inv s) {d : Byte} (ht : execByte d s = .next t) : Inv t := by
  rcases execByte_next d s t ht with ⟨hp, rfl⟩ | ⟨hp, c, hcur, hmatch⟩
  · exact h.seedByte hp d
  · obtain ⟨i, hlook, ⟨e, he, rfl⟩ | ⟨hempty, rfl⟩⟩ := matchByte_next c d s t hmatch
    · exact h.extend hp he
    · exact h.miss hp hcur hlook hempty _

/-- The end of END, from any queue in which nothing is marked (R97, R98). -/
theorem inv_finish {s : State} (htable : s.table.wf) (hsession : SessionInv s) (hq : noneMarked s.outq = true)
    (hcause : s.failCause = 0#2) (hx : ∀ x ∈ s.inputs, x.external = true) : Inv (finish s) :=
  Inv.of_drained rfl (by simpa using htable)
    (hsession.of_same_dictionary (finish_table s) (finish_nextCode s) (Or.inl rfl) (by simp) (by simp))
    (tailMarked_finish hq) ⟨rfl, rfl⟩ (by simpa using hcause) (by simpa using hx)

theorem Inv.execEnd {s t : State} (h : Inv s) (ht : execEnd s = .next t) : Inv t := by
  rcases execEnd_next s t ht with ⟨hp, rfl⟩ | ⟨hp, c, -, rfl⟩
  · refine inv_finish h.table (h.session (Or.inl hp)) ?_ (h.failCause_eq_zero (by simp [hp])) h.external
    rw [h.queueEmpty (Or.inr (Or.inl hp)), noneMarked_nil]
  · refine inv_finish h.table ((h.session (Or.inr (Or.inl hp))).emit c) ?_ (h.failCause_eq_zero (by simp [hp])) h.external
    rw [noneMarked_emit]
    exact h.queueOpen hp

/-- POP (R112): a phase whose queue must be empty has none, and the marks of the rest stay right. -/
theorem Inv.pop {s : State} (h : Inv s) {e : OutEntry} {q : List OutEntry} (hq : s.outq = e :: q) :
    Inv { s with outq := q, sunk := s.sunk ++ [e.byte] } where
  table := h.table
  session hs :=
    have hsession : SessionInv s := h.session hs
    hsession.of_same_dictionary rfl rfl hsession.pending hsession.buffer hsession.cur_lt
  queueEmpty hp := by simp [h.queueEmpty hp] at hq
  queueOpen hp := noneMarked_tail (hq ▸ h.queueOpen hp)
  queueClosed hp := tailMarked_tail (hq ▸ h.queueClosed hp)
  curNone := h.curNone
  accumulatorEmpty := h.accumulatorEmpty
  cause := h.cause
  external := h.external

theorem failMask_bits_ne_zero (m : FailMask) : m.bits ≠ 0#2 := by cases m <;> decide

theorem inv_takeFailure (m : FailMask) {s : State} (hx : ∀ x ∈ s.inputs, x.external = true) : Inv (takeFailure m s) :=
  Inv.of_noSession (Or.inr rfl) (wf_freeTable _) rfl rfl (iff_of_true (failMask_bits_ne_zero m) rfl) hx

theorem Inv.execFail {s t : State} (h : Inv s) {m : FailMask} (ht : execFail m s = .next t) : Inv t := by
  rw [(execFail_next m s t).1 ht]
  split
  · exact inv_takeFailure m h.external
  · exact h

theorem inv_resetCore {s : State} (hx : ∀ x ∈ s.inputs, x.external = true) : Inv (resetCore s) :=
  Inv.of_noSession (Or.inl rfl) (wf_freeTable _) rfl rfl (by simp [resetCore]) hx

/-- Every event keeps the invariant. -/
theorem Inv.exec_event {s t : State} (h : Inv s) {i : Instr} (hi : i.isEvent = true) (ht : exec i s = .next t) :
    Inv t := by
  cases i with
  | byte d => exact h.execByte ht
  | endInput => exact h.execEnd ht
  | start =>
    obtain ⟨-, rfl⟩ := (execStart_next s t).1 ht
    exact inv_startSession s h.external
  | fail m => exact h.execFail ht
  | pop =>
    obtain ⟨e, q, hq, rfl⟩ := (execPop_next s t).1 ht
    exact h.pop hq
  | reset =>
    obtain rfl : resetCore s = t := Host.Outcome.next.inj ht
    exact inv_resetCore h.external
  | hash | stride | next | lookup | insert | tinit | sinit | alloc | pinit | emit | flush => cases hi

theorem Inv.runEvents {s t : State} (h : Inv s) {is : List Instr} (hi : ∀ i ∈ is, i.isEvent = true)
    (ht : runEvents is s = .next t) : Inv t := by
  induction is generalizing s with
  | nil =>
    obtain rfl : s = t := Host.Outcome.next.inj ht
    exact h
  | cons i is ih =>
    obtain ⟨u, hu, hrest⟩ := (andThen_eq_next _ _ _).1 ht
    exact ih (h.exec_event (hi i List.mem_cons_self) hu) (fun j hj => hi j (List.mem_cons_of_mem i hj)) hrest

/-! The edge and the step. -/

theorem tokenOf_isEvent (p : PortsIn) : (tokenOf p).isEvent = true := by
  unfold tokenOf
  split <;> rfl

/-- What an edge delivers are events (R108). -/
theorem edgeEvents_isEvent (p : PortsIn) (s : State) : ∀ i ∈ edgeEvents p s, i.isEvent = true := by
  unfold edgeEvents
  split
  · simp [Instr.isEvent]
  · split
    · simp [Instr.isEvent]
    · intro i hi
      simp only [List.mem_append, List.mem_ite_nil_right, List.mem_singleton] at hi
      rcases hi with (⟨_, rfl⟩ | ⟨_, rfl⟩) | ⟨_, rfl⟩
      · rfl
      · rfl
      · exact tokenOf_isEvent p

theorem Inv.edge {s t : State} (h : Inv s) {p : PortsIn} (ht : edge p s = .next t) : Inv t := by
  obtain ⟨u, hu, htick⟩ := (andThen_eq_next _ _ _).1 ht
  obtain rfl : tick (edgeEvents p s) s u = t := Host.Outcome.next.inj htick
  have hinv : Inv u := h.runEvents (edgeEvents_isEvent p s) hu
  exact hinv.of_coreView_eq rfl hinv.external

/-- Taking the next move leaves the rest to come, which is delivered from outside like it (R47). -/
theorem Inv.takeInput {s : State} (h : Inv s) {x : Input} {rest : List Input} (hs : s.inputs = x :: rest) :
    Inv (takeInput rest s) :=
  h.of_coreView_eq rfl fun y hy => h.external y (hs ▸ List.mem_cons_of_mem x hy)

/-- Settles O47: the invariant holds event by event, for a script word and for the events of an edge; a trace line cannot
be the next move. -/
theorem stepKeepsInvariant : Obligations.StepKeepsInvariant := by
  intro s t h hstep
  rcases step_next s t hstep with ⟨-, rfl⟩ | ⟨w, rest, i, hs, hd, ht⟩ | ⟨ws, rest, i, hs, -, -⟩ | ⟨p, rest, hs, ht⟩
  · exact h
  · exact (h.takeInput hs).exec_event (decodeEvent_isEvent w i hd) ht
  · exact absurd (h.external (.trace ws) (hs ▸ List.mem_cons_self)) Bool.false_ne_true
  · exact (h.takeInput hs).edge ht

/-- Settles O46: no session, an empty table and an empty queue. -/
theorem resetMeetsInvariant : Obligations.ResetMeetsInvariant :=
  Inv.of_noSession (Or.inl rfl) wf_reset rfl rfl (by decide) (by simp [State.reset])

end Sys2Proof.Machine

/-! PROOFS. Within a session the dictionary only grows (10_state.md R25 item 10, 40_dictionary.md R71). -/

namespace Sys2Proof.Machine

open Sys2Proof Sys2Proof.Config

/-- Every record of `s` is still in its slot in `t`, and the counter has not gone back. -/
def dictionaryGrows (s t : State) : Prop :=
  (∀ k e, memRead s.table k = some e → memRead t.table k = some e) ∧ s.nextCode.toNat ≤ t.nextCode.toNat

theorem dictionaryGrows_of_eq {s t : State} (h : t.table = s.table ∧ t.nextCode = s.nextCode) : dictionaryGrows s t := by
  rw [dictionaryGrows, h.1, h.2]
  exact ⟨fun _ _ => id, le_rfl⟩

/-- END writes neither table nor counter (R97, R98). -/
theorem execEnd_dictionary {s t : State} (h : execEnd s = .next t) : t.table = s.table ∧ t.nextCode = s.nextCode := by
  rcases execEnd_next s t h with ⟨-, rfl⟩ | ⟨-, c, -, rfl⟩
  · exact ⟨finish_table s, finish_nextCode s⟩
  · exact ⟨finish_table _, finish_nextCode _⟩

/-- POP writes neither table nor counter (R112). -/
theorem execPop_dictionary {s t : State} (h : execPop s = .next t) : t.table = s.table ∧ t.nextCode = s.nextCode := by
  obtain ⟨e, q, -, rfl⟩ := (execPop_next s t).1 h
  exact ⟨rfl, rfl⟩

theorem execByte_seed_dictionary {d : Byte} {s t : State} (hp : s.phase = .seed) (h : execByte d s = .next t) :
    t.table = s.table ∧ t.nextCode = s.nextCode := by
  rcases execByte_next d s t h with ⟨-, rfl⟩ | ⟨hm, -⟩
  · exact ⟨rfl, rfl⟩
  · simp [hp] at hm

/-- A miss with the code space exhausted learns nothing (R78). -/
theorem miss_dictionary_of_exhausted {s : State} (h : MAX_CODE.toNat < s.nextCode.toNat) (i : SlotIx) (c : Code)
    (d : Byte) : (miss i c d s).table = s.table ∧ (miss i c d s).nextCode = s.nextCode := by
  rw [miss_eq_of_exhausted h]
  exact ⟨rfl, rfl⟩

theorem miss_memRead_ne (s : State) (i : SlotIx) (c : Code) (d : Byte) {k : Nat} (hk : k ≠ i.toNat) :
    memRead (miss i c d s).table k = memRead s.table k := by
  rw [miss_table]
  split
  · exact memRead_memWrite_ne _ _ _ _ hk.symm
  · rfl

theorem nextCode_le_miss (s : State) (i : SlotIx) (c : Code) (d : Byte) :
    s.nextCode.toNat ≤ (miss i c d s).nextCode.toNat := by
  rw [miss_nextCode]
  rcases Nat.lt_or_ge MAX_CODE.toNat s.nextCode.toNat with hfull | hroom
  · rw [allocStep_of_exhausted hfull]
  · rw [allocStep_nextCode_toNat hroom]
    exact Nat.le_succ _

/-- A miss writes the empty slot that LOOKUP returned, so it overwrites nothing. -/
theorem dictionaryGrows_miss {s : State} {i : SlotIx} (hempty : memRead s.table i.toNat = none) (c : Code) (d : Byte) :
    dictionaryGrows s (miss i c d s) := by
  refine ⟨fun k e he => ?_, nextCode_le_miss s i c d⟩
  rw [miss_memRead_ne s i c d (by rintro rfl; simp [hempty] at he), he]

theorem dictionaryGrows_execByte {d : Byte} {s t : State} (h : execByte d s = .next t) : dictionaryGrows s t := by
  rcases execByte_next d s t h with ⟨hp, -⟩ | ⟨-, c, -, hmatch⟩
  · exact dictionaryGrows_of_eq (execByte_seed_dictionary hp h)
  · obtain ⟨i, -, ⟨e, -, rfl⟩ | ⟨hempty, rfl⟩⟩ := matchByte_next c d s t hmatch
    · exact dictionaryGrows_of_eq ⟨rfl, rfl⟩
    · exact dictionaryGrows_miss (s := setProbe i _ s) hempty c d

/-- BYTE in MATCHING writes the slot that LOOKUP returns at most, and nothing on a hit or with no code left. -/
theorem matchByte_dictionary {c : Code} {d : Byte} {s t : State} (h : matchByte c d s = .next t) :
    ∃ i, lookupSlot s.table c d = some i ∧ (∀ k, k ≠ i.toNat → memRead t.table k = memRead s.table k) ∧
      (memRead s.table i.toNat ≠ none ∨ s.nextCode = 0xFFF#12 → t.table = s.table ∧ t.nextCode = s.nextCode) := by
  obtain ⟨i, hlook, ⟨e, -, rfl⟩ | ⟨hempty, rfl⟩⟩ := matchByte_next c d s t h
  · exact ⟨i, hlook, fun _ _ => rfl, fun _ => ⟨rfl, rfl⟩⟩
  · refine ⟨i, hlook, fun k hk => miss_memRead_ne (setProbe i _ s) i c d hk, ?_⟩
    rintro (hne | hfull)
    · exact absurd hempty hne
    · exact miss_dictionary_of_exhausted (s := setProbe i _ s) (by rw [setProbe_nextCode, hfull]; decide) i c d

/-- Settles O51: END, POP and BYTE in SEED leave table and counter; BYTE in MATCHING writes the empty slot of its LOOKUP
at most. -/
theorem slotsAreNeverEmptied : Obligations.SlotsAreNeverEmptied := by
  refine ⟨fun i s t hi h => ?_, fun d c s t hp hcur h => ?_⟩
  · cases i with
    | byte d =>
      obtain ⟨hkept, hle⟩ := dictionaryGrows_execByte h
      refine ⟨hkept, hle, ?_⟩
      rintro (hb | hb | hp)
      · cases hb
      · cases hb
      · exact execByte_seed_dictionary hp h
    | endInput =>
      obtain ⟨hkept, hle⟩ := dictionaryGrows_of_eq (execEnd_dictionary h)
      exact ⟨hkept, hle, fun _ => execEnd_dictionary h⟩
    | pop =>
      obtain ⟨hkept, hle⟩ := dictionaryGrows_of_eq (execPop_dictionary h)
      exact ⟨hkept, hle, fun _ => execPop_dictionary h⟩
    | start | fail | reset | hash | stride | next | lookup | insert | tinit | sinit | alloc | pinit | emit | flush =>
      simp [midSession] at hi
  · rcases execByte_next d s t h with ⟨hseed, -⟩ | ⟨-, c', hcur', hmatch⟩
    · simp [hp] at hseed
    · obtain rfl : c = c' := Option.some.inj (hcur.symm.trans hcur')
      exact matchByte_dictionary hmatch

end Sys2Proof.Machine

/-! PROOFS. Every operation, of a script, an edge or a trace line, keeps the canonical form of the table
(20_memory.md R32, notes/assumptions/5.md). What writes the table writes one slot below `TABLE_SIZE` (INSERT, and
BYTE on a miss) or gives all of it slot by slot (TINIT, START, FAIL, RESET). -/

namespace Sys2Proof.Machine

open Sys2Proof Sys2Proof.Config

/-! What a trace operation that can fault does to the table. -/

/-- LOOKUP writes no slot (R63). -/
theorem execLookup_table {p : Code} {b : Byte} {s t : State} (h : execLookup p b s = .next t) : t.table = s.table := by
  unfold execLookup at h
  split at h
  next i u hlook =>
    obtain ⟨rfl, -, -⟩ := lookup_cases p b s u i hlook
    obtain rfl := Host.Outcome.next.inj h
    rfl
  next => cases h

/-- INSERT completes for a slot of the table only (R31, R65). -/
theorem execInsert_next {i : SlotIx} {a p : Code} {b : Byte} {s t : State} (h : execInsert i a p b s = .next t) :
    i.toNat < TABLE_SIZE ∧ t = insert i a p b s := by
  unfold execInsert at h
  split at h
  next hi => exact ⟨hi, (Host.Outcome.next.inj h).symm⟩
  next => cases h

/-! The canonical form, from one operation to a step. -/

theorem execByte_table_wf {d : Byte} {s t : State} (hs : s.table.wf) (h : execByte d s = .next t) : t.table.wf := by
  rcases execByte_next d s t h with ⟨-, rfl⟩ | ⟨-, c, -, hmatch⟩
  · exact hs
  · obtain ⟨i, hlook, ⟨e, -, rfl⟩ | ⟨-, rfl⟩⟩ := matchByte_next c d s t hmatch
    · exact hs
    · exact miss_table_wf (s := setProbe i _ s) hs (lookupSlot_lt hlook) c d

theorem execFail_table_wf {m : FailMask} {s t : State} (hs : s.table.wf) (h : execFail m s = .next t) :
    t.table.wf := by
  rw [(execFail_next m s t).1 h]
  split
  · exact wf_freeTable _
  · exact hs

/-- Every instruction keeps the canonical form, outside its operand contract too. -/
theorem exec_table_wf {i : Instr} {s t : State} (hs : s.table.wf) (h : exec i s = .next t) : t.table.wf := by
  cases i with
  | byte d => exact execByte_table_wf hs h
  | endInput => exact (execEnd_dictionary h).1 ▸ hs
  | start =>
    obtain ⟨-, rfl⟩ := (execStart_next s t).1 h
    exact wf_initialTable
  | fail m => exact execFail_table_wf hs h
  | pop => exact (execPop_dictionary h).1 ▸ hs
  | reset =>
    obtain rfl : resetCore s = t := Host.Outcome.next.inj h
    exact wf_freeTable _
  | lookup p b => exact execLookup_table h ▸ hs
  | insert i a p b =>
    obtain ⟨hi, rfl⟩ := execInsert_next h
    rw [insert_table]
    exact wf_memWrite _ _ _ hs hi
  | tinit =>
    obtain rfl : tinit s = t := Host.Outcome.next.inj h
    exact wf_initialTable
  | alloc =>
    obtain rfl := Host.Outcome.next.inj h
    exact (allocStep_table s).symm ▸ hs
  | flush =>
    obtain rfl : flush s = t := Host.Outcome.next.inj h
    exact (flush_table s).symm ▸ hs
  | hash | stride | next | sinit | pinit | emit =>
    obtain rfl := Host.Outcome.next.inj h
    exact hs

theorem runEvents_table_wf {is : List Instr} {s t : State} (hs : s.table.wf) (h : runEvents is s = .next t) :
    t.table.wf := by
  induction is generalizing s with
  | nil =>
    obtain rfl : s = t := Host.Outcome.next.inj h
    exact hs
  | cons i is ih =>
    obtain ⟨u, hu, hrest⟩ := (andThen_eq_next _ _ _).1 h
    exact ih (exec_table_wf hs hu) hrest

theorem edge_table_wf {p : PortsIn} {s t : State} (hs : s.table.wf) (h : edge p s = .next t) : t.table.wf := by
  obtain ⟨u, hu, htick⟩ := (andThen_eq_next _ _ _).1 h
  obtain rfl : tick (edgeEvents p s) s u = t := Host.Outcome.next.inj htick
  exact runEvents_table_wf (t := u) hs hu

/-- Settles O48: the canonical form is kept by each instruction, so by the one of a word or a trace line and by the
events of an edge. -/
theorem stepKeepsTableCanonical : Obligations.StepKeepsTableCanonical := by
  intro s t hs hstep
  rcases step_next s t hstep with ⟨-, rfl⟩ | ⟨w, rest, i, -, -, ht⟩ | ⟨ws, rest, i, -, -, ht⟩ | ⟨p, rest, -, ht⟩
  · exact hs
  · exact exec_table_wf (s := takeInput rest s) hs ht
  · exact exec_table_wf (s := takeInput rest s) hs ht
  · exact edge_table_wf (s := takeInput rest s) hs ht

end Sys2Proof.Machine

/-! PROOFS. The decoder and the encoder of words and trace lines (30_encoding.md R45 to R48, notes/assumptions/3.md).
A word is its class, operation number and argument, so the decoder answers an instruction exactly on that instruction's
own word; an operand word is its operand zero-extended, so a line is read exactly as it is written. -/

namespace Sys2Proof

open Sys2Proof.Machine

/-! An event word and its three fields. -/

theorem eventWord_fields (w : EventWord) : clsOf w ++ (opOf w ++ argOf w) = w := by
  have hlow : opOf w ++ argOf w = w.extractLsb' 0 12 := BitVec.extractLsb'_append_extractLsb'_eq_extractLsb' rfl
  have hall : clsOf w ++ w.extractLsb' 0 12 = w.extractLsb' 0 13 :=
    BitVec.extractLsb'_append_extractLsb'_eq_extractLsb' rfl
  rw [hlow, hall]
  exact BitVec.extractLsb'_eq_self

theorem clsOf_eq_zero_iff_ne_one (w : EventWord) : clsOf w = 0#1 ↔ clsOf w ≠ 1#1 := by
  rcases BitVec.eq_zero_or_eq_one (clsOf w) with h | h <;> simp [h]

/-- The class of an instruction: 0 for an event, 1 for an internal operation (R45). -/
def Instr.classBit (i : Instr) : BitVec 1 := BitVec.ofBool !i.isEvent

theorem Instr.classBit_of_isEvent {i : Instr} (h : i.isEvent = true) : i.classBit = 0#1 := by
  rw [classBit, h]
  rfl

theorem Instr.classBit_of_not_isEvent {i : Instr} (h : i.isEvent = false) : i.classBit = 1#1 := by
  rw [classBit, h]
  rfl

/-- The operation number of an instruction, within its class (R46, R47). -/
def Instr.opNumber : Instr → BitVec 4
  | .byte _ | .hash _ _ => 0#4
  | .endInput | .stride _ => 1#4
  | .start | .next _ _ => 2#4
  | .fail _ | .lookup _ _ => 3#4
  | .pop | .insert _ _ _ _ => 4#4
  | .reset | .tinit => 5#4
  | .sinit => 6#4
  | .alloc => 7#4
  | .pinit => 8#4
  | .emit _ => 9#4
  | .flush => 10#4

/-- The argument field of an instruction: BYTE's data byte, FAIL's mask, else 0 (R46, R47). -/
def Instr.argByte : Instr → Byte
  | .byte d => d
  | .fail m => m.bits.setWidth 8
  | .endInput | .start | .pop | .reset | .hash _ _ | .stride _ | .next _ _ | .lookup _ _ | .insert _ _ _ _ | .tinit
  | .sinit | .alloc | .pinit | .emit _ | .flush => 0#8

theorem eventWord_eq_fields (i : Instr) : i.eventWord = i.classBit ++ (i.opNumber ++ i.argByte) := by
  cases i with
  | byte d => exact BitVec.append_assoc (x₁ := 0#1) (x₂ := 0#4) (x₃ := d)
  | fail m => cases m <;> rfl
  | _ => dsimp only [Instr.eventWord, Instr.opNumber, Instr.argByte, Instr.classBit, Instr.isEvent]; rfl

@[simp] theorem clsOf_eventWord (i : Instr) : clsOf i.eventWord = i.classBit := by
  rw [eventWord_eq_fields]
  exact BitVec.extractLsb'_append_eq_left

@[simp] theorem opOf_eventWord (i : Instr) : opOf i.eventWord = i.opNumber := by
  rw [eventWord_eq_fields, opOf, BitVec.extractLsb'_append_eq_of_add_le (by decide)]
  exact BitVec.extractLsb'_append_eq_left

@[simp] theorem argOf_eventWord (i : Instr) : argOf i.eventWord = i.argByte := by
  rw [eventWord_eq_fields, argOf, BitVec.extractLsb'_append_eq_of_add_le (by decide)]
  exact BitVec.extractLsb'_append_eq_right

/-- A word with the fields of an instruction is the instruction's word. -/
theorem eq_eventWord {w : EventWord} {i : Instr} (hcls : clsOf w = i.classBit)
    (hop : (opOf w).toNat = i.opNumber.toNat) (harg : argOf w = i.argByte) : w = i.eventWord := by
  rw [← eventWord_fields w, hcls, BitVec.eq_of_toNat_eq hop, harg, eventWord_eq_fields]

/-! The argument of an event: 0, or FAIL's mask. -/

theorem noArg_eq_ok (a : Byte) (i j : Instr) : noArg a i = .ok j ↔ a = 0#8 ∧ i = j := by
  unfold noArg
  split <;> simp [*]

theorem noArg_eq_error (a : Byte) (i : Instr) (e : DecodeError) :
    noArg a i = .error e ↔ a ≠ 0#8 ∧ e = .reserved := by
  unfold noArg
  split <;> simp [*, eq_comm]

theorem eq_bits_of_failMaskOf {a : Byte} {m : FailMask} (h : failMaskOf a = some m) : a = m.bits.setWidth 8 := by
  unfold failMaskOf at h
  split_ifs at h <;> cases h <;> assumption

/-- No mask exactly where R48 reserves the word: `arg[1:0] = 0` or `arg[7:2]` not 0. -/
theorem failMaskOf_eq_none (a : Byte) : failMaskOf a = none ↔ a.toNat % 4 = 0 ∨ a.toNat / 4 ≠ 0 := by
  unfold failMaskOf
  split_ifs with hinput houtput hboth
  · simp [hinput]
  · simp [houtput]
  · simp [hboth]
  · simp only [true_iff]
    bv_omega

/-! The decoder of a script word. -/

theorem decodeEvent_eventWord {i : Instr} (h : i.isEvent = true) : decodeEvent i.eventWord = .ok i := by
  cases i with
  | byte d => simp [decodeEvent, Instr.classBit, Instr.isEvent, Instr.opNumber, Instr.argByte]
  | fail m => cases m <;> rfl
  | endInput | start | pop | reset => rfl
  | _ => cases h

theorem eq_eventWord_of_decodeEvent {w : EventWord} {i : Instr} (h : decodeEvent w = .ok i) : w = i.eventWord := by
  unfold decodeEvent at h
  dsimp only at h
  split at h
  · split at h <;> cases h
  next hcls =>
    have hzero := (clsOf_eq_zero_iff_ne_one w).2 hcls
    split at h
    case h_1 hop =>
      cases h
      exact eq_eventWord hzero hop rfl
    case h_4 hop =>
      split at h
      next m hm =>
        cases h
        exact eq_eventWord hzero hop (eq_bits_of_failMaskOf hm)
      next => cases h
    case h_7 => cases h
    case h_2 hop | h_3 hop | h_5 hop | h_6 hop =>
      obtain ⟨harg, rfl⟩ := (noArg_eq_ok _ _ _).1 h
      exact eq_eventWord hzero hop harg

theorem decodeEvent_eq_ok_iff (w : EventWord) (i : Instr) :
    decodeEvent w = .ok i ↔ i.isEvent = true ∧ w = i.eventWord :=
  ⟨fun h => ⟨decodeEvent_isEvent w i h, eq_eventWord_of_decodeEvent h⟩, fun ⟨hi, hw⟩ => hw ▸ decodeEvent_eventWord hi⟩

/-! A trace line (notes/assumptions/3.md). -/

theorem eq_setWidth_iff {n : Nat} (hn : n ≤ 16) (w : TraceWord) (x : BitVec n) :
    w = x.setWidth 16 ↔ w.toNat < 2 ^ n ∧ w.setWidth n = x := by
  constructor
  · rintro rfl
    rw [BitVec.toNat_setWidth_of_le hn]
    exact ⟨x.isLt, (BitVec.setWidth_setWidth_of_le x hn).trans (BitVec.setWidth_eq x)⟩
  · rintro ⟨hlt, rfl⟩
    apply BitVec.eq_of_toNat_eq
    rw [BitVec.toNat_setWidth_of_le hn, BitVec.toNat_setWidth, Nat.mod_eq_of_lt hlt]

theorem operand_eq_ok {n : Nat} (hn : n ≤ 16) (w : TraceWord) (x : BitVec n) :
    operand n w = .ok x ↔ w = x.setWidth 16 := by
  rw [eq_setWidth_iff hn, operand]
  split <;> simp [*]

@[simp] theorem operand_setWidth {n : Nat} (x : BitVec n) (hn : n ≤ 16) : operand n (x.setWidth 16) = .ok x :=
  (operand_eq_ok hn _ x).2 rfl

theorem operand_bind_eq_ok {n : Nat} {α : Type} (hn : n ≤ 16) (w : TraceWord) (f : BitVec n → Except DecodeError α)
    (r : α) : (operand n w >>= f) = .ok r ↔ ∃ x : BitVec n, w = x.setWidth 16 ∧ f x = .ok r := by
  simp only [← operand_eq_ok hn]
  cases operand n w <;> simp [bind, Except.bind]

theorem decodeOperation_operandWords {i : Instr} (h : i.isEvent = false) (rest : List TraceWord) :
    decodeOperation i.opNumber.toNat (i.operandWords ++ rest) = .ok (i, rest) := by
  cases i with
  | byte | endInput | start | fail | pop | reset => cases h
  | _ => simp [decodeOperation, Instr.opNumber, Instr.operandWords, bind, Except.bind, pure, Except.pure]

theorem eq_operandWords_of_decodeOperation {op : Nat} {ws rest : List TraceWord} {i : Instr}
    (h : decodeOperation op ws = .ok (i, rest)) :
    i.isEvent = false ∧ op = i.opNumber.toNat ∧ ws = i.operandWords ++ rest := by
  unfold decodeOperation at h
  split at h
  case h_2 | h_10 =>
    split at h
    · simp (disch := decide) only [operand_bind_eq_ok] at h
      obtain ⟨x, rfl, h⟩ := h
      cases h
      exact ⟨rfl, rfl, rfl⟩
    · cases h
  case h_1 | h_3 | h_4 =>
    split at h
    · simp (disch := decide) only [operand_bind_eq_ok] at h
      obtain ⟨x, rfl, y, rfl, h⟩ := h
      cases h
      exact ⟨rfl, rfl, rfl⟩
    · cases h
  case h_5 =>
    split at h
    · simp (disch := decide) only [operand_bind_eq_ok] at h
      obtain ⟨k, rfl, a, rfl, p, rfl, b, rfl, h⟩ := h
      cases h
      exact ⟨rfl, rfl, rfl⟩
    · cases h
  case h_6 | h_7 | h_8 | h_9 | h_11 =>
    cases h
    exact ⟨rfl, rfl, rfl⟩
  case h_12 => cases h

theorem operandWords_of_isEvent {i : Instr} (h : i.isEvent = true) : i.operandWords = [] := by
  cases i with
  | byte | endInput | start | fail | pop | reset => rfl
  | _ => cases h

theorem argByte_of_not_isEvent {i : Instr} (h : i.isEvent = false) : i.argByte = 0#8 := by
  cases i with
  | byte | endInput | start | fail | pop | reset => cases h
  | _ => rfl

/-- A line that starts with a class 0 word is that event, with the rest left over. -/
theorem decode_of_event {w : EventWord} (h : clsOf w = 0#1) (ws : List TraceWord) (i : Instr)
    (rest : List TraceWord) : decode (w.setWidth 16 :: ws) = .ok (i, rest) ↔ decodeEvent w = .ok i ∧ ws = rest := by
  obtain ⟨hlt, hw⟩ := (eq_setWidth_iff (n := 13) (by decide) _ w).1 rfl
  simp only [decode, if_neg (Nat.not_le.2 hlt), hw, if_pos h]
  cases decodeEvent w <;> simp

/-- A line that starts with a class 1 word takes its operands from the words after it. -/
theorem decode_of_operation {w : EventWord} (h : clsOf w = 1#1) (ws : List TraceWord) (i : Instr)
    (rest : List TraceWord) : decode (w.setWidth 16 :: ws) = .ok (i, rest) ↔
      argOf w = 0#8 ∧ decodeOperation (opOf w).toNat ws = .ok (i, rest) := by
  obtain ⟨hlt, hw⟩ := (eq_setWidth_iff (n := 13) (by decide) _ w).1 rfl
  simp only [decode, if_neg (Nat.not_le.2 hlt), hw, h, if_neg (by decide : (1#1) ≠ 0#1)]
  split <;> simp [*]

theorem decode_encode (i : Instr) (rest : List TraceWord) : decode (encode i ++ rest) = .ok (i, rest) := by
  rw [encode, List.cons_append]
  cases hi : i.isEvent with
  | true =>
    rw [decode_of_event ((clsOf_eventWord i).trans (Instr.classBit_of_isEvent hi)), operandWords_of_isEvent hi]
    exact ⟨decodeEvent_eventWord hi, rfl⟩
  | false =>
    rw [decode_of_operation ((clsOf_eventWord i).trans (Instr.classBit_of_not_isEvent hi)), argOf_eventWord,
      opOf_eventWord]
    exact ⟨argByte_of_not_isEvent hi, decodeOperation_operandWords hi rest⟩

/-- The first word of a line that decodes is a zero-extended event word. -/
theorem exists_eventWord_of_decode {ws : List TraceWord} {r : Instr × List TraceWord} (h : decode ws = .ok r) :
    ∃ (w : EventWord) (ops : List TraceWord), ws = w.setWidth 16 :: ops := by
  unfold decode at h
  split at h
  · cases h
  next w ops =>
    split at h
    · cases h
    next hlt =>
      have hw : w = (w.setWidth 13).setWidth 16 := (eq_setWidth_iff (by decide) w _).2 ⟨by omega, rfl⟩
      exact ⟨w.setWidth 13, ops, congrArg (· :: ops) hw⟩

theorem eq_encode_of_decode {ws : List TraceWord} {i : Instr} {rest : List TraceWord} (h : decode ws = .ok (i, rest)) :
    ws = encode i ++ rest := by
  obtain ⟨w, ops, rfl⟩ := exists_eventWord_of_decode h
  rw [encode, List.cons_append]
  rcases BitVec.eq_zero_or_eq_one (clsOf w) with hcls | hcls
  · obtain ⟨hev, rfl⟩ := (decode_of_event hcls ops i rest).1 h
    obtain ⟨hi, rfl⟩ := (decodeEvent_eq_ok_iff w i).1 hev
    rw [operandWords_of_isEvent hi, List.nil_append]
  · obtain ⟨harg, hoper⟩ := (decode_of_operation hcls ops i rest).1 h
    obtain ⟨hi, hnum, rfl⟩ := eq_operandWords_of_decodeOperation hoper
    have hw : w = i.eventWord :=
      eq_eventWord (hcls.trans (Instr.classBit_of_not_isEvent hi).symm) hnum
        (harg.trans (argByte_of_not_isEvent hi).symm)
    rw [hw]

theorem decodeLine_eq_ok (ws : List TraceWord) (i : Instr) : decodeLine ws = .ok i ↔ decode ws = .ok (i, []) := by
  unfold decodeLine
  split <;> simp [*]

theorem decodeLine_eq_ok_iff (ws : List TraceWord) (i : Instr) : decodeLine ws = .ok i ↔ ws = encode i := by
  rw [decodeLine_eq_ok]
  constructor
  · exact fun h => (eq_encode_of_decode h).trans (List.append_nil _)
  · rintro rfl
    simpa using decode_encode i []

/-- Settles O4: an instruction's first word carries its class, number and argument, the operand words its operands; the
decoder reads both back, and what it answers fixes every word it read. -/
theorem decodeAndEncodeAgree : Obligations.DecodeAndEncodeAgree :=
  ⟨decode_encode, decodeLine_eq_ok_iff, decodeEvent_eq_ok_iff⟩

/-- Settles O1: each word is the event word of its event. -/
theorem eventWordsDecodeAsTabled : Obligations.EventWordsDecodeAsTabled := by
  have hword (i : Instr) (hi : i.isEvent = true) : decodeEvent i.eventWord = .ok i := decodeEvent_eventWord hi
  refine ⟨fun d => ?_, hword .endInput rfl, hword .start rfl, hword (.fail .input) rfl, hword (.fail .output) rfl,
    hword (.fail .both) rfl, hword .pop rfl, hword .reset rfl⟩
  have hbyte : 0x0000#13 ||| d.setWidth 13 = (Instr.byte d).eventWord := by
    rw [BitVec.setWidth_eq_append (by decide)]
    simp [Instr.eventWord]
  rw [hbyte]
  exact hword (.byte d) rfl

/-- Settles O2: each line is the encoding of its operation. -/
theorem operationLinesDecode : Obligations.OperationLinesDecode := by
  have hline (i : Instr) : decodeLine (encode i) = .ok i := (decodeLine_eq_ok_iff _ i).2 rfl
  exact ⟨fun p b => hline (.hash p b), fun h => hline (.stride h), fun i d => hline (.next i d),
    fun p b => hline (.lookup p b), fun i a p b => hline (.insert i a p b), hline .tinit, hline .sinit, hline .alloc,
    hline .pinit, fun c => hline (.emit c), hline .flush⟩

end Sys2Proof

/-! PROOFS. Which words and scripts are refused (30_encoding.md R48): a refused word is reserved or internal by its fields
alone, and the script decoder stops at the first refused word. -/

namespace Sys2Proof

/-! One word. -/

/-- A class 1 word is refused: as internal where R47 lists it, else as reserved. -/
theorem decodeEvent_of_internal {w : EventWord} (h : clsOf w = 1#1) :
    decodeEvent w = .error (if argOf w = 0#8 ∧ (opOf w).toNat ≤ 10 then .internal else .reserved) := by
  unfold decodeEvent
  dsimp only
  rw [if_pos h]
  split_ifs <;> rfl

/-- The class 0 words that R48 reserves: an operation number without event, an argument where none may stand, and a FAIL
without a mask. -/
def reservedEvent (w : EventWord) : Prop :=
  6 ≤ (opOf w).toNat ∨
    (((opOf w).toNat = 1 ∨ (opOf w).toNat = 2 ∨ (opOf w).toNat = 4 ∨ (opOf w).toNat = 5) ∧ argOf w ≠ 0#8) ∨
    ((opOf w).toNat = 3 ∧ ((argOf w).toNat % 4 = 0 ∨ (argOf w).toNat / 4 ≠ 0))

/-- A class 0 word is refused as reserved only, and exactly where R48 lists it. -/
theorem decodeEvent_of_event_eq_error {w : EventWord} (h : clsOf w = 0#1) (e : DecodeError) :
    decodeEvent w = .error e ↔ e = .reserved ∧ reservedEvent w := by
  unfold decodeEvent reservedEvent
  dsimp only
  rw [if_neg ((clsOf_eq_zero_iff_ne_one w).1 h), ← failMaskOf_eq_none]
  split
  case h_1 hop => simp [hop]
  case h_4 hop => cases hm : failMaskOf (argOf w) <;> simp [hop, eq_comm]
  case h_7 h0 h1 h2 h3 h4 h5 =>
    simp only [imp_false] at h0 h1 h2 h3 h4 h5
    have hge : 6 ≤ (opOf w).toNat := by omega
    simp [hge, eq_comm]
  case h_2 hop | h_3 hop | h_5 hop | h_6 hop => simp [noArg_eq_error, hop, and_comm]

theorem decodeEvent_eq_reserved (w : EventWord) :
    decodeEvent w = .error .reserved ↔
      (clsOf w = 0#1 ∧ reservedEvent w) ∨ (clsOf w = 1#1 ∧ (11 ≤ (opOf w).toNat ∨ argOf w ≠ 0#8)) := by
  rcases BitVec.eq_zero_or_eq_one (clsOf w) with h | h
  · simp [decodeEvent_of_event_eq_error h, h]
  · rw [decodeEvent_of_internal h]
    split_ifs with hlisted
    · simp [h, hlisted.1, Nat.not_le.2 (Nat.lt_succ_of_le hlisted.2)]
    · have hwide : 11 ≤ (opOf w).toNat ∨ argOf w ≠ 0#8 := by
        rw [not_and_or, Nat.not_le] at hlisted
        exact hlisted.symm
      simp [h, hwide]

theorem decodeEvent_eq_internal (w : EventWord) :
    decodeEvent w = .error .internal ↔ clsOf w = 1#1 ∧ (opOf w).toNat ≤ 10 ∧ argOf w = 0#8 := by
  rcases BitVec.eq_zero_or_eq_one (clsOf w) with h | h
  · simp [decodeEvent_of_event_eq_error h, h]
  · rw [decodeEvent_of_internal h]
    split_ifs with hlisted
    · simp [h, hlisted]
    · simp [h, and_comm (a := _ ≤ 10), hlisted]

/-! A script. -/

theorem decodeScript_cons_of_error {w : EventWord} {e : DecodeError} (h : decodeEvent w = .error e) (pos : Nat)
    (ws : List EventWord) : decodeScript pos (w :: ws) = .error (pos, e) := by
  simp [decodeScript, h]

theorem decodeScript_cons_eq_error {w : EventWord} {i : Instr} (h : decodeEvent w = .ok i) (pos : Nat)
    (ws : List EventWord) (x : Nat × DecodeError) :
    decodeScript pos (w :: ws) = .error x ↔ decodeScript (pos + 1) ws = .error x := by
  simp only [decodeScript, h]
  cases decodeScript (pos + 1) ws <;> simp

theorem decodeScript_cons_eq_ok {w : EventWord} {i : Instr} (h : decodeEvent w = .ok i) (pos : Nat)
    (ws : List EventWord) (is : List Instr) :
    decodeScript pos (w :: ws) = .ok is ↔ ∃ js, decodeScript (pos + 1) ws = .ok js ∧ is = i :: js := by
  simp only [decodeScript, h]
  cases decodeScript (pos + 1) ws <;> simp [eq_comm]

/-- The word at position `k` is refused by `e`, and no word before it is. -/
def firstRefused (ws : List EventWord) (k : Nat) (e : DecodeError) : Prop :=
  ∃ w, ws[k]? = some w ∧ decodeEvent w = .error e ∧ ∀ j, j < k → ∃ v i, ws[j]? = some v ∧ decodeEvent v = .ok i

theorem firstRefused_cons_zero (w : EventWord) (ws : List EventWord) (e : DecodeError) :
    firstRefused (w :: ws) 0 e ↔ decodeEvent w = .error e := by
  simp [firstRefused]

theorem firstRefused_cons_succ (w : EventWord) (ws : List EventWord) (k : Nat) (e : DecodeError) :
    firstRefused (w :: ws) (k + 1) e ↔ (∃ i, decodeEvent w = .ok i) ∧ firstRefused ws k e := by
  simp only [firstRefused, List.getElem?_cons_succ]
  constructor
  · rintro ⟨v, hv, he, hbefore⟩
    refine ⟨by simpa using hbefore 0 (Nat.succ_pos k), v, hv, he, fun j hj => ?_⟩
    simpa using hbefore (j + 1) (Nat.succ_lt_succ hj)
  · rintro ⟨⟨i, hi⟩, v, hv, he, hbefore⟩
    refine ⟨v, hv, he, fun j hj => ?_⟩
    cases j with
    | zero => exact ⟨w, i, rfl, hi⟩
    | succ j => simpa using hbefore j (Nat.lt_of_succ_lt_succ hj)

theorem decodeScript_eq_error (pos : Nat) (ws : List EventWord) (n : Nat) (e : DecodeError) :
    decodeScript pos ws = .error (n, e) ↔ ∃ k, n = pos + k ∧ firstRefused ws k e := by
  induction ws generalizing pos with
  | nil => simp [decodeScript, firstRefused]
  | cons w ws ih =>
    rw [← Nat.or_exists_add_one]
    simp only [firstRefused_cons_zero, firstRefused_cons_succ]
    cases h : decodeEvent w with
    | error f => simp [decodeScript_cons_of_error h, eq_comm]
    | ok i =>
      rw [decodeScript_cons_eq_error h, ih]
      simp [Nat.add_assoc, Nat.add_comm 1]

theorem decodeScript_eq_ok (pos : Nat) (ws : List EventWord) (is : List Instr) :
    decodeScript pos ws = .ok is ↔ ws.map decodeEvent = is.map .ok := by
  induction ws generalizing pos is with
  | nil => simp [decodeScript, eq_comm]
  | cons w ws ih =>
    cases h : decodeEvent w with
    | error f => cases is <;> simp [decodeScript_cons_of_error h, h]
    | ok i =>
      rw [decodeScript_cons_eq_ok h]
      cases is <;> simp [h, ih, and_comm, eq_comm (a := i)]

/-- Settles O3: the fields of a word decide its refusal, and the script decoder stops at the first refused word. -/
theorem reservedWordsRefusedByPosition : Obligations.ReservedWordsRefusedByPosition := by
  refine ⟨decodeEvent_eq_reserved, decodeEvent_eq_internal, fun pos ws n e => ?_, decodeScript_eq_ok⟩
  simp only [decodeScript_eq_error, firstRefused, exists_and_left]

end Sys2Proof

/-! PROOFS. The rows of the opcode table (30_encoding.md R46, R47): a word that a row covers is the event word of an
instruction with the row's mnemonic, and by `Laws.RowOfMnemonic` the rows that cover such a word are that one row. -/

namespace Sys2Proof

open Laws.RowOfMnemonic (Statement)

theorem rowOfMnemonic (i : Instr) : Statement i := by
  cases i with
  | byte d => exact Laws.RowOfMnemonic.byte d
  | endInput => exact Laws.RowOfMnemonic.endInput
  | start => exact Laws.RowOfMnemonic.start
  | fail m => exact Laws.RowOfMnemonic.fail m
  | pop => exact Laws.RowOfMnemonic.pop
  | reset => exact Laws.RowOfMnemonic.reset
  | hash p b => exact Laws.RowOfMnemonic.hash p b
  | stride h => exact Laws.RowOfMnemonic.stride h
  | next i d => exact Laws.RowOfMnemonic.next i d
  | lookup p b => exact Laws.RowOfMnemonic.lookup p b
  | insert i a p b => exact Laws.RowOfMnemonic.insert i a p b
  | tinit => exact Laws.RowOfMnemonic.tinit
  | sinit => exact Laws.RowOfMnemonic.sinit
  | alloc => exact Laws.RowOfMnemonic.alloc
  | pinit => exact Laws.RowOfMnemonic.pinit
  | emit c => exact Laws.RowOfMnemonic.emit c
  | flush => exact Laws.RowOfMnemonic.flush

/-! From a covered word back to an instruction. -/

theorem covers_iff (r : OpRow) (w : EventWord) :
    r.covers w = true ↔ w &&& r.mask = r.pattern ∧ r.excluded ≠ some w := by
  simp [OpRow.covers]

/-- Every word of the row is the event word of an instruction with the row's mnemonic. -/
def OpRow.sound (r : OpRow) : Prop :=
  ∀ w, r.covers w = true → ∃ i : Instr, i.eventWord = w ∧ i.mnemonic = r.mnemonic

/-- A row whose mask is the whole word has one word. -/
theorem sound_of_full_mask (i : Instr) : (OpRow.mk i.mnemonic 0x1FFF#13 i.eventWord none).sound := by
  intro w h
  obtain ⟨hw, -⟩ := (covers_iff _ w).1 h
  rw [show 0x1FFF#13 = BitVec.allOnes 13 from rfl, BitVec.and_allOnes] at hw
  exact ⟨i, hw.symm, rfl⟩

/-- A mask with class and operation number in full fixes both; its low byte is a mask on the argument. -/
theorem fields_of_masked {w pattern : EventWord} {a : Byte} (h : w &&& (0x1F#5 ++ a) = pattern) :
    clsOf w = clsOf pattern ∧ opOf w = opOf pattern ∧ argOf w &&& a = argOf pattern := by
  have hcls : clsOf (0x1F#5 ++ a) = BitVec.allOnes 1 := BitVec.extractLsb'_append_eq_of_le (by decide)
  have hop : opOf (0x1F#5 ++ a) = BitVec.allOnes 4 := BitVec.extractLsb'_append_eq_of_le (by decide)
  have harg : argOf (0x1F#5 ++ a) = a := BitVec.extractLsb'_append_eq_right
  subst h
  simp only [clsOf, opOf, argOf, BitVec.extractLsb'_and] at hcls hop harg ⊢
  rw [hcls, hop, harg, BitVec.and_allOnes, BitVec.and_allOnes]
  exact ⟨rfl, rfl, rfl⟩

theorem sound_byte : (OpRow.mk "BYTE" 0x1F00#13 0x0000#13 none).sound := by
  intro w h
  obtain ⟨hw, -⟩ := (covers_iff _ w).1 h
  obtain ⟨hcls, hop, -⟩ := fields_of_masked (a := 0x00#8) hw
  exact ⟨.byte (argOf w), (eq_eventWord hcls (congrArg BitVec.toNat hop) rfl).symm, rfl⟩

/-- A byte with bits 7 to 2 zero, and not 0, is a FAIL mask. -/
theorem failMaskOf_of_low_bits : ∀ a : Byte, a &&& 0xFC#8 = 0#8 → a ≠ 0#8 → failMaskOf a ≠ none := by
  decide

theorem sound_fail : (OpRow.mk "FAIL" 0x1FFC#13 0x0300#13 (some 0x0300#13)).sound := by
  intro w h
  obtain ⟨hw, hne⟩ := (covers_iff _ w).1 h
  obtain ⟨hcls, hop, harg⟩ := fields_of_masked (a := 0xFC#8) hw
  have hzero : argOf w ≠ 0#8 := by
    intro hzero
    refine hne (congrArg some ?_)
    rw [← eventWord_fields w, hcls, hop, hzero]
    rfl
  obtain ⟨m, hm⟩ := Option.ne_none_iff_exists'.1 (failMaskOf_of_low_bits _ harg hzero)
  exact ⟨.fail m, (eq_eventWord hcls (congrArg BitVec.toNat hop) (eq_bits_of_failMaskOf hm)).symm, rfl⟩

theorem sound_of_mem_opcodeRows : ∀ r ∈ opcodeRows, r.sound := by
  simp only [opcodeRows, eventRows, operationRows, List.cons_append, List.nil_append, List.forall_mem_cons]
  exact ⟨sound_byte, sound_of_full_mask .endInput, sound_of_full_mask .start, sound_fail, sound_of_full_mask .pop,
    sound_of_full_mask .reset, sound_of_full_mask (.hash 0 0), sound_of_full_mask (.stride 0),
    sound_of_full_mask (.next 0 0), sound_of_full_mask (.lookup 0 0), sound_of_full_mask (.insert 0 0 0 0),
    sound_of_full_mask .tinit, sound_of_full_mask .sinit, sound_of_full_mask .alloc, sound_of_full_mask .pinit,
    sound_of_full_mask (.emit 0), sound_of_full_mask .flush, fun _ h => nomatch h⟩

/-! From an instruction to its row. -/

theorem exists_row (i : Instr) : ∃ r ∈ opcodeRows, r.covers i.eventWord = true ∧ r.mnemonic = i.mnemonic := by
  have hmem : i.mnemonic ∈ (opcodeRows.filter fun r => r.covers i.eventWord).map OpRow.mnemonic := by
    rw [rowOfMnemonic i]
    exact List.mem_singleton_self _
  obtain ⟨r, hr, hm⟩ := List.mem_map.1 hmem
  obtain ⟨hrow, hcov⟩ := List.mem_filter.1 hr
  exact ⟨r, hrow, hcov, hm⟩

theorem mnemonics_nodup : (opcodeRows.map OpRow.mnemonic).Nodup := by decide

theorem row_eq_of_mnemonic {r q : OpRow} (hr : r ∈ opcodeRows) (hq : q ∈ opcodeRows) (h : r.mnemonic = q.mnemonic) :
    r = q :=
  List.inj_on_of_nodup_map mnemonics_nodup hr hq h

theorem covers_eventWord {r : OpRow} (hr : r ∈ opcodeRows) {i : Instr} (h : i.mnemonic = r.mnemonic) :
    r.covers i.eventWord = true := by
  obtain ⟨q, hq, hcov, hm⟩ := exists_row i
  exact row_eq_of_mnemonic hq hr (hm.trans h) ▸ hcov

/-- No two rows cover one word: a covered word is an instruction's, and one row covers that. -/
theorem covering_rows_le_one (w : EventWord) : (opcodeRows.filter fun r => r.covers w).length ≤ 1 := by
  cases h : opcodeRows.filter fun r => r.covers w with
  | nil => exact Nat.zero_le 1
  | cons r rs =>
    obtain ⟨hr, hcov⟩ := List.mem_filter.1 (h ▸ List.mem_cons_self : r ∈ opcodeRows.filter fun r => r.covers w)
    obtain ⟨i, rfl, -⟩ := sound_of_mem_opcodeRows r hr w hcov
    rw [← h, ← List.length_map OpRow.mnemonic, rowOfMnemonic i]
    rfl

/-- Settles O5: each row is sound, each instruction has its row, and mnemonics name rows uniquely. -/
theorem opcodeRowsAreTheEncoding : Obligations.OpcodeRowsAreTheEncoding := by
  refine ⟨covering_rows_le_one, fun w r hr => ⟨sound_of_mem_opcodeRows r hr w, ?_⟩, fun i => ?_⟩
  · rintro ⟨i, rfl, hm⟩
    exact covers_eventWord hr hm
  · obtain ⟨r, hr, -, hm⟩ := exists_row i
    exact ⟨r, hr, hm⟩

end Sys2Proof

/-! PROOFS. The packed slot word (30_encoding.md R50) and the encodings of `phase` and `failCause` (R54, R55): the word is
its three fields side by side, so its reading gives back a record whose codes are codes. -/

namespace Sys2Proof.Machine

open Sys2Proof Sys2Proof.Config

/-! The fields of a packed record. -/

theorem packSlot_assignedCode (e : Entry) : (packSlot (some e)).extractLsb' 20 12 = e.assignedCode := by
  refine (BitVec.extractLsb'_append_eq_of_le (by decide)).trans ?_
  exact BitVec.extractLsb'_append_eq_left

theorem packSlot_prefixCode (e : Entry) : (packSlot (some e)).extractLsb' 8 12 = codeField e.prefixCode := by
  refine (BitVec.extractLsb'_append_eq_of_le (by decide)).trans ?_
  exact BitVec.extractLsb'_append_eq_right

theorem packSlot_appendedByte (e : Entry) : (packSlot (some e)).extractLsb' 0 8 = e.appendedByte :=
  BitVec.extractLsb'_append_eq_right

theorem toNat_append_eq_add {m n : Nat} (x : BitVec m) (y : BitVec n) : (x ++ y).toNat = x.toNat * 2 ^ n + y.toNat := by
  rw [BitVec.toNat_append, ← Nat.shiftLeft_add_eq_or_of_lt y.isLt, Nat.shiftLeft_eq]

theorem packSlot_rootEntry_toNat {i : Nat} (hi : i < ROOTS) :
    (packSlot (some (rootEntry i))).toNat = i * 2 ^ 20 + 0xFFF00 + i := by
  rw [packSlot, toNat_append_eq_add, toNat_append_eq_add]
  rw [ROOTS_eq] at hi
  have hcode : (rootEntry i).assignedCode.toNat = i := Nat.mod_eq_of_lt (by omega)
  have hbyte : (rootEntry i).appendedByte.toNat = i := Nat.mod_eq_of_lt hi
  have hnone : (codeField (rootEntry i).prefixCode).toNat = 0xFFF := rfl
  rw [hcode, hbyte, hnone]
  omega

/-! Reading a packed word. -/

theorem unpackSlot_eq_none (w : SlotWord) : unpackSlot w = none ↔ w.extractLsb' 20 12 = 0xFFF#12 := by
  unfold unpackSlot
  dsimp only
  split <;> simp [*]

theorem ne_maxValue_of_le {c : Code} (h : c.toNat ≤ MAX_CODE.toNat) : c ≠ MAX_VALUE := by
  rintro rfl
  exact absurd h (by decide)

/-- A code field gives back "absent" and every code below the sentinel. -/
theorem fieldCode_codeField {c : Option Code} (h : ∀ p, c = some p → p.toNat ≤ MAX_CODE.toNat) :
    fieldCode (codeField c) = c := by
  cases c with
  | none => rfl
  | some p => exact if_neg (ne_maxValue_of_le (h p rfl))

theorem unpackSlot_packSlot {e : Entry} (ha : e.assignedCode.toNat ≤ MAX_CODE.toNat)
    (hp : ∀ p, e.prefixCode = some p → p.toNat ≤ MAX_CODE.toNat) : unpackSlot (packSlot (some e)) = some e := by
  unfold unpackSlot
  dsimp only
  rw [packSlot_assignedCode, packSlot_prefixCode, packSlot_appendedByte, if_neg (ne_maxValue_of_le ha),
    fieldCode_codeField hp]

/-- Settles O6: an empty slot's word has the sentinel in its code field. -/
theorem slotWordRoundTrip : Obligations.SlotWordRoundTrip :=
  ⟨rfl, (unpackSlot_eq_none _).2 rfl,
    fun e => ⟨packSlot_assignedCode e, packSlot_prefixCode e, packSlot_appendedByte e⟩,
    fun _ hi => packSlot_rootEntry_toNat hi, unpackSlot_eq_none, fun _ ha hp => unpackSlot_packSlot ha hp⟩

theorem phase_bits_injective {p q : Phase} (h : p.bits = q.bits) : p = q := by
  revert h
  cases p <;> cases q <;> decide

/-- Settles O7: R54's and R55's tables are the model's, value by value. -/
theorem phaseAndCauseEncodings : Obligations.PhaseAndCauseEncodings :=
  ⟨⟨rfl, rfl, rfl, rfl, rfl⟩, fun _ _ => phase_bits_injective, rfl, rfl, rfl, failMask_bits_ne_zero⟩

end Sys2Proof.Machine

/-! PROOFS. A step makes the environment's next move (44_interfaces.md R108, notes/assumptions/1.md): it runs what the
decoder reads, refuses by position what it cannot read, and waits with no move left. -/

namespace Sys2Proof.Machine

open Sys2Proof Sys2Proof.Config

/-! The step, by the next move. -/

section NextMove

variable {s : State} {rest : List Input}

theorem step_of_no_input (h : s.inputs = []) : step s = .next s := by
  simp [step, fetch, h]

theorem step_of_word {w : EventWord} {i : Instr} (h : s.inputs = .word w :: rest) (hd : decodeEvent w = .ok i) :
    step s = exec i (takeInput rest s) := by
  simp [step, fetch, h, hd]

theorem step_of_refused_word {w : EventWord} {e : DecodeError} (h : s.inputs = .word w :: rest)
    (hd : decodeEvent w = .error e) : step s = .refused (.undecodable (s.line + 1) e) := by
  simp [step, fetch, h, hd]

theorem step_of_trace {ws : List TraceWord} {i : Instr} (h : s.inputs = .trace ws :: rest)
    (hd : decodeLine ws = .ok i) : step s = exec i (takeInput rest s) := by
  simp [step, fetch, h, hd]

theorem step_of_refused_trace {ws : List TraceWord} {e : DecodeError} (h : s.inputs = .trace ws :: rest)
    (hd : decodeLine ws = .error e) : step s = .refused (.undecodable (s.line + 1) e) := by
  simp [step, fetch, h, hd]

theorem step_of_edge {p : PortsIn} (h : s.inputs = .edge p :: rest) : step s = edge p (takeInput rest s) := by
  simp [step, fetch, h]

end NextMove

/-! A move placed by its bits. -/

theorem decodeTableWord_eq_some {nbits w : Nat} {i : Instr} :
    decodeTableWord nbits w = some i ↔ decodeLine (tableLine nbits w) = .ok i := by
  unfold decodeTableWord
  split <;> simp [*]

theorem operandCount_of_class_zero {n : Nat} (h : n < 2 ^ 12) : operandCount n = 0 := by
  unfold operandCount
  split <;> omega

/-- The bits of an event make a line of one word. -/
theorem tableLine_of_class_zero {nbits w : Nat} (h : w % 2 ^ nbits < 2 ^ 12) :
    tableLine nbits w = [BitVec.ofNat 16 (w % 2 ^ nbits)] := by
  rw [tableLine, Nat.mod_eq_of_lt (b := 2 ^ 16) (by omega), operandCount_of_class_zero h]
  rfl

theorem setWidth_ofNat_of_lt {n : Nat} (h : n < 2 ^ 12) :
    BitVec.ofNat 16 n = (BitVec.ofNat 13 n).setWidth 16 := by
  apply BitVec.eq_of_toNat_eq
  rw [BitVec.toNat_setWidth, BitVec.toNat_ofNat, BitVec.toNat_ofNat]
  omega

theorem clsOf_ofNat {n : Nat} (h : n < 2 ^ 12) : clsOf (BitVec.ofNat 13 n) = 0#1 := by
  apply BitVec.eq_of_toNat_eq
  rw [clsOf, BitVec.extractLsb'_toNat, BitVec.toNat_ofNat, Nat.shiftRight_eq_div_pow]
  change _ = 0
  omega

/-- The bits of an event decode alike as a script word and as a trace line. -/
theorem decodeEvent_of_decodeLine {n : Nat} (h : n < 2 ^ 12) {i : Instr} (hd : decodeLine [BitVec.ofNat 16 n] = .ok i) :
    decodeEvent (BitVec.ofNat 13 n) = .ok i := by
  rw [decodeLine_eq_ok, setWidth_ofNat_of_lt h, decode_of_event (clsOf_ofNat h)] at hd
  exact hd.1

/-- The move placed by `withFetchWord` is the move that the next step makes. -/
theorem step_withFetchWord (s : State) {nbits w : Nat} {i : Instr} (h : decodeTableWord nbits w = some i) :
    step (s.withFetchWord nbits w) = exec i (takeInput s.inputs s) := by
  have hline := decodeTableWord_eq_some.1 h
  by_cases hcls : w % 2 ^ nbits < 2 ^ 12
  · have hmove : inputOfBits nbits w = .word (BitVec.ofNat 13 (w % 2 ^ nbits)) := if_pos hcls
    rw [tableLine_of_class_zero hcls] at hline
    exact step_of_word (congrArg (· :: s.inputs) hmove) (decodeEvent_of_decodeLine hcls hline)
  · have hmove : inputOfBits nbits w = .trace (tableLine nbits w) := if_neg hcls
    exact step_of_trace (congrArg (· :: s.inputs) hmove) hline

/-- Settles O9: one lemma per kind of next move, and the move that `withFetchWord` places. -/
theorem stepRunsDecodedInstruction : Obligations.StepRunsDecodedInstruction :=
  ⟨fun _ _ _ _ => step_of_word, fun _ _ _ _ => step_of_trace, fun _ _ _ => step_of_edge,
    fun _ _ _ _ => step_of_refused_word, fun _ _ _ _ => step_of_refused_trace, fun _ => step_of_no_input,
    fun s _ _ _ => step_withFetchWord s⟩

end Sys2Proof.Machine

/-! PROOFS. The probe path (40_dictionary.md R60 to R62, R67, R68): HASH, STRIDE and NEXT as trace lines, and that the
first `TABLE_SIZE` slots of a path are all the slots, each once, because the table size is prime. -/

namespace Sys2Proof.Machine

open Sys2Proof Sys2Proof.Config

/-! HASH, STRIDE, NEXT. -/

theorem homeIndex_eq_zero_iff (p : Code) (b : Byte) :
    (homeIndex p b).toNat = 0 ↔ p.toNat = b.toNat <<< HASH_SHIFT := by
  rw [homeIndex_toNat, Nat.xor_eq_zero_iff, eq_comm]

/-- HASH leaves the high bits of `p` and `b` in the high bits of the home index (R70). -/
theorem homeIndex_div_roots (p : Code) (b : Byte) :
    (homeIndex p b).toNat / 256 = (b.toNat / 16) ^^^ (p.toNat / 256) := by
  have hshift : b.toNat <<< HASH_SHIFT / 256 = b.toNat / 16 := by
    rw [Nat.shiftLeft_eq, HASH_SHIFT_eq]; omega
  calc (homeIndex p b).toNat / 256 = (b.toNat <<< HASH_SHIFT ^^^ p.toNat) / 2 ^ 8 := by rw [homeIndex_toNat]
    _ = (b.toNat <<< HASH_SHIFT / 256) ^^^ (p.toNat / 256) := Nat.xor_div_two_pow
    _ = (b.toNat / 16) ^^^ (p.toNat / 256) := by rw [hshift]

/-- The home index of a key is a root slot exactly when the high bits of `p` and `b` agree (R70). -/
theorem homeIndex_lt_roots_iff (p : Code) (b : Byte) :
    (homeIndex p b).toNat < ROOTS ↔ p.toNat / 256 = b.toNat / 16 := by
  rw [← Nat.div_eq_zero_iff_lt (by decide), homeIndex_div_roots, Nat.xor_eq_zero_iff, eq_comm]

/-- NEXT moves: a stride in range is no multiple of the table size (R62). -/
theorem nextIndex_ne {i d : SlotIx} (hi : i.toNat < TABLE_SIZE) (hpos : 1 ≤ d.toNat) (hd : d.toNat < TABLE_SIZE) :
    nextIndex i d ≠ i := by
  intro hfix
  have hval := nextIndex_toNat i d hi hd
  rw [hfix] at hval
  split at hval <;> omega

theorem nextIndex_toNat_emod {i d : SlotIx} (hi : i.toNat < TABLE_SIZE) (hd : d.toNat < TABLE_SIZE) :
    ((nextIndex i d).toNat : Int) = ((i.toNat : Int) - (d.toNat : Int)) % TABLE_SIZE := by
  rw [nextIndex_toNat i d hi hd]
  rw [TABLE_SIZE_eq] at *
  split <;> omega

/-- Settles O10: HASH is a shift and an xor, and an xor is zero for equal operands only. -/
theorem hashIsShiftXor : Obligations.HashIsShiftXor := fun p b _ =>
  ⟨homeIndex p b, rfl, homeIndex_toNat p b, Nat.le_of_lt_succ (homeIndex_lt p b), homeIndex_eq_zero_iff p b⟩

/-- Settles O11: every home index is a slot index, for which R61 states the stride. -/
theorem strideFormula : Obligations.StrideFormula := fun h _ =>
  ⟨strideOf h, rfl, fun hhome =>
    have hslot : h.toNat < TABLE_SIZE := lt_trans hhome (by decide)
    have ⟨hpos, hlt⟩ := strideOf_range h hslot
    ⟨strideOf_toNat h hslot, hpos, Nat.le_of_lt_succ hlt⟩⟩

/-- Settles O12: within R62's ranges one conditional addition is the reduction modulo `TABLE_SIZE`. -/
theorem nextSubtractsModulo : Obligations.NextSubtractsModulo := fun i d _ =>
  ⟨nextIndex i d, rfl, fun hi hpos hd =>
    ⟨nextIndex_toNat_emod hi hd, nextIndex_toNat i d hi hd, nextIndex_ne hi hpos hd⟩⟩

/-! The closed form. -/

theorem probeSlot_of_ne_zero {h : Nat} (hne : h ≠ 0) (k : Nat) : probeSlot h k = ((k + 1) * h) % TABLE_SIZE :=
  if_neg hne

/-- From home slot 0 the probe walks down from the top of the table (R67). -/
theorem probeSlot_zero_emod (k : Nat) : (probeSlot 0 k : Int) = (-(k : Int)) % TABLE_SIZE := by
  rw [probeSlot, if_pos rfl, TABLE_SIZE_eq]
  omega

/-- Settles O13: the iterates of NEXT are R67's slots, in both of its cases. -/
theorem probeClosedForm : Obligations.ProbeClosedForm := by
  intro h k hhome
  have hslot := probeIter_strideOf h (lt_trans hhome (by decide)) k
  refine ⟨fun hne => ?_, fun hzero => ?_, hslot⟩
  · rw [hslot, probeSlot_of_ne_zero hne, TABLE_SIZE_eq]
  · rw [hslot, hzero, probeSlot_zero_emod, TABLE_SIZE_eq]
    rfl

/-! Every slot once. -/

theorem tableSize_prime : TABLE_SIZE.Prime := by
  obtain ⟨-, -, -, hprime, -⟩ := (Params.legal_iff hw).1 check_hw
  exact hprime

section Path

variable {d i : SlotIx} (hi : i.toNat < TABLE_SIZE) (hpos : 1 ≤ d.toNat) (hd : d.toNat < TABLE_SIZE)
include hi hpos hd

/-- The first `TABLE_SIZE` slots of a path are pairwise distinct: the stride is invertible modulo the prime table size
(R68). -/
theorem probeIter_injective {j k : Nat} (hj : j < TABLE_SIZE) (hk : k < TABLE_SIZE)
    (h : (probeIter d j i).toNat = (probeIter d k i).toNat) : j = k := by
  rw [probeIter_toNat d i hi hd, probeIter_toNat d i hi hd] at h
  have hmul : j * (TABLE_SIZE - d.toNat) ≡ k * (TABLE_SIZE - d.toNat) [MOD TABLE_SIZE] := Nat.ModEq.add_left_cancel' _ h
  have hcoprime : TABLE_SIZE.Coprime (TABLE_SIZE - d.toNat) :=
    Nat.coprime_of_lt_prime (Nat.sub_ne_zero_of_lt hd) (Nat.sub_lt (by decide) hpos) tableSize_prime
  exact (hmul.cancel_right_of_coprime hcoprime).eq_of_lt_of_lt hj hk

theorem probeIter_injOn :
    Set.InjOn (fun k => (probeIter d k i).toNat) (Finset.range TABLE_SIZE) := fun _ hj _ hk h =>
  probeIter_injective hi hpos hd (Finset.mem_range.1 hj) (Finset.mem_range.1 hk) h

/-- As many distinct slots as the table has are all of its slots (R68). -/
theorem probeIter_surjective {m : Nat} (hm : m < TABLE_SIZE) : ∃ k, k < TABLE_SIZE ∧ (probeIter d k i).toNat = m := by
  have hmaps : Set.MapsTo (fun k => (probeIter d k i).toNat) (Finset.range TABLE_SIZE) (Finset.range TABLE_SIZE) :=
    fun k _ => Finset.mem_range.2 (probeIter_lt d i hi hd k)
  obtain ⟨k, hk, hkm⟩ :=
    Finset.surjOn_of_injOn_of_card_le _ hmaps (probeIter_injOn hi hpos hd) le_rfl (Finset.mem_range.2 hm)
  exact ⟨k, Finset.mem_range.1 hk, hkm⟩

end Path

/-- Settles O14: the stride of a home index is in range, so its path visits every slot once. -/
theorem probeVisitsEverySlotOnce : Obligations.ProbeVisitsEverySlotOnce := by
  intro h hhome
  have hslot : h.toNat < TABLE_SIZE := lt_trans hhome (by decide)
  obtain ⟨hpos, hlt⟩ := strideOf_range h hslot
  exact ⟨fun j k hj hk heq => probeIter_injective hslot hpos hlt hj hk (congrArg BitVec.toNat heq),
    fun m hm => probeIter_surjective hslot hpos hlt hm⟩

end Sys2Proof.Machine

/-! PROOFS. LOOKUP (40_dictionary.md R63, R64, R68 to R70): where it completes and with which state, where it hangs, how
many slots it examines, and that in a session it makes the table a finite map. -/

namespace Sys2Proof.Machine

open Sys2Proof Sys2Proof.Config

/-! How many slots are populated. -/

/-- No more slots are populated than the table lists pairs. -/
theorem card_populated_le_length {t : Table} {A : Finset Nat} (h : ∀ i ∈ A, populated (memRead t i) = true) :
    A.card ≤ t.length := by
  have hlisted : A ⊆ (t.map Prod.fst).toFinset := fun i hi => by
    obtain ⟨e, he⟩ := Option.isSome_iff_exists.1 (h i hi)
    exact List.mem_toFinset.2 (List.mem_map.2 ⟨(i, e), mem_of_memRead t i e he, rfl⟩)
  calc A.card ≤ (t.map Prod.fst).toFinset.card := Finset.card_le_card hlisted
    _ ≤ (t.map Prod.fst).length := List.toFinset_card_le _
    _ = t.length := List.length_map _

/-- A table that lists fewer pairs than it has slots has an empty slot. -/
theorem hasEmptySlot_of_length_lt {t : Table} (h : t.length < TABLE_SIZE) : hasEmptySlot t := by
  by_contra hfull
  have hall : ∀ i ∈ Finset.range TABLE_SIZE, populated (memRead t i) = true := fun i hi =>
    Option.isSome_iff_ne_none.2 fun hempty => hfull ⟨i, Finset.mem_range.1 hi, hempty⟩
  have hcard := card_populated_le_length hall
  rw [Finset.card_range] at hcard
  omega

/-- A session leaves slots empty: it populates at most `MAXPOP` of them (R25 item 4). -/
theorem SessionInv.hasEmptySlot {s : State} (h : SessionInv s) : hasEmptySlot s.table := by
  refine hasEmptySlot_of_length_lt ?_
  have hcode := s.nextCode.isLt
  rw [h.count, ROOTS_eq, FIRST_CODE_eq, TABLE_SIZE_eq]
  omega

/-! What LOOKUP does with the slot that the loop answers. -/

/-- The loop passes over a slot exactly when it is populated with another key (R64). -/
theorem not_stopsAt_iff (t : Table) (p : Code) (b : Byte) (i : Nat) :
    ¬ stopsAt t p b i ↔ ∃ e, memRead t i = some e ∧ ¬ (e.prefixCode = some p ∧ e.appendedByte = b) := by
  unfold stopsAt
  cases memRead t i <;> simp

/-- The state in which LOOKUP of the key `(p, b)` returns slot `i` (R63). -/
def lookupState (p : Code) (b : Byte) (i : SlotIx) (s : State) : State :=
  { setProbe i (strideOf (homeIndex p b)) s with ret := .slot i }

theorem execLookup_of_slot {p : Code} {b : Byte} {s : State} {i : SlotIx} (h : lookupSlot s.table p b = some i) :
    execLookup p b s = .next (lookupState p b i s) := by
  simp [execLookup, lookup, h, lookupState]

theorem execLookup_of_none {p : Code} {b : Byte} {s : State} (h : lookupSlot s.table p b = none) :
    execLookup p b s = .fault .lookupHang := by
  simp [execLookup, lookup, h]

theorem execLookup_next {p : Code} {b : Byte} {s t : State} (h : execLookup p b s = .next t) :
    ∃ i, lookupSlot s.table p b = some i ∧ t = lookupState p b i s := by
  cases hslot : lookupSlot s.table p b with
  | none => rw [execLookup_of_none hslot] at h; cases h
  | some i =>
    rw [execLookup_of_slot hslot] at h
    exact ⟨i, rfl, (Host.Outcome.next.inj h).symm⟩

theorem execLookup_eq_hang_iff (p : Code) (b : Byte) (s : State) :
    execLookup p b s = .fault .lookupHang ↔ lookupSlot s.table p b = none := by
  cases hslot : lookupSlot s.table p b with
  | none => exact iff_of_true (execLookup_of_none hslot) rfl
  | some i => rw [execLookup_of_slot hslot]; simp

/-- The path visits every slot, so the loop has no answer exactly when it stops at no slot of the table (R68). -/
theorem lookupSlot_eq_none_iff (t : Table) (p : Code) (b : Byte) :
    lookupSlot t p b = none ↔ ∀ i, i < TABLE_SIZE → ¬ stopsAt t p b i := by
  have hhome := homeIndex_lt_tableSize p b
  obtain ⟨hpos, hlt⟩ := strideOf_range _ hhome
  rw [lookupSlot, probeLoop_eq_none]
  constructor
  · intro hpath i hi
    obtain ⟨k, hk, rfl⟩ := probeIter_surjective hhome hpos hlt hi
    exact hpath k hk
  · intro hall k _
    exact hall _ (probeIter_lt _ _ hhome hlt k)

theorem exists_lookupSlot_of_hasEmptySlot {t : Table} (h : hasEmptySlot t) (p : Code) (b : Byte) :
    ∃ i, lookupSlot t p b = some i := by
  obtain ⟨m, hm, hempty⟩ := h
  refine Option.ne_none_iff_exists'.1 fun hnone => ?_
  exact (lookupSlot_eq_none_iff t p b).1 hnone m hm (Or.inl hempty)

/-- Settles O15: with a slot empty the loop answers, and its answer is the first stop of the path. -/
theorem lookupReturnsFirstStop : Obligations.LookupReturnsFirstStop := by
  intro p b s hempty
  obtain ⟨i, hslot⟩ := exists_lookupSlot_of_hasEmptySlot hempty p b
  obtain ⟨k, hk, rfl, hstop, hbefore⟩ := (probeLoop_eq_some _ _ _ _ _ _ _).1 hslot
  refine ⟨k, hk, execLookup_of_slot hslot, ?_, fun j hj => (not_stopsAt_iff _ _ _ _).1 (hbefore j hj)⟩
  simpa only [stopsAt, hasKey_iff] using hstop

/-- The slots that LOOKUP passes over are distinct and populated, so there are no more of them than the table lists
(R68). -/
theorem lookupSlot_probe_count {t : Table} {p : Code} {b : Byte} {i : SlotIx} (h : lookupSlot t p b = some i) :
    ∃ k, k ≤ t.length ∧ i = probeIter (strideOf (homeIndex p b)) k (homeIndex p b) := by
  have hhome := homeIndex_lt_tableSize p b
  obtain ⟨hpos, hlt⟩ := strideOf_range _ hhome
  obtain ⟨k, hk, hi, -, hbefore⟩ := (probeLoop_eq_some _ _ _ _ _ _ _).1 h
  have hinj := (probeIter_injOn hhome hpos hlt).mono (Finset.coe_subset.2 (Finset.range_subset_range.2 hk.le))
  refine ⟨k, ?_, hi⟩
  rw [← Finset.card_range k, ← Finset.card_image_of_injOn hinj]
  refine card_populated_le_length fun m hm => ?_
  obtain ⟨j, hj, rfl⟩ := Finset.mem_image.1 hm
  exact populated_of_not_stopsAt (hbefore j (Finset.mem_range.1 hj))

/-- Settles O16: the path visits every slot, so only a table full of other keys has no stop on it; and what the loop
passes over is populated. -/
theorem lookupHangsOnlyOnFullTable : Obligations.LookupHangsOnlyOnFullTable := by
  intro p b s
  constructor
  · calc exec (.lookup p b) s = .fault .lookupHang
      _ ↔ lookupSlot s.table p b = none := execLookup_eq_hang_iff p b s
      _ ↔ ∀ i, i < TABLE_SIZE → ¬ stopsAt s.table p b i := lookupSlot_eq_none_iff s.table p b
      _ ↔ _ := forall₂_congr fun i _ => not_stopsAt_iff s.table p b i
  · intro _ t hnext
    obtain ⟨i, hslot, rfl⟩ := execLookup_next hnext
    obtain ⟨k, hk, rfl⟩ := lookupSlot_probe_count hslot
    exact ⟨k, hk, rfl⟩

/-! The roots. -/

/-- A root record names no code before its byte, so its slot is neither empty nor any key's (R70). -/
theorem not_stopsAt_root {t : Table} {i : Nat} (h : memRead t i = some (rootEntry i)) (p : Code) (b : Byte) :
    ¬ stopsAt t p b i :=
  (not_stopsAt_iff t p b i).2 ⟨rootEntry i, h, by simp [rootEntry]⟩

theorem roots_le_lookupSlot {t : Table} (hroots : ∀ i, i < ROOTS → memRead t i = some (rootEntry i))
    {p : Code} {b : Byte} {i : SlotIx} (h : lookupSlot t p b = some i) : ROOTS ≤ i.toNat := by
  obtain ⟨_, _, _, hstop, _⟩ := lookupSlot_first_stop h
  by_contra hlt
  exact not_stopsAt_root (hroots _ (not_le.1 hlt)) p b hstop

/-- Settles O19: LOOKUP's loop never stops at a root record. -/
theorem rootSlotsNeverMatch : Obligations.RootSlotsNeverMatch := by
  refine ⟨fun p b s t hroots hnext => ?_, homeIndex_lt_roots_iff⟩
  obtain ⟨i, hslot, rfl⟩ := execLookup_next hnext
  exact ⟨i, rfl, roots_le_lookupSlot hroots hslot⟩

/-! The finite map. -/

/-- A stored key is found where it is stored: an empty answer would say that no slot holds it, and no other slot does
(R69). -/
theorem SessionInv.lookupSlot_of_stored {s : State} (h : SessionInv s) {p : Code} {b : Byte} {i : SlotIx}
    (hslot : lookupSlot s.table p b = some i) {k : Nat} {e : Entry} (he : memRead s.table k = some e)
    (hp : e.prefixCode = some p) (hb : e.appendedByte = b) : i.toNat = k := by
  cases hread : memRead s.table i.toNat with
  | none => exact absurd ⟨hp, hb⟩ (key_absent_of_lookupSlot_empty (h.onPath · · p) hslot hread k e he)
  | some f =>
    obtain ⟨hfp, hfb⟩ := lookupSlot_hit_key hslot hread
    exact h.keysUnique i.toNat k f e hread he (hfp.trans hp.symm) (hfb.trans hb.symm)

/-- A key that no slot holds is missed. -/
theorem lookupSlot_empty_of_absent {t : Table} {p : Code} {b : Byte} {i : SlotIx} (hslot : lookupSlot t p b = some i)
    (habsent : ∀ k e, memRead t k = some e → ¬ (e.prefixCode = some p ∧ e.appendedByte = b)) :
    memRead t i.toNat = none :=
  Option.eq_none_iff_forall_ne_some.2 fun e he => habsent i.toNat e he (lookupSlot_hit_key hslot he)

/-- Settles O52: in a session LOOKUP returns, and R25's items say of its slot whose it is. -/
theorem dictionaryIsFiniteMap : Obligations.DictionaryIsFiniteMap := by
  intro p b s hinv hs
  have hsession := hinv.session hs
  obtain ⟨i, hslot⟩ := exists_lookupSlot_of_hasEmptySlot hsession.hasEmptySlot p b
  exact ⟨fun _ _ he hp hb => ⟨i, hslot, hsession.lookupSlot_of_stored hslot he hp hb⟩,
    fun habsent => ⟨i, hslot, lookupSlot_empty_of_absent hslot habsent⟩⟩

/-! INSERT and TINIT. -/

theorem execInsert_of_lt {i : SlotIx} (h : i.toNat < TABLE_SIZE) (a p : Code) (b : Byte) (s : State) :
    execInsert i a p b s = .next (insert i a p b s) := if_pos h

theorem execInsert_of_ge {i : SlotIx} (h : TABLE_SIZE ≤ i.toNat) (a p : Code) (b : Byte) (s : State) :
    execInsert i a p b s = .fault .noSuchSlot := if_neg (not_lt.2 h)

/-- Settles O17: INSERT is one write of one record, below `TABLE_SIZE` only. -/
theorem insertWritesOneSlot : Obligations.InsertWritesOneSlot := fun _ a p b s =>
  ⟨fun hi => ⟨_, execInsert_of_lt hi a p b s, memRead_memWrite_self _ _ _,
      fun _ hj => memRead_memWrite_ne _ _ _ _ hj.symm, fun hwf => wf_memWrite _ _ _ hwf hi⟩,
    fun hi => execInsert_of_ge hi a p b s⟩

/-- Settles O18: TINIT's table is given slot by slot. -/
theorem tinitFillsTable : Obligations.TinitFillsTable := fun _ =>
  ⟨initialTable, rfl, wf_initialTable, fun _ hi => (memRead_initialTable _).trans (if_pos hi),
    fun _ hi => (memRead_initialTable _).trans (if_neg (not_lt.2 hi))⟩

end Sys2Proof.Machine

/-! PROOFS. The code sequencer (41_code_sequencer.md R75 to R78): one ALLOC, and the counter after a row of them. -/

namespace Sys2Proof.Machine

open Sys2Proof Sys2Proof.Config

/-! One ALLOC. -/

/-- The state after the trace line ALLOC: R76's counter, and what it returned in the ghost `ret`. -/
def allocated (s : State) : State := { allocStep s with ret := .code (allocCode s) }

theorem exec_sinit (s : State) : exec .sinit s = .next (sinit s) := rfl

theorem exec_alloc (s : State) : exec .alloc s = .next (allocated s) := rfl

theorem allocated_of_room {s : State} (h : s.nextCode.toNat ≤ MAX_CODE.toNat) :
    allocated s = { s with nextCode := s.nextCode + 1#12, ret := .code (some s.nextCode) } := by
  rw [allocated, (allocCode_eq_some s _).2 ⟨h, rfl⟩, allocStep, if_pos h]

theorem allocated_of_exhausted {s : State} (h : MAX_CODE.toNat < s.nextCode.toNat) :
    allocated s = { s with ret := .code none } := by
  rw [allocated, (allocCode_eq_none s).2 h, allocStep_of_exhausted h]

theorem maxCode_lt_of_eq_maxValue {c : Code} (h : c = MAX_VALUE) : MAX_CODE.toNat < c.toNat := by
  rw [h]
  decide

/-- Settles O20: `MAX_CODE` is 4094, and the counter 0xFFF is above it. -/
theorem sinitAndAlloc : Obligations.SinitAndAlloc := by
  refine fun s => ⟨exec_sinit s, fun hroom => ?_, fun hfull => ?_⟩
  · refine ⟨s.nextCode + 1#12, ?_, by rw [exec_alloc, allocated_of_room hroom]⟩
    bv_omega
  · rw [exec_alloc, allocated_of_exhausted (maxCode_lt_of_eq_maxValue hfull)]

/-! A row of ALLOCs. -/

theorem runEvents_replicate_alloc (n : Nat) (s : State) :
    runEvents (List.replicate n .alloc) s = .next (allocated^[n] s) := by
  induction n generalizing s with
  | zero => rfl
  | succ n ih => rw [List.replicate_succ, runEvents_cons, exec_alloc, andThen_next, ih, Function.iterate_succ_apply]

/-- The counter counts on and stops at `MAX_VALUE` (R76, R77). -/
theorem allocated_nextCode_toNat (s : State) :
    (allocated s).nextCode.toNat = min (s.nextCode.toNat + 1) MAX_VALUE.toNat := by
  change (allocStep s).nextCode.toNat = _
  have hcode := s.nextCode.isLt
  rcases Nat.lt_or_ge MAX_CODE.toNat s.nextCode.toNat with hfull | hroom
  · rw [allocStep_of_exhausted hfull]
    rw [MAX_CODE_eq] at hfull
    rw [MAX_VALUE_eq]
    omega
  · rw [allocStep_nextCode_toNat hroom]
    rw [MAX_CODE_eq] at hroom
    rw [MAX_VALUE_eq]
    omega

theorem iterate_allocated_nextCode_toNat (n : Nat) (s : State) :
    (allocated^[n] s).nextCode.toNat = min (s.nextCode.toNat + n) MAX_VALUE.toNat := by
  induction n with
  | zero =>
    have hcode := s.nextCode.isLt
    rw [Function.iterate_zero_apply, MAX_VALUE_eq]
    omega
  | succ n ih =>
    rw [Function.iterate_succ_apply', allocated_nextCode_toNat, ih]
    omega

/-- Settles O21: before its last ALLOC the row has brought the counter to `FIRST_CODE + j`, or to `MAX_VALUE` where that
is less, and the last ALLOC is one more. -/
theorem allocHandsOutInOrder : Obligations.AllocHandsOutInOrder := by
  intro s j
  have hrun : runEvents (.sinit :: List.replicate (j + 1) .alloc) s = .next (allocated (allocated^[j] (sinit s))) := by
    rw [runEvents_cons, exec_sinit, andThen_next, runEvents_replicate_alloc, Function.iterate_succ_apply']
  have hcount := iterate_allocated_nextCode_toNat j (sinit s)
  rw [sinit_nextCode, FIRST_CODE_eq, MAX_VALUE_eq] at hcount
  generalize allocated^[j] (sinit s) = u at hrun hcount
  refine ⟨allocated u, hrun, fun hj => ?_, fun hj => ?_⟩
  · have hnext : u.nextCode.toNat = 256 + j := by omega
    have hcode : u.nextCode = BitVec.ofNat 12 (256 + j) := by bv_omega
    have hroom : u.nextCode.toNat ≤ MAX_CODE.toNat := by rw [hnext, MAX_CODE_eq]; omega
    refine ⟨by rw [allocated_of_room hroom, hcode], ?_⟩
    rw [allocated_nextCode_toNat, hnext, MAX_VALUE_eq]
    omega
  · have hlast : u.nextCode = 0xFFF#12 := BitVec.eq_of_toNat_eq (hcount.trans (min_eq_right (by omega)))
    have hexhausted := maxCode_lt_of_eq_maxValue hlast
    rw [allocated_of_exhausted hexhausted]
    exact ⟨rfl, hlast, decide_eq_true hexhausted⟩

end Sys2Proof.Machine

/-! PROOFS. A bit stream and its naturals: the value of a window of the stream, and its bytes, most significant bit
first (30_encoding.md R51). -/

namespace Sys2Proof.Machine

open Sys2Proof Sys2Proof.Config

/-! The value of a window. -/

theorem natOfBits_lt (f : Nat → Bool) (k n : Nat) : natOfBits f k n < 2 ^ n := by
  induction n with
  | zero => exact Nat.one_pos
  | succ n ih =>
    rw [natOfBits, pow_succ]
    have hbit := (f (k + n)).toNat_lt
    omega

theorem natOfBits_congr {f g : Nat → Bool} {k n : Nat} (h : ∀ j < n, f (k + j) = g (k + j)) :
    natOfBits f k n = natOfBits g k n := by
  induction n with
  | zero => rfl
  | succ n ih => rw [natOfBits, natOfBits, ih fun j hj => h j (by omega), h n (by omega)]

/-- Two adjacent windows: the later bits enter below the earlier ones. -/
theorem natOfBits_add (f : Nat → Bool) (k m n : Nat) :
    natOfBits f k (m + n) = natOfBits f k m * 2 ^ n + natOfBits f (k + m) n := by
  induction n with
  | zero => rw [pow_zero, mul_one]; rfl
  | succ n ih =>
    rw [← Nat.add_assoc, natOfBits, natOfBits, ih, pow_succ, Nat.add_assoc k m n]
    ring

theorem natOfBits_add_mod (f : Nat → Bool) (k m n : Nat) : natOfBits f k (m + n) % 2 ^ n = natOfBits f (k + m) n := by
  rw [natOfBits_add, Nat.mul_add_mod_self_right, Nat.mod_eq_of_lt (natOfBits_lt f (k + m) n)]

theorem natOfBits_add_shiftRight (f : Nat → Bool) (k m n : Nat) : natOfBits f k (m + n) >>> n = natOfBits f k m := by
  rw [natOfBits_add, Nat.shiftRight_eq_div_pow, mul_comm, Nat.mul_add_div (by positivity),
    Nat.div_eq_of_lt (natOfBits_lt f (k + m) n), Nat.add_zero]

/-- A window that shows the bits of `x` from the top is `x`'s low bits. -/
theorem natOfBits_eq_mod {f : Nat → Bool} {k n : Nat} (x : Nat) (h : ∀ j < n, f (k + j) = x.testBit (n - 1 - j)) :
    natOfBits f k n = x % 2 ^ n := by
  induction n generalizing x with
  | zero => rw [pow_zero, Nat.mod_one]; rfl
  | succ n ih =>
    have hhigh : natOfBits f k n = x / 2 % 2 ^ n := ih (x / 2) fun j hj => by
      rw [h j (by omega), ← Nat.testBit_succ, show n + 1 - 1 - j = n - 1 - j + 1 by omega]
    have hlow : (f (k + n)).toNat = x % 2 := by
      rw [h n (by omega), show n + 1 - 1 - n = 0 by omega, Nat.toNat_testBit, pow_zero, Nat.div_one]
    rw [natOfBits, hhigh, hlow, pow_succ', Nat.mod_mul, Nat.add_comm]

theorem natOfBits_eq_zero {f : Nat → Bool} {k n : Nat} (h : ∀ j < n, f (k + j) = false) : natOfBits f k n = 0 :=
  (natOfBits_eq_mod 0 fun j hj => by rw [h j hj, Nat.zero_testBit]).trans (Nat.zero_mod _)

/-- R89: a window that begins with the last `p` bits of a stream holds them left-justified, zeros below. -/
theorem natOfBits_padded {f : Nat → Bool} {k p n : Nat} (hp : p ≤ n) (hf : ∀ j, k + p ≤ j → f j = false) :
    natOfBits f k n = natOfBits f k p * 2 ^ (n - p) := by
  have hsplit := natOfBits_add f k p (n - p)
  rwa [Nat.add_sub_cancel' hp, natOfBits_eq_zero fun j _ => hf _ (Nat.le_add_right _ j), Nat.add_zero] at hsplit

theorem natOfBits_testBit (f : Nat → Bool) (k n : Nat) {i : Nat} (hi : i < n) :
    (natOfBits f k n).testBit (n - 1 - i) = f (k + i) := by
  obtain ⟨m, rfl⟩ := Nat.exists_eq_add_of_lt hi
  have hbit : natOfBits f k (i + m + 1) >>> m = natOfBits f k (i + 1) := by
    rw [Nat.add_right_comm, natOfBits_add_shiftRight]
  rw [show i + m + 1 - 1 - i = m + 0 by omega, ← Nat.testBit_shiftRight, hbit, natOfBits, Nat.testBit_zero]
  cases f (k + i) <;> simp

/-- The byte of a window that begins `k` bits after its top. -/
theorem ofNat_natOfBits_shiftRight (f : Nat → Bool) (m : Nat) {k n : Nat} (h : k + 8 ≤ n) :
    BitVec.ofNat 8 (natOfBits f m n >>> (n - (k + 8))) = BitVec.ofNat 8 (natOfBits f (m + k) 8) := by
  obtain ⟨r, rfl⟩ := Nat.exists_eq_add_of_le h
  rw [Nat.add_sub_cancel_left, natOfBits_add_shiftRight]
  apply BitVec.eq_of_toNat_eq
  rw [BitVec.toNat_ofNat, BitVec.toNat_ofNat, natOfBits_add_mod, Nat.mod_eq_of_lt (natOfBits_lt f (m + k) 8)]

/-! The bytes of a stream. -/

/-- The first `n` bytes of a bit stream: byte `j` is bits `8j .. 8j+7`, bit `8j` being bit 7 of the byte (R51). -/
def streamBytes (f : Nat → Bool) (n : Nat) : List Byte :=
  (List.range n).map fun j => BitVec.ofNat 8 (natOfBits f (8 * j) 8)

theorem byteOfBits_eq_natOfBits (f : Nat → Bool) (m : Nat) :
    byteOfBits (fun k => f (m + k)) = BitVec.ofNat 8 (natOfBits f m 8) := by
  simp only [byteOfBits, natOfBits]
  congr 1
  ring

@[simp] theorem streamBytes_length (f : Nat → Bool) (n : Nat) : (streamBytes f n).length = n := by
  simp [streamBytes]

theorem streamBytes_getElem? (f : Nat → Bool) {n j : Nat} (hj : j < n) :
    (streamBytes f n)[j]? = some (BitVec.ofNat 8 (natOfBits f (8 * j) 8)) := by
  simp [streamBytes, hj]

theorem streamBytes_succ (f : Nat → Bool) (n : Nat) :
    streamBytes f (n + 1) = streamBytes f n ++ [BitVec.ofNat 8 (natOfBits f (8 * n) 8)] := by
  simp [streamBytes, List.range_succ]

theorem streamBytes_take (f : Nat → Bool) {m n : Nat} (h : m ≤ n) : (streamBytes f n).take m = streamBytes f m := by
  rw [streamBytes, ← List.map_take, List.take_range, min_eq_left h, streamBytes]

/-- Bytes that show the stream after its first `m` bytes continue them. -/
theorem streamBytes_add {f : Nat → Bool} {m n : Nat} {bs : List Byte} (hlen : bs.length = n)
    (hbs : ∀ k < n, bs[k]? = some (BitVec.ofNat 8 (natOfBits f (8 * (m + k)) 8))) :
    streamBytes f (m + n) = streamBytes f m ++ bs := by
  have hrest : bs = (List.range n).map fun k => BitVec.ofNat 8 (natOfBits f (8 * (m + k)) 8) := by
    refine List.ext_getElem? fun k => ?_
    rcases Nat.lt_or_ge k n with hk | hk
    · rw [hbs k hk]
      simp [hk]
    · rw [List.getElem?_eq_none (hlen.trans_le hk), List.getElem?_eq_none (by simpa using hk)]
  rw [hrest, streamBytes, List.range_add, List.map_append, List.map_map]
  rfl

/-- Reading a bit of the bytes reads the stream. -/
theorem byteStreamBit_streamBytes (f : Nat → Bool) {n k : Nat} (hk : k < 8 * n) :
    byteStreamBit (streamBytes f n) k = f k := by
  have hbyte : k / 8 < n := by omega
  rw [byteStreamBit, streamBytes_getElem? f hbyte]
  simp only [BitVec.toNat_ofNat, Nat.mod_eq_of_lt (natOfBits_lt f (8 * (k / 8)) 8)]
  rw [natOfBits_testBit f (8 * (k / 8)) 8 (Nat.mod_lt k (by omega)), Nat.div_add_mod]

end Sys2Proof.Machine

/-! PROOFS. PACK (42_bit_packer.md R87 to R89): the stream of a code list, the length and the padding of its bytes, and
unpacking. -/

namespace Sys2Proof.Machine

open Sys2Proof Sys2Proof.Config

/-! The stream of a code list. -/

theorem streamBit_of_ge {width : Nat} (hw : 1 ≤ width) {cs : List Nat} {k : Nat} (hk : cs.length * width ≤ k) :
    streamBit width cs k = false := by
  rw [streamBit, List.getElem?_eq_none ((Nat.le_div_iff_mul_le hw).2 hk)]

/-- The stream shows code number `i` in its window `width * i ..`. -/
theorem natOfBits_streamBit {width i c : Nat} {cs : List Nat} (hc : cs[i]? = some c) :
    natOfBits (streamBit width cs) (width * i) width = c % 2 ^ width := by
  refine natOfBits_eq_mod c fun j hj => ?_
  have hdiv : (width * i + j) / width = i := by
    rw [Nat.mul_add_div (by omega), Nat.div_eq_of_lt hj, Nat.add_zero]
  rw [streamBit, hdiv, hc, Nat.mul_add_mod, Nat.mod_eq_of_lt hj]

/-! Its bytes. -/

theorem pack_eq_streamBytes (width : Nat) (cs : List Nat) :
    pack width cs = streamBytes (streamBit width cs) (packedLength width cs.length) :=
  List.map_congr_left fun _ _ => byteOfBits_eq_natOfBits _ _

theorem pack_length (width : Nat) (cs : List Nat) : (pack width cs).length = packedLength width cs.length := by
  rw [pack_eq_streamBytes, streamBytes_length]

/-- With bits left over after the last whole byte, PACK's last byte begins with them. -/
theorem pack_getLast? {width : Nat} {cs : List Nat} (h : cs.length * width % 8 ≠ 0) :
    (pack width cs).getLast? =
      some (BitVec.ofNat 8 (natOfBits (streamBit width cs) (8 * (cs.length * width / 8)) 8)) := by
  have hlen : packedLength width cs.length = cs.length * width / 8 + 1 := by
    rw [packedLength]
    omega
  rw [pack_eq_streamBytes, hlen, streamBytes_succ, List.getLast?_concat]

/-- Settles O25: the last byte begins with what is left over, and the stream shows zeros after its last code. -/
theorem packLengthAndPadding : Obligations.PackLengthAndPadding := by
  refine ⟨fun width cs hw => ⟨pack_length width cs, fun hrest => ?_⟩, fun cs => ?_⟩
  · have hpad := natOfBits_padded (f := streamBit width cs) (k := 8 * (cs.length * width / 8))
      (p := cs.length * width % 8) (n := 8) (by omega) fun j hj => streamBit_of_ge hw (by omega)
    refine ⟨_, pack_getLast? hrest, ?_⟩
    rw [BitVec.toNat_ofNat, Nat.mod_eq_of_lt (natOfBits_lt _ _ 8), hpad, Nat.mul_mod_left]
  · rw [pack_length, packedLength, BITS_eq]
    omega

/-- R87: unpacking is the inverse. -/
theorem unpack_pack {width : Nat} {cs : List Nat} (hcs : ∀ c ∈ cs, c < 2 ^ width) :
    unpack width cs.length (pack width cs) = cs := by
  refine List.ext_getElem (by simp [unpack]) fun i _ hi => ?_
  have hread : natOfBits (byteStreamBit (pack width cs)) (width * i) width =
      natOfBits (streamBit width cs) (width * i) width := by
    refine natOfBits_congr fun j hj => ?_
    have hend : width * i + j < cs.length * width := by nlinarith
    rw [pack_eq_streamBytes, byteStreamBit_streamBytes]
    rw [packedLength]
    omega
  simp only [unpack, List.getElem_map, List.getElem_range]
  rw [hread, natOfBits_streamBit (List.getElem?_eq_getElem hi), Nat.mod_eq_of_lt (hcs _ (List.getElem_mem hi))]

end Sys2Proof.Machine

/-! PROOFS. The packer's operations (42_bit_packer.md R82 to R87): one operation from any accumulator, and PINIT, EMITs
and FLUSH as PACK of the codes. -/

namespace Sys2Proof.Machine

open Sys2Proof Sys2Proof.Config

/-! One operation. -/

theorem exec_pinit (s : State) : exec .pinit s = .next (pinit s) := rfl

theorem exec_emit (c : Code) (s : State) : exec (.emit c) s = .next (emit c s) := rfl

theorem exec_flush (s : State) : exec .flush s = .next (flush s) := rfl

theorem emit_pendingBits_toNat (c : Code) (s : State) :
    (emit c s).pendingBits.toNat = (s.pendingBits.toNat + BITS) % 8 := by
  rw [emit_pendingBits, emitDrain_pending, BitVec.toNat_ofNat]
  omega

theorem emit_bitBuffer_toNat (c : Code) (s : State) :
    (emit c s).bitBuffer.toNat = (s.bitBuffer.toNat * 4096 + c.toNat) % 2 ^ ((s.pendingBits.toNat + BITS) % 8) := by
  rw [emit_bitBuffer, emitDrain_buf, BitVec.toNat_ofNat, Nat.mod_eq_of_lt]
  exact (Nat.mod_lt _ (by positivity)).trans_le (Nat.pow_le_pow_right (by omega) (by omega))

/-- Settles O22: the laws of the drain loop, from the appended value. -/
theorem emitAppendsAndDrains : Obligations.EmitAppendsAndDrains := fun c s =>
  ⟨(emit c s).bitBuffer, (emit c s).pendingBits, (emitDrain s.bitBuffer s.pendingBits c).bytes, rfl,
    emit_pendingBits_toNat c s, emit_bitBuffer_toNat c s, emitDrain_length _ _ _,
    fun k hk => emitDrain_bytes _ _ _ k (emitDrain_length _ _ _ ▸ hk)⟩

/-- R85: the pending bits, left-justified. -/
theorem flushByte_eq (buf : BitBuf) {pending : BitCount} (h : pending.toNat ≤ 8) :
    flushByte buf pending = BitVec.ofNat 8 (buf.toNat * 2 ^ (8 - pending.toNat)) := by
  rw [flushByte, if_pos h, and_byte_mask, Nat.shiftLeft_eq]
  apply BitVec.eq_of_toNat_eq
  simp

theorem flush_of_none {s : State} (h : s.pendingBits = 0#5) : flush s = setAccumulator 0#19 0#5 s := by
  rw [flush, if_pos h]

theorem flush_of_some {s : State} (h : s.pendingBits ≠ 0#5) :
    flush s = setAccumulator 0#19 0#5 (pushBytes [flushByte s.bitBuffer s.pendingBits] s) := by
  rw [flush, if_neg h]

/-- Settles O23: FLUSH's two branches. -/
theorem pinitAndFlush : Obligations.PinitAndFlush := by
  refine fun s => ⟨rfl, fun hnone => ?_, fun hsome => ⟨flushByte s.bitBuffer s.pendingBits, ?_, fun hle => ?_⟩⟩
  · rw [exec_flush, flush_of_none hnone]
    rfl
  · rw [exec_flush, flush_of_some hsome]
    rfl
  · rw [flushByte_eq _ (by omega), BitVec.toNat_ofNat]

/-! The operations on a stream. -/

/-- The state after PINIT and the first `n` bits of the stream `f`: its whole bytes are out, and the accumulator holds
the bits after them (R86, R87). -/
def streamed (f : Nat → Bool) (n : Nat) (s : State) : State :=
  pushBytes (streamBytes f (n / 8))
    (setAccumulator (BitVec.ofNat 19 (natOfBits f (8 * (n / 8)) (n % 8))) (BitVec.ofNat 5 (n % 8)) s)

theorem streamed_outq (f : Nat → Bool) (n : Nat) (s : State) :
    (streamed f n s).outq = s.outq ++ (streamBytes f (n / 8)).map (OutEntry.mk false) := rfl

theorem streamed_pendingBits_toNat (f : Nat → Bool) (n : Nat) (s : State) :
    (streamed f n s).pendingBits.toNat = n % 8 := by
  rw [streamed, pushBytes_pendingBits, setAccumulator_pendingBits, BitVec.toNat_ofNat]
  omega

theorem streamed_bitBuffer_toNat (f : Nat → Bool) (n : Nat) (s : State) :
    (streamed f n s).bitBuffer.toNat = natOfBits f (8 * (n / 8)) (n % 8) := by
  rw [streamed, pushBytes_bitBuffer, setAccumulator_bitBuffer, BitVec.toNat_ofNat, Nat.mod_eq_of_lt]
  exact (natOfBits_lt _ _ _).trans_le (Nat.pow_le_pow_right (by omega) (by omega))

theorem pinit_eq_streamed (f : Nat → Bool) (s : State) : pinit s = streamed f 0 s := by
  simp [streamed, pinit, pushBytes, streamBytes, natOfBits, setAccumulator]

/-- Bytes pushed after the stream's come after them, and only the last accumulator counts. -/
theorem pushBytes_streamed (bs : List Byte) (buf : BitBuf) (pending : BitCount) (f : Nat → Bool) (n : Nat)
    (s : State) : pushBytes bs (setAccumulator buf pending (streamed f n s)) =
      pushBytes (streamBytes f (n / 8) ++ bs) (setAccumulator buf pending s) := by
  simp only [streamed, pushBytes, setAccumulator, List.map_append, List.append_assoc]

/-! EMIT of the next 12 bits of a stream: what is drained is again a window of it (R83, R84). -/

section Emit

variable {f : Nat → Bool} {n : Nat} {c : Code} (hc : c.toNat = natOfBits f n BITS) (s : State)

include hc

theorem streamed_append_code :
    (streamed f n s).bitBuffer.toNat * 4096 + c.toNat = natOfBits f (8 * (n / 8)) (n % 8 + BITS) := by
  rw [natOfBits_add, Nat.div_add_mod, ← hc, streamed_bitBuffer_toNat]
  rfl

theorem emitDrain_buf_streamed :
    (emitDrain (streamed f n s).bitBuffer (streamed f n s).pendingBits c).buf =
      natOfBits f (8 * ((n + BITS) / 8)) ((n + BITS) % 8) := by
  have hend : 8 * (n / 8) + 8 * ((n % 8 + BITS) / 8) = 8 * ((n + BITS) / 8) := by omega
  rw [emitDrain_buf, streamed_append_code hc, streamed_pendingBits_toNat, ← hend, ← Nat.mod_add_mod n 8 BITS,
    ← natOfBits_add_mod, Nat.div_add_mod]

theorem streamBytes_emitDrain :
    streamBytes f ((n + BITS) / 8) =
      streamBytes f (n / 8) ++ (emitDrain (streamed f n s).bitBuffer (streamed f n s).pendingBits c).bytes := by
  have hpending := streamed_pendingBits_toNat f n s
  have hlen : (n + BITS) / 8 = n / 8 + (n % 8 + BITS) / 8 := by omega
  rw [hlen]
  refine streamBytes_add (by rw [emitDrain_length, hpending]) fun k hk => ?_
  rw [emitDrain_bytes _ _ _ k (hpending.symm ▸ hk), streamed_append_code hc, hpending, Nat.mul_succ,
    ofNat_natOfBits_shiftRight f _ (by omega), Nat.mul_add]

theorem emit_streamed : emit c (streamed f n s) = streamed f (n + BITS) s := by
  have hcount : (emitDrain (streamed f n s).bitBuffer (streamed f n s).pendingBits c).pending = (n + BITS) % 8 := by
    rw [emitDrain_pending, streamed_pendingBits_toNat, Nat.mod_add_mod]
  rw [emit, pushBytes_streamed, ← streamBytes_emitDrain hc, emitDrain_buf_streamed hc, hcount, streamed]

end Emit

/-! FLUSH at the end of a stream. -/

/-- FLUSH pushes the last byte of the stream, where one is begun (R85). -/
theorem flush_streamed {f : Nat → Bool} {n : Nat} (hf : ∀ k, n ≤ k → f k = false) (s : State) :
    flush (streamed f n s) = pushBytes (streamBytes f ((n + 7) / 8)) (setAccumulator 0#19 0#5 s) := by
  have hpending := streamed_pendingBits_toNat f n s
  by_cases hrest : n % 8 = 0
  · have hnone : (streamed f n s).pendingBits = 0#5 := BitVec.eq_of_toNat_eq (hpending.trans hrest)
    rw [flush_of_none hnone, show (n + 7) / 8 = n / 8 by omega]
    rfl
  · have hsome : (streamed f n s).pendingBits ≠ 0#5 := fun h => hrest (by rw [← hpending, h]; rfl)
    have hpad := natOfBits_padded (f := f) (k := 8 * (n / 8)) (p := n % 8) (n := 8) (by omega)
      fun j hj => hf j (by omega)
    have hbyte : flushByte (streamed f n s).bitBuffer (streamed f n s).pendingBits =
        BitVec.ofNat 8 (natOfBits f (8 * (n / 8)) 8) := by
      rw [flushByte_eq _ (by omega), hpending, streamed_bitBuffer_toNat, hpad]
    rw [flush_of_some hsome, hbyte, show (n + 7) / 8 = n / 8 + 1 by omega, streamBytes_succ]
    exact pushBytes_streamed _ 0#19 0#5 f n s

/-! A list of codes. -/

/-- EMITs of the codes that a stream shows from bit `n` on take its next bits. -/
theorem runEvents_emits {f : Nat → Bool} {n : Nat} {cs : List Code} (s : State)
    (hcs : ∀ i c, cs[i]? = some c → c.toNat = natOfBits f (n + BITS * i) BITS) :
    runEvents (cs.map .emit) (streamed f n s) = .next (streamed f (n + cs.length * BITS) s) := by
  induction cs generalizing n with
  | nil => simp
  | cons c cs ih =>
    have hfirst : c.toNat = natOfBits f n BITS := hcs 0 c rfl
    have hrest := ih (n := n + BITS) fun i d hd => by
      rw [hcs (i + 1) d hd, Nat.mul_succ, Nat.add_assoc, Nat.add_comm BITS]
    rw [List.map_cons, runEvents_cons, exec_emit, andThen_next, emit_streamed hfirst s, hrest, List.length_cons,
      Nat.succ_mul, Nat.add_assoc, Nat.add_comm BITS]

/-- The stream of a list of 12-bit codes. -/
def codeStream (cs : List Code) : Nat → Bool := streamBit BITS (cs.map BitVec.toNat)

theorem pack_codes (cs : List Code) :
    pack BITS (cs.map BitVec.toNat) = streamBytes (codeStream cs) ((cs.length * BITS + 7) / 8) := by
  rw [pack_eq_streamBytes, packedLength, List.length_map, codeStream]

/-- PINIT and an EMIT for each code of a list take the first bits of the stream of every longer list. -/
theorem runEvents_pinit_emits (cs ds : List Code) (s : State) :
    runEvents (.pinit :: cs.map .emit) s = .next (streamed (codeStream (cs ++ ds)) (cs.length * BITS) s) := by
  have hshown : ∀ i c, cs[i]? = some c → c.toNat = natOfBits (codeStream (cs ++ ds)) (0 + BITS * i) BITS := by
    intro i c hc
    have hi := (List.getElem?_eq_some_iff.1 hc).1
    have hcode : ((cs ++ ds).map BitVec.toNat)[i]? = some c.toNat := by
      rw [List.getElem?_map, List.getElem?_append_left hi, hc, Option.map_some]
    rw [Nat.zero_add, codeStream, natOfBits_streamBit hcode, Nat.mod_eq_of_lt c.isLt]
  rw [runEvents_cons, exec_pinit, andThen_next, pinit_eq_streamed (codeStream (cs ++ ds)), runEvents_emits s hshown,
    Nat.zero_add]

theorem runEvents_pinit_emits_flush (cs : List Code) (s : State) :
    runEvents (.pinit :: (cs.map .emit ++ [.flush])) s =
      .next (pushBytes (pack BITS (cs.map BitVec.toNat)) (setAccumulator 0#19 0#5 s)) := by
  have hend : ∀ k, cs.length * BITS ≤ k → codeStream cs k = false := fun k hk =>
    streamBit_of_ge (by decide) (by rwa [List.length_map])
  have hemits := runEvents_pinit_emits cs [] s
  rw [List.append_nil] at hemits
  rw [← List.cons_append, runEvents_append, hemits, andThen_next, runEvents_cons, exec_flush, andThen_next,
    flush_streamed hend, ← pack_codes, runEvents_nil]

/-- Settles O24: EMITs take the stream's bits, FLUSH its last byte, and each code is a window of the stream. -/
theorem packerComputesPack : Obligations.PackerComputesPack := by
  refine ⟨fun cs s => ⟨_, runEvents_pinit_emits_flush cs s, rfl⟩,
    fun cs ds s => ⟨_, runEvents_pinit_emits cs ds s, ?_⟩, fun cs => ?_⟩
  · have hle : cs.length * 12 / 8 ≤ ((cs ++ ds).length * BITS + 7) / 8 := by
      rw [List.length_append, BITS_eq]
      omega
    rw [streamed_outq, pack_codes, streamBytes_take _ hle, BITS_eq]
  · have hcodes : ∀ c ∈ cs.map BitVec.toNat, c < 2 ^ BITS := by
      intro c hc
      obtain ⟨d, -, rfl⟩ := List.mem_map.1 hc
      exact d.isLt
    simpa only [List.length_map] using unpack_pack hcodes

end Sys2Proof.Machine

/-! PROOFS. The encoder's events one by one (43_encoder.md R92 to R100): where START, BYTE and END are enabled, and the
state that each leaves. -/

namespace Sys2Proof.Machine

open Sys2Proof Sys2Proof.Config

/-! Where the events are enabled. -/

theorem startEnabled_iff (s : State) :
    startEnabled s = true ↔ s.phase = .idle ∨ s.phase = .failed ∨ (s.phase = .drained ∧ s.outq = []) := by
  unfold startEnabled
  cases s.phase <;> simp

theorem tokenEnabled_iff (s : State) : tokenEnabled s = true ↔ s.phase = .seed ∨ s.phase = .matching := by
  unfold tokenEnabled
  cases s.phase <;> simp

theorem exec_start_of_enabled {s : State} (h : startEnabled s = true) : exec .start s = .next (startSession s) :=
  (execStart_next s _).2 ⟨h, rfl⟩

theorem exec_start_of_disabled {s : State} (h : startEnabled s = false) : exec .start s = .fault (.stuck s.line) := by
  simp [exec, execStart, h]

theorem exec_byte_of_seed {s : State} (h : s.phase = .seed) (d : Byte) : exec (.byte d) s = .next (seedByte d s) := by
  simp [exec, execByte, h]

theorem exec_byte_of_matching {s : State} {c : Code} (h : s.phase = .matching) (hcur : s.cur = some c) (d : Byte) :
    exec (.byte d) s = matchByte c d s := by
  simp [exec, execByte, h, hcur]

theorem exec_byte_of_disabled {s : State} (h : tokenEnabled s = false) (d : Byte) :
    exec (.byte d) s = .fault (.stuck s.line) := by
  cases hp : s.phase <;> simp_all [exec, execByte, tokenEnabled]

theorem exec_end_of_seed {s : State} (h : s.phase = .seed) : exec .endInput s = .next (finish s) := by
  simp [exec, execEnd, h]

theorem exec_end_of_matching {s : State} {c : Code} (h : s.phase = .matching) (hcur : s.cur = some c) :
    exec .endInput s = .next (finish (emit c s)) := by
  simp [exec, execEnd, h, hcur]

theorem exec_end_of_disabled {s : State} (h : tokenEnabled s = false) :
    exec .endInput s = .fault (.stuck s.line) := by
  cases hp : s.phase <;> simp_all [exec, execEnd, tokenEnabled]

theorem exec_pop_of_cons {s : State} {e : OutEntry} {q : List OutEntry} (h : s.outq = e :: q) :
    exec .pop s = .next { s with outq := q, sunk := s.sunk ++ [e.byte] } :=
  (execPop_next s _).2 ⟨e, q, h, rfl⟩

theorem exec_pop_of_nil {s : State} (h : s.outq = []) : exec .pop s = .fault (.stuck s.line) := by
  simp [exec, execPop, h]

/-- Settles O26: START's one branch gives the fresh session, whose table is TINIT's. -/
theorem startCreatesSession : Obligations.StartCreatesSession := by
  intro s
  rw [← startEnabled_iff]
  refine ⟨fun h => ⟨startSession s, exec_start_of_enabled h, ?_⟩, fun h => exec_start_of_disabled (by simpa using h)⟩
  exact ⟨rfl, rfl, rfl, rfl, rfl, rfl, rfl, rfl, wf_initialTable,
    fun _ hi => (memRead_initialTable _).trans (if_pos hi),
    fun _ hi => (memRead_initialTable _).trans (if_neg (not_lt.2 hi)), rfl, rfl, rfl, rfl, rfl, rfl, rfl⟩

theorem toCode_toNat (d : Byte) : d.toCode.toNat = d.toNat := BitVec.toNat_setWidth_of_le (by decide)

/-- Settles O27: the code of a byte is its zero extension. -/
theorem byteSeedsMatch : Obligations.ByteSeedsMatch := fun d _ hp =>
  ⟨d.toCode, toCode_toNat d, exec_byte_of_seed hp d⟩

/-- Settles O33: a ready signal needs its event enabled. -/
theorem notEnabledIsStuck : Obligations.NotEnabledIsStuck := by
  refine fun s => ⟨fun hseed hmatching => ?_, fun hactive => ?_⟩
  · have hoff : tokenEnabled s = false := Bool.eq_false_iff.2 fun h => ((tokenEnabled_iff s).1 h).elim hseed hmatching
    exact ⟨exec_byte_of_disabled hoff, exec_end_of_disabled hoff, by simp [inReady, hoff]⟩
  · have hoff : startEnabled s = false := by
      rw [Bool.eq_false_iff, ne_eq, startEnabled_iff]
      rcases hactive with hp | hp | ⟨hp, hq⟩ <;> simp [*]
    exact ⟨exec_start_of_disabled hoff, by simp [startReady, hoff]⟩

/-! BYTE in MATCHING. -/

section MatchByte

variable {s : State} {c : Code} {d : Byte} {i : SlotIx}

theorem matchByte_of_hit {e : Entry} (hslot : lookupSlot s.table c d = some i) (he : memRead s.table i.toNat = some e) :
    matchByte c d s = .next (extend e (setProbe i (strideOf (homeIndex c d)) s)) := by
  simp [matchByte, lookup, hslot, he]

theorem matchByte_of_miss (hslot : lookupSlot s.table c d = some i) (hempty : memRead s.table i.toNat = none) :
    matchByte c d s = .next (miss i c d (setProbe i (strideOf (homeIndex c d)) s)) := by
  simp [matchByte, lookup, hslot, hempty]

/-- BYTE in MATCHING completes where LOOKUP ends (R94). -/
theorem exists_matchByte (hslot : lookupSlot s.table c d = some i) :
    ∃ t, matchByte c d s = .next t ∧ t.phase = s.phase ∧ t.cur ≠ none := by
  cases hread : memRead s.table i.toNat with
  | some e => exact ⟨_, matchByte_of_hit hslot hread, rfl, Option.some_ne_none _⟩
  | none => exact ⟨_, matchByte_of_miss hslot hread, miss_phase _ _ _ _, Option.some_ne_none _⟩

/-- `hit` after a LOOKUP in a session reads the slot that it returned (10_state.md R21). -/
theorem hit_lookupState (hp : s.phase ≠ .idle) :
    hit (lookupState c d i s) = populated (memRead s.table i.toNat) := by
  unfold hit lookupState
  cases hq : s.phase <;> simp_all

/-- What a LOOKUP that completes tells of its slot: the ghost `ret` names it. -/
theorem lookup_ret {u : State} (hu : exec (.lookup c d) s = .next u) (hret : u.ret = .slot i) :
    lookupSlot s.table c d = some i ∧ u = lookupState c d i s := by
  obtain ⟨j, hslot, rfl⟩ := execLookup_next hu
  obtain rfl : j = i := Ret.slot.inj hret
  exact ⟨hslot, rfl⟩

theorem allocStep_of_room (h : s.nextCode.toNat ≤ MAX_CODE.toNat) :
    allocStep s = { s with nextCode := s.nextCode + 1#12 } :=
  if_pos h

/-- R96 field by field: a miss changes `cur`, the counter, the accumulator, the queue and the table. -/
theorem miss_eq (i : SlotIx) (c : Code) (d : Byte) (s : State) :
    miss i c d s = { emit c s with
      cur := some d.toCode, nextCode := (allocStep s).nextCode, table := (miss i c d s).table } := by
  rcases Nat.lt_or_ge MAX_CODE.toNat s.nextCode.toNat with hfull | hroom
  · rw [miss_eq_of_exhausted hfull, allocStep_of_exhausted hfull]
    rfl
  · rw [miss_eq_of_room hroom, learn, allocStep_of_room (s := emit c s) hroom, allocStep_of_room hroom]
    rfl

theorem miss_memRead_self (h : s.nextCode.toNat ≤ MAX_CODE.toNat) :
    memRead (miss i c d s).table i.toNat = some ⟨s.nextCode, some c, d⟩ := by
  rw [miss_eq_of_room h]
  exact memRead_learn_self (emit c s) i c d

end MatchByte

/-- Settles O28: on a hit only `cur` and the probe registers are written. -/
theorem byteExtendsOnHit : Obligations.ByteExtendsOnHit := by
  intro d s u c i e hp hcur hu hret he
  obtain ⟨hslot, rfl⟩ := lookup_ret hu hret
  refine ⟨?_, ?_⟩
  · rw [hit_lookupState (by simp [hp]), he]
    rfl
  · rw [exec_byte_of_matching hp hcur, matchByte_of_hit hslot he]
    rfl

/-- Settles O29: a miss is EMIT, ALLOC and, with a code left, a write of the one slot that LOOKUP returned. -/
theorem byteMissEmitsAndGrows : Obligations.ByteMissEmitsAndGrows := by
  intro d s u c i hp hcur hu hret hempty
  obtain ⟨hslot, rfl⟩ := lookup_ret hu hret
  refine ⟨?_, emit c s, (allocStep s).nextCode, (miss i c d s).table, exec_emit c s, ?_,
    fun j hj => miss_memRead_ne s i c d hj, fun hroom => ⟨allocStep_nextCode_toNat hroom, miss_memRead_self hroom⟩,
    fun hfull => ?_⟩
  · rw [hit_lookupState (by simp [hp]), hempty]
    rfl
  · rw [exec_byte_of_matching hp hcur, matchByte_of_miss hslot hempty, miss_eq]
    simp [setProbe, lookupState, emit, pushBytes, setAccumulator, allocCode]
  · have hexhausted := maxCode_lt_of_eq_maxValue hfull
    exact ⟨by rw [allocStep_of_exhausted hexhausted], (miss_dictionary_of_exhausted hexhausted i c d).1⟩

/-- Settles O30: with a slot empty LOOKUP ends, on a hit or on a miss. -/
theorem byteCompletesInMatching : Obligations.ByteCompletesInMatching := by
  intro d s c hp hcur hempty
  obtain ⟨i, hslot⟩ := exists_lookupSlot_of_hasEmptySlot hempty c d
  rw [exec_byte_of_matching hp hcur, ← hp]
  exact exists_matchByte hslot

end Sys2Proof.Machine

/-! PROOFS. The transition table (43_encoder.md R100): a next state has the phase that the table names, what the table
does not enable is stuck, and under the invariant what it enables completes (R105). -/

namespace Sys2Proof.Machine

open Sys2Proof Sys2Proof.Config

theorem phaseAfter_byte (d : Byte) (s : State) :
    phaseAfter (.byte d) s = if tokenEnabled s then some .matching else none := rfl

theorem phaseAfter_end (s : State) : phaseAfter .endInput s = if tokenEnabled s then some .drained else none := rfl

theorem phaseAfter_start (s : State) : phaseAfter .start s = if startEnabled s then some .seed else none := rfl

theorem phaseAfter_pop (s : State) : phaseAfter .pop s = if popEnabled s then some s.phase else none := rfl

theorem phaseAfter_fail (m : FailMask) (s : State) :
    phaseAfter (.fail m) s = some (if busy s then .failed else s.phase) := by
  simp only [phaseAfter]
  split <;> rfl

theorem phaseAfter_reset (s : State) : phaseAfter .reset s = some .idle := rfl

theorem popEnabled_iff (s : State) : popEnabled s = true ↔ ∃ e q, s.outq = e :: q := by
  rw [popEnabled, Bool.not_eq_true', List.isEmpty_eq_false_iff, List.ne_nil_iff_exists_cons]

/-- A BYTE that happens was enabled, and leads to MATCHING. -/
theorem execByte_phase {d : Byte} {s t : State} (h : execByte d s = .next t) :
    tokenEnabled s = true ∧ t.phase = .matching := by
  rw [tokenEnabled_iff]
  rcases execByte_next d s t h with ⟨hp, rfl⟩ | ⟨hp, c, -, hmatch⟩
  · exact ⟨Or.inl hp, rfl⟩
  · obtain ⟨i, -, ⟨e, -, rfl⟩ | ⟨-, rfl⟩⟩ := matchByte_next c d s t hmatch
    · exact ⟨Or.inr hp, hp⟩
    · exact ⟨Or.inr hp, (miss_phase _ _ _ _).trans hp⟩

/-- An END that happens was enabled, and leads to DRAINED. -/
theorem execEnd_phase {s t : State} (h : execEnd s = .next t) : tokenEnabled s = true ∧ t.phase = .drained := by
  rw [tokenEnabled_iff]
  rcases execEnd_next s t h with ⟨hp, rfl⟩ | ⟨hp, c, -, rfl⟩
  · exact ⟨Or.inl hp, rfl⟩
  · exact ⟨Or.inr hp, rfl⟩

/-- The phase of a next state is the one that the table names. -/
theorem phaseAfter_of_next {i : Instr} {s t : State} (hi : i.isEvent = true) (h : exec i s = .next t) :
    phaseAfter i s = some t.phase := by
  cases i with
  | byte d =>
    obtain ⟨hon, hphase⟩ := execByte_phase h
    rw [phaseAfter_byte, if_pos hon, hphase]
  | endInput =>
    obtain ⟨hon, hphase⟩ := execEnd_phase h
    rw [phaseAfter_end, if_pos hon, hphase]
  | start =>
    obtain ⟨hon, rfl⟩ := (execStart_next s t).1 h
    rw [phaseAfter_start, if_pos hon, startSession_phase]
  | fail m =>
    rw [(execFail_next m s t).1 h, phaseAfter_fail]
    split <;> rfl
  | pop =>
    obtain ⟨e, q, hq, rfl⟩ := (execPop_next s t).1 h
    rw [phaseAfter_pop, if_pos ((popEnabled_iff s).2 ⟨e, q, hq⟩)]
  | reset =>
    obtain rfl : resetCore s = t := Host.Outcome.next.inj h
    exact phaseAfter_reset s
  | hash | stride | next | lookup | insert | tinit | sinit | alloc | pinit | emit | flush => cases hi

/-- An event that the table does not enable is stuck at its line. -/
theorem stuck_of_phaseAfter_none {i : Instr} {s : State} (h : phaseAfter i s = none) :
    exec i s = .fault (.stuck s.line) := by
  cases i with
  | byte d => exact exec_byte_of_disabled (by simpa [phaseAfter_byte] using h) d
  | endInput => exact exec_end_of_disabled (by simpa [phaseAfter_end] using h)
  | start => exact exec_start_of_disabled (by simpa [phaseAfter_start] using h)
  | pop => exact exec_pop_of_nil (by simpa [phaseAfter_pop, popEnabled] using h)
  | fail m => simp [phaseAfter_fail] at h
  | reset | hash | stride | next | lookup | insert | tinit | sinit | alloc | pinit | emit | flush => cases h

/-- Settles O34: one direction from what an event can do, the other from where it is enabled. -/
theorem phaseFollowsTransitionTable : Obligations.PhaseFollowsTransitionTable := fun _ _ hi =>
  ⟨fun _ => phaseAfter_of_next hi, stuck_of_phaseAfter_none⟩

/-! What is enabled completes. -/

/-- A session leaves slots empty, so its BYTE in MATCHING completes: `cur` holds a code and LOOKUP ends (R105). -/
theorem SessionInv.exists_exec_byte {s : State} (h : SessionInv s) (hp : s.phase = .matching) (d : Byte) :
    ∃ t, exec (.byte d) s = .next t := by
  obtain ⟨c, hcur, -⟩ := h.cur_lt hp
  obtain ⟨i, hslot⟩ := exists_lookupSlot_of_hasEmptySlot h.hasEmptySlot c d
  obtain ⟨t, ht, -⟩ := exists_matchByte hslot
  exact ⟨t, by rw [exec_byte_of_matching hp hcur, ht]⟩

theorem SessionInv.exists_exec_end {s : State} (h : SessionInv s) (hp : s.phase = .matching) :
    ∃ t, exec .endInput s = .next t := by
  obtain ⟨c, hcur, -⟩ := h.cur_lt hp
  exact ⟨_, exec_end_of_matching hp hcur⟩

theorem Inv.exists_next {i : Instr} {s : State} (h : Inv s) (hi : i.isEvent = true) (hon : phaseAfter i s ≠ none) :
    ∃ t, exec i s = .next t := by
  cases i with
  | byte d =>
    rcases (tokenEnabled_iff s).1 (by simpa [phaseAfter_byte] using hon) with hp | hp
    · exact ⟨_, exec_byte_of_seed hp d⟩
    · exact (h.session (Or.inr (Or.inl hp))).exists_exec_byte hp d
  | endInput =>
    rcases (tokenEnabled_iff s).1 (by simpa [phaseAfter_end] using hon) with hp | hp
    · exact ⟨_, exec_end_of_seed hp⟩
    · exact (h.session (Or.inr (Or.inl hp))).exists_exec_end hp
  | start => exact ⟨_, exec_start_of_enabled (by simpa [phaseAfter_start] using hon)⟩
  | fail m => exact ⟨_, (execFail_next m s _).2 rfl⟩
  | pop =>
    obtain ⟨e, q, hq⟩ := (popEnabled_iff s).1 (by simpa [phaseAfter_pop] using hon)
    exact ⟨_, exec_pop_of_cons hq⟩
  | reset => exact ⟨_, rfl⟩
  | hash | stride | next | lookup | insert | tinit | sinit | alloc | pinit | emit | flush => cases hi

/-- Settles O49: what the table enables completes under the invariant, and then the phase is the table's. -/
theorem enabledEventsComplete : Obligations.EnabledEventsComplete := by
  intro i s q hi hinv hphase
  obtain ⟨t, ht⟩ := hinv.exists_next hi (by simp [hphase])
  exact ⟨t, ht, Option.some.inj ((phaseAfter_of_next hi ht).symm.trans hphase)⟩

end Sys2Proof.Machine

/-! PROOFS. END (43_encoder.md R97, R98): the operations it runs, the entry that it marks, and its bytes for
`BITS = 12`. -/

namespace Sys2Proof.Machine

open Sys2Proof Sys2Proof.Config

/-! What END leaves. -/

/-- FLUSH field by field: the accumulator and the queue. -/
theorem flush_eq (s : State) :
    flush s = { s with bitBuffer := 0#19, pendingBits := 0#5, outq := (flush s).outq } := by
  by_cases h : s.pendingBits = 0#5
  · rw [flush_of_none h]
    rfl
  · rw [flush_of_some h]
    rfl

/-- The end of END field by field: the accumulator, the queue and the phase. -/
theorem finish_eq (s : State) : finish s = { s with
    bitBuffer := 0#19, pendingBits := 0#5, outq := markTail (flush (emit MAX_VALUE s)).outq, phase := .drained } := by
  rw [finish, flush_eq]
  rfl

/-- EMIT pushes at least one byte, for a code is longer than a byte (R83). -/
theorem emit_outq_ne_nil (c : Code) (s : State) : (emit c s).outq ≠ [] := by
  have hlen := emitDrain_length s.bitBuffer s.pendingBits c
  refine List.ne_nil_of_length_pos ?_
  rw [emit_outq, List.length_append, List.length_map, hlen, BITS_eq]
  omega

theorem flush_outq_ne_nil {s : State} (h : s.outq ≠ []) : (flush s).outq ≠ [] := by
  rw [flush_outq]
  split
  · exact h
  · exact List.append_ne_nil_of_left_ne_nil h _

/-- The entry that END marks, at the tail of the queue that FLUSH leaves. -/
theorem exists_flush_emit_tail (c : Code) (s : State) : ∃ q e, (flush (emit c s)).outq = q ++ [e] := by
  rcases List.eq_nil_or_concat (flush (emit c s)).outq with hnil | ⟨q, e, htail⟩
  · exact absurd hnil (flush_outq_ne_nil (emit_outq_ne_nil c s))
  · exact ⟨q, e, by rw [htail, List.concat_eq_append]⟩

theorem finish_of_tail {s : State} {q : List OutEntry} {e : OutEntry}
    (h : (flush (emit MAX_VALUE s)).outq = q ++ [e]) : finish s = { s with
      bitBuffer := 0#19, pendingBits := 0#5, outq := q ++ [{ e with last := true }], phase := .drained } := by
  rw [finish_eq, h, markTail_append]

/-- Settles O31: END is its operations with the last entry marked, and there is a last entry. -/
theorem endEmitsTerminal : Obligations.EndEmitsTerminal := by
  refine ⟨fun s c hp hcur => ?_, fun s hp => ?_⟩
  · obtain ⟨q, e, htail⟩ := exists_flush_emit_tail MAX_VALUE (emit c s)
    refine ⟨flush (emit MAX_VALUE (emit c s)), q, e, rfl, htail, ?_⟩
    rw [exec_end_of_matching hp hcur, finish_of_tail htail]
    rfl
  · obtain ⟨q, e, htail⟩ := exists_flush_emit_tail MAX_VALUE s
    exact ⟨flush (emit MAX_VALUE s), q, e, rfl, htail, by rw [exec_end_of_seed hp, finish_of_tail htail]⟩

/-! The bytes of a code, from either count of pending bits that R86 allows. -/

theorem emitDrain_bytes_eq (buf : BitBuf) (pending : BitCount) (c : Code) :
    (emitDrain buf pending c).bytes = (List.range ((pending.toNat + BITS) / 8)).map fun k =>
      BitVec.ofNat 8 ((buf.toNat * 4096 + c.toNat) >>> (pending.toNat + BITS - 8 * (k + 1))) := by
  refine List.ext_getElem? fun k => ?_
  rcases Nat.lt_or_ge k ((pending.toNat + BITS) / 8) with hk | hk
  · rw [emitDrain_bytes _ _ _ k hk]
    simp [hk]
  · rw [List.getElem?_eq_none (by rwa [emitDrain_length]), List.getElem?_eq_none (by simpa using hk)]

/-- EMIT with nothing pending pushes the code's high byte and keeps its low nibble. -/
theorem emit_of_empty {s : State} (hbuf : s.bitBuffer = 0#19) (hpending : s.pendingBits = 0#5) (c : Code) :
    emit c s = { s with
      bitBuffer := (c.extractLsb' 0 4).setWidth 19
      pendingBits := 4#5
      outq := s.outq ++ [⟨false, c.extractLsb' 4 8⟩] } := by
  have hbytes : (emitDrain 0#19 0#5 c).bytes = [c.extractLsb' 4 8] := by
    rw [emitDrain_bytes_eq, BitVec.toNat_zero, Nat.zero_mul, Nat.zero_add]
    rfl
  have hrest : BitVec.ofNat 19 (emitDrain 0#19 0#5 c).buf = (c.extractLsb' 0 4).setWidth 19 := by
    apply BitVec.eq_of_toNat_eq
    rw [emitDrain_buf, BitVec.toNat_zero, Nat.zero_mul, Nat.zero_add, BitVec.toNat_setWidth, BitVec.extractLsb'_toNat,
      BitVec.toNat_ofNat]
    rfl
  rw [emit, hbuf, hpending, hbytes, hrest, emitDrain_pending]
  rfl

/-- A nibble and a code are two bytes. -/
theorem ofNat_nibble_code (x : BitVec 4) (c : Code) :
    BitVec.ofNat 8 ((x.toNat * 4096 + c.toNat) >>> 8) = x ++ c.extractLsb' 8 4 ∧
      BitVec.ofNat 8 (x.toNat * 4096 + c.toNat) = c.extractLsb' 0 8 := by
  have hc := c.isLt
  constructor <;> apply BitVec.eq_of_toNat_eq
  · have hhigh : (c.extractLsb' 8 4).toNat = c.toNat / 256 := by
      rw [BitVec.extractLsb'_toNat, Nat.shiftRight_eq_div_pow]
      omega
    rw [BitVec.toNat_append, ← Nat.shiftLeft_add_eq_or_of_lt (c.extractLsb' 8 4).isLt, hhigh, Nat.shiftLeft_eq,
      BitVec.toNat_ofNat, Nat.shiftRight_eq_div_pow]
    omega
  · rw [BitVec.extractLsb'_toNat, BitVec.toNat_ofNat, Nat.shiftRight_zero]
    omega

/-- EMIT with a nibble pending pushes two bytes and keeps nothing. -/
theorem emit_of_nibble {s : State} {x : BitVec 4} (hbuf : s.bitBuffer = x.setWidth 19) (hpending : s.pendingBits = 4#5)
    (c : Code) : emit c s = { s with
      bitBuffer := 0#19
      pendingBits := 0#5
      outq := s.outq ++ [⟨false, x ++ c.extractLsb' 8 4⟩, ⟨false, c.extractLsb' 0 8⟩] } := by
  have hx : (x.setWidth 19).toNat = x.toNat := BitVec.toNat_setWidth_of_le (by decide)
  obtain ⟨hhigh, hlow⟩ := ofNat_nibble_code x c
  have hbytes : (emitDrain (x.setWidth 19) 4#5 c).bytes = [x ++ c.extractLsb' 8 4, c.extractLsb' 0 8] := by
    rw [emitDrain_bytes_eq, hx, ← hhigh, ← hlow]
    rfl
  have hrest : (emitDrain (x.setWidth 19) 4#5 c).buf = 0 := by
    rw [emitDrain_buf]
    exact Nat.mod_one _
  rw [emit, hbuf, hpending, hbytes, hrest, emitDrain_pending]
  rfl

/-- FLUSH with a nibble pending pushes it left-justified (R85). -/
theorem flush_of_nibble {s : State} {x : BitVec 4} (hbuf : s.bitBuffer = x.setWidth 19)
    (hpending : s.pendingBits = 4#5) :
    flush s = { s with bitBuffer := 0#19, pendingBits := 0#5, outq := s.outq ++ [⟨false, x ++ 0#4⟩] } := by
  have hbyte : flushByte (x.setWidth 19) 4#5 = x ++ 0#4 := by
    rw [flushByte_eq _ (by decide)]
    apply BitVec.eq_of_toNat_eq
    have hx := x.isLt
    rw [BitVec.toNat_ofNat, BitVec.toNat_setWidth_of_le (by decide), BitVec.toNat_append, Nat.shiftLeft_eq,
      BitVec.toNat_zero, Nat.or_zero]
    change x.toNat * 16 % 256 = x.toNat * 16
    omega
  rw [flush_of_some (by rw [hpending]; decide), hbuf, hpending, hbyte]
  rfl

/-- Settles O32: EMITs and FLUSH turn nothing and a nibble pending into each other. -/
theorem endPushesTheseBytes : Obligations.EndPushesTheseBytes := by
  refine ⟨fun s c hp hcur hbuf hpending => ?_, fun s c x hp hcur hbuf hpending => ?_, fun s hp hbuf hpending => ?_⟩
  · have hqueue : (flush (emit MAX_VALUE (emit c s))).outq =
        (s.outq ++ [⟨false, c.extractLsb' 4 8⟩, ⟨false, c.extractLsb' 0 4 ++ 0xF#4⟩]) ++ [⟨false, 0xFF#8⟩] := by
      rw [emit_of_empty hbuf hpending, emit_of_nibble rfl rfl, flush_of_none rfl, setAccumulator_outq]
      simp only [List.append_assoc]
      rfl
    rw [exec_end_of_matching hp hcur, finish_of_tail hqueue, List.append_assoc, hbuf, hpending]
    rfl
  · have hqueue : (flush (emit MAX_VALUE (emit c s))).outq =
        (s.outq ++ [⟨false, x ++ c.extractLsb' 8 4⟩, ⟨false, c.extractLsb' 0 8⟩, ⟨false, 0xFF#8⟩]) ++
          [⟨false, 0xF0#8⟩] := by
      rw [emit_of_nibble hbuf hpending, emit_of_empty rfl rfl, flush_of_nibble rfl rfl]
      simp only [List.append_assoc]
      rfl
    rw [exec_end_of_matching hp hcur, finish_of_tail hqueue, List.append_assoc]
    rfl
  · have hqueue : (flush (emit MAX_VALUE s)).outq = (s.outq ++ [⟨false, 0xFF#8⟩]) ++ [⟨false, 0xF0#8⟩] := by
      rw [emit_of_empty hbuf hpending, flush_of_nibble rfl rfl]
      rfl
    rw [exec_end_of_seed hp, finish_of_tail hqueue, List.append_assoc, hbuf, hpending]
    rfl

/-! The operations of an event's trace. -/

theorem traceOf_byte_of_matching {s : State} {c : Code} (hp : s.phase = .matching) (hcur : s.cur = some c) (d : Byte) :
    traceOf (.byte d) s = matchTrace c d s := by
  simp [traceOf, hp, hcur]

theorem traceOf_byte_of_seed {s : State} (hp : s.phase = .seed) (d : Byte) : traceOf (.byte d) s = [] := by
  simp [traceOf, hp]

theorem traceOf_end_of_matching {s : State} {c : Code} (hp : s.phase = .matching) (hcur : s.cur = some c) :
    traceOf .endInput s = [.emit c, .emit MAX_VALUE, .flush] := by
  simp [traceOf, hp, hcur]

theorem traceOf_end_of_seed {s : State} (hp : s.phase = .seed) : traceOf .endInput s = [.emit MAX_VALUE, .flush] := by
  simp [traceOf, hp]

/-- What O35 compares: the table, the counter, the accumulator, the probe registers and the bytes of the queue. -/
def sameWork (u t : State) : Prop :=
  u.table = t.table ∧ u.nextCode = t.nextCode ∧ u.bitBuffer = t.bitBuffer ∧ u.pendingBits = t.pendingBits ∧
    u.idx = t.idx ∧ u.stride = t.stride ∧ u.outq.map OutEntry.byte = t.outq.map OutEntry.byte

theorem runEvents_emit_alloc (c : Code) (is : List Instr) (s : State) :
    runEvents (.emit c :: .alloc :: is) s = runEvents is (allocated (emit c s)) := by
  rw [runEvents_cons, exec_emit, andThen_next, runEvents_cons, exec_alloc, andThen_next]

section MatchTrace

variable {s : State} {c : Code} {d : Byte} {i : SlotIx} (hslot : lookupSlot s.table c d = some i)
include hslot

theorem matchTrace_of_hit {e : Entry} (he : memRead s.table i.toNat = some e) : matchTrace c d s = [.lookup c d] := by
  simp [matchTrace, hslot, he]

theorem matchTrace_of_room (hempty : memRead s.table i.toNat = none) (hroom : s.nextCode.toNat ≤ MAX_CODE.toNat) :
    matchTrace c d s = [.lookup c d, .emit c, .alloc, .insert i s.nextCode c d] := by
  simp [matchTrace, hslot, hempty, (allocCode_eq_some s _).2 ⟨hroom, rfl⟩]

theorem matchTrace_of_exhausted (hempty : memRead s.table i.toNat = none) (hfull : MAX_CODE.toNat < s.nextCode.toNat) :
    matchTrace c d s = [.lookup c d, .emit c, .alloc] := by
  simp [matchTrace, hslot, hempty, (allocCode_eq_none s).2 hfull]

theorem runEvents_lookup (is : List Instr) :
    runEvents (.lookup c d :: is) s = runEvents is (lookupState c d i s) := by
  have hlookup : exec (.lookup c d) s = .next (lookupState c d i s) := execLookup_of_slot hslot
  rw [runEvents_cons, hlookup, andThen_next]

/-- R95: the trace of a hit is its LOOKUP. -/
theorem runEvents_matchTrace_of_hit {e : Entry} (he : memRead s.table i.toNat = some e) :
    ∃ u, runEvents (matchTrace c d s) s = .next u ∧
      sameWork u (extend e (setProbe i (strideOf (homeIndex c d)) s)) := by
  rw [matchTrace_of_hit hslot he, runEvents_lookup hslot]
  exact ⟨_, rfl, rfl, rfl, rfl, rfl, rfl, rfl, rfl⟩

/-- R96: the trace of a miss is LOOKUP, EMIT, ALLOC and, with a code left, INSERT. -/
theorem runEvents_matchTrace_of_miss (hempty : memRead s.table i.toNat = none) :
    ∃ u, runEvents (matchTrace c d s) s = .next u ∧
      sameWork u (miss i c d (setProbe i (strideOf (homeIndex c d)) s)) := by
  rcases Nat.lt_or_ge MAX_CODE.toNat s.nextCode.toNat with hfull | hroom
  · rw [matchTrace_of_exhausted hslot hempty hfull, runEvents_lookup hslot, runEvents_emit_alloc,
      allocated_of_exhausted (s := emit c (lookupState c d i s)) hfull, runEvents_nil,
      miss_eq_of_exhausted (s := setProbe i _ s) hfull]
    exact ⟨_, rfl, rfl, rfl, rfl, rfl, rfl, rfl, rfl⟩
  · have hinsert (u : State) : exec (.insert i s.nextCode c d) u = .next (insert i s.nextCode c d u) :=
      execInsert_of_lt (lookupSlot_lt hslot) s.nextCode c d u
    rw [matchTrace_of_room hslot hempty hroom, runEvents_lookup hslot, runEvents_emit_alloc,
      allocated_of_room (s := emit c (lookupState c d i s)) hroom, runEvents_cons, hinsert,
      miss_eq_of_room (s := setProbe i _ s) hroom, learn, allocStep_of_room (s := emit c (setProbe i _ s)) hroom]
    exact ⟨_, rfl, rfl, rfl, rfl, rfl, rfl, rfl, rfl⟩

end MatchTrace

theorem runEvents_traceOf_byte {d : Byte} {s t : State} (h : exec (.byte d) s = .next t) :
    ∃ u, runEvents (traceOf (.byte d) s) s = .next u ∧ sameWork u t := by
  rcases execByte_next d s t h with ⟨hp, rfl⟩ | ⟨hp, c, hcur, hmatch⟩
  · rw [traceOf_byte_of_seed hp]
    exact ⟨s, rfl, rfl, rfl, rfl, rfl, rfl, rfl, rfl⟩
  · rw [traceOf_byte_of_matching hp hcur]
    obtain ⟨i, hslot, ⟨e, he, rfl⟩ | ⟨hempty, rfl⟩⟩ := matchByte_next c d s t hmatch
    · exact runEvents_matchTrace_of_hit hslot he
    · exact runEvents_matchTrace_of_miss hslot hempty

/-- The mark that END sets is no byte. -/
theorem sameWork_finish (s : State) : sameWork (flush (emit MAX_VALUE s)) (finish s) := by
  rw [finish_eq, flush_eq]
  exact ⟨rfl, rfl, rfl, rfl, rfl, rfl, (markTail_bytes _).symm⟩

theorem runEvents_traceOf_end {s t : State} (h : exec .endInput s = .next t) :
    ∃ u, runEvents (traceOf .endInput s) s = .next u ∧ sameWork u t := by
  rcases execEnd_next s t h with ⟨hp, rfl⟩ | ⟨hp, c, hcur, rfl⟩
  · rw [traceOf_end_of_seed hp]
    exact ⟨_, rfl, sameWork_finish s⟩
  · rw [traceOf_end_of_matching hp hcur]
    exact ⟨_, rfl, sameWork_finish (emit c s)⟩

/-- Settles O35: event by event, and for BYTE branch by branch. -/
theorem eventsAreTheirTraces : Obligations.EventsAreTheirTraces := by
  refine ⟨fun s t h => ?_, ?_⟩
  · obtain ⟨-, rfl⟩ := (execStart_next s t).1 h
    exact ⟨_, rfl, rfl, rfl, rfl, rfl⟩
  · rintro i s t (⟨d, rfl⟩ | rfl) h
    · exact runEvents_traceOf_byte h
    · exact runEvents_traceOf_end h

end Sys2Proof.Machine

/-! PROOFS. CODES (43_encoder.md R101, R104 to R106): the three things that its recursion does with a byte, the range
and the number of its codes, the framing of COMPRESS, and what the codes stand for. -/

namespace Sys2Proof.Machine

open Sys2Proof Sys2Proof.Config

/-! The recursion. -/

section CodesFrom

variable {maxCode c n b : Nat} {D : Dict} {rest : List Nat}

theorem codesFrom_of_found {a : Nat} (h : dictFind D c b = some a) :
    codesFrom maxCode c D n (b :: rest) = codesFrom maxCode a D n rest := by
  rw [codesFrom, h]

theorem codesFrom_of_room (h : dictFind D c b = none) (hroom : n ≤ maxCode) :
    codesFrom maxCode c D n (b :: rest) =
      ⟨c :: (codesFrom maxCode b (((c, b), n) :: D) (n + 1) rest).codes,
        (codesFrom maxCode b (((c, b), n) :: D) (n + 1) rest).dict⟩ := by
  simp only [codesFrom, h, if_pos hroom]

theorem codesFrom_of_exhausted (h : dictFind D c b = none) (hfull : maxCode < n) :
    codesFrom maxCode c D n (b :: rest) =
      ⟨c :: (codesFrom maxCode b D n rest).codes, (codesFrom maxCode b D n rest).dict⟩ := by
  simp only [codesFrom, h, if_neg (Nat.not_le.2 hfull)]

end CodesFrom

/-- Everything that CODES can do with a byte: find the key, learn it, or only begin a new match (R101). -/
theorem codesFrom_branch (maxCode c n b : Nat) (D : Dict) :
    (∃ a, dictFind D c b = some a) ∨ (dictFind D c b = none ∧ n ≤ maxCode) ∨
      (dictFind D c b = none ∧ maxCode < n) := by
  cases dictFind D c b with
  | some a => exact Or.inl ⟨a, rfl⟩
  | none => exact Or.inr ((Nat.lt_or_ge maxCode n).symm.imp (⟨rfl, ·⟩) (⟨rfl, ·⟩))

theorem dictFind_cons (p x a : Nat) (D : Dict) (c b : Nat) :
    dictFind (((p, x), a) :: D) c b = if p = c ∧ x = b then some a else dictFind D c b := rfl

theorem mem_of_dictFind {D : Dict} {c b a : Nat} (h : dictFind D c b = some a) : ((c, b), a) ∈ D := by
  induction D with
  | nil => cases h
  | cons x D ih =>
    obtain ⟨⟨p, y⟩, a'⟩ := x
    rw [dictFind_cons] at h
    split at h
    · next hkey =>
      obtain ⟨rfl, rfl⟩ := hkey
      obtain rfl : a' = a := Option.some.inj h
      exact List.mem_cons_self
    · exact List.mem_cons_of_mem _ (ih h)

/-! How many codes, and which. -/

theorem codesFrom_le {maxCode c n : Nat} {D : Dict} {bs : List Nat} (hc : c ≤ maxCode) (hD : ∀ x ∈ D, x.2 ≤ maxCode)
    (hbs : ∀ b ∈ bs, b ≤ maxCode) : ∀ a ∈ (codesFrom maxCode c D n bs).codes, a ≤ maxCode := by
  induction bs generalizing c D n with
  | nil => simpa [codesFrom] using hc
  | cons b bs ih =>
    obtain ⟨hb, hrest⟩ := List.forall_mem_cons.1 hbs
    rcases codesFrom_branch maxCode c n b D with ⟨a, hfound⟩ | ⟨hnone, hroom⟩ | ⟨hnone, hfull⟩
    · rw [codesFrom_of_found hfound]
      exact ih (hD _ (mem_of_dictFind hfound)) hD hrest
    · rw [codesFrom_of_room hnone hroom]
      exact List.forall_mem_cons.2 ⟨hc, ih hb (List.forall_mem_cons.2 ⟨hroom, hD⟩) hrest⟩
    · rw [codesFrom_of_exhausted hnone hfull]
      exact List.forall_mem_cons.2 ⟨hc, ih hb hD hrest⟩

theorem codesFrom_length_le (maxCode c n : Nat) (D : Dict) (bs : List Nat) :
    (codesFrom maxCode c D n bs).codes.length ≤ bs.length + 1 := by
  induction bs generalizing c D n with
  | nil => exact le_rfl
  | cons b bs ih =>
    rcases codesFrom_branch maxCode c n b D with ⟨a, hfound⟩ | ⟨hnone, hroom⟩ | ⟨hnone, hfull⟩
    · rw [codesFrom_of_found hfound]
      exact (ih a n D).trans (Nat.le_succ _)
    · rw [codesFrom_of_room hnone hroom]
      exact Nat.succ_le_succ (ih _ _ _)
    · rw [codesFrom_of_exhausted hnone hfull]
      exact Nat.succ_le_succ (ih _ _ _)

/-- With nothing learnt yet the current code is emitted first. -/
theorem codesFrom_head? (maxCode c n : Nat) (bs : List Nat) : (codesFrom maxCode c [] n bs).codes.head? = some c := by
  cases bs with
  | nil => rfl
  | cons b bs =>
    rcases Nat.lt_or_ge maxCode n with hfull | hroom
    · rw [codesFrom_of_exhausted rfl hfull]
      rfl
    · rw [codesFrom_of_room rfl hroom]
      rfl

/-- CODES of an input on this hardware (R101). -/
def hwCodes (bs : List Byte) : List Nat := (codesBetween 256 4094 (bs.map BitVec.toNat)).codes

theorem compress_eq (bs : List Byte) : compress hw bs = .ok (pack BITS (hwCodes bs ++ [4095])) := compress_hw bs

theorem hwCodes_nil : hwCodes [] = [] := rfl

/-- The first byte is emitted as its own code (R104). -/
theorem hwCodes_head? (b : Byte) (bs : List Byte) : (hwCodes (b :: bs)).head? = some b.toNat :=
  codesFrom_head? 4094 b.toNat 256 (bs.map BitVec.toNat)

/-- No code is above `MAX_CODE` (R101). -/
theorem hwCodes_le (bs : List Byte) : ∀ a ∈ hwCodes bs, a ≤ 4094 := by
  have hbyte (b : Byte) : b.toNat ≤ 4094 := by omega
  cases bs with
  | nil => exact nofun
  | cons b bs =>
    refine codesFrom_le (hbyte b) nofun fun x hx => ?_
    obtain ⟨y, -, rfl⟩ := List.mem_map.1 hx
    exact hbyte y

/-- Each byte ends at most one match, and END one (R105). -/
theorem hwCodes_length_le (bs : List Byte) : (hwCodes bs).length ≤ bs.length := by
  cases bs with
  | nil => exact le_rfl
  | cons b bs => simpa [hwCodes, codesBetween] using codesFrom_length_le 4094 b.toNat 256 [] (bs.map BitVec.toNat)

/-- Settles O58: both bounds by induction over the bytes. -/
theorem codesAreBounded : Obligations.CodesAreBounded := fun bs =>
  ⟨_, codesOf_hw bs, hwCodes_le bs, hwCodes_length_le bs⟩

/-! The framing. -/

/-- After its last code PACK shows zeros: its padding, and then nothing (R89). -/
theorem byteStreamBit_pack_of_ge {width : Nat} (hw : 1 ≤ width) {cs : List Nat} {k : Nat} (hk : cs.length * width ≤ k) :
    byteStreamBit (pack width cs) k = false := by
  rcases Nat.lt_or_ge k (8 * packedLength width cs.length) with hlt | hge
  · rw [pack_eq_streamBytes, byteStreamBit_streamBytes _ hlt, streamBit_of_ge hw hk]
  · rw [byteStreamBit, List.getElem?_eq_none (by rw [pack_length]; omega)]

/-- What PACK packs is codes of 12 bits. -/
theorem hwCodes_sentinel_lt (bs : List Byte) : ∀ c ∈ hwCodes bs ++ [4095], c < 2 ^ BITS := by
  intro c hc
  rcases List.mem_append.1 hc with hc | hc
  · exact (hwCodes_le bs c hc).trans_lt (by decide)
  · rw [List.mem_singleton.1 hc]
    decide

/-- Settles O57: COMPRESS is PACK of codes that are at most `MAX_CODE` and the sentinel. -/
theorem compressIsFramed : Obligations.CompressIsFramed := by
  intro bs
  have hlen : (hwCodes bs ++ [4095]).length = (hwCodes bs).length + 1 := List.length_append
  have hunpack := unpack_pack (hwCodes_sentinel_lt bs)
  rw [hlen] at hunpack
  have hbytes : (pack BITS (hwCodes bs ++ [4095])).length = (((hwCodes bs).length + 1) * 12 + 7) / 8 := by
    rw [pack_length, packedLength, hlen]
  refine ⟨_, hwCodes bs, compress_eq bs, fun c hc => Nat.lt_succ_of_le (hwCodes_le bs c hc), hunpack, by omega,
    by omega, fun k hk => byteStreamBit_pack_of_ge (by decide) (by rw [hlen, BITS_eq]; omega), ?_, ?_⟩
  · rintro b rest rfl
    exact hwCodes_head? b rest
  · rintro rfl
    exact hwCodes_nil

/-! What a code stands for (R106). -/

theorem dictKey_cons (k : Nat × Nat) (a : Nat) (D : Dict) (c : Nat) :
    dictKey ((k, a) :: D) c = if a = c then some k else dictKey D c := rfl

theorem mem_of_dictKey {D : Dict} {k : Nat × Nat} {a : Nat} (h : dictKey D a = some k) : (k, a) ∈ D := by
  induction D with
  | nil => cases h
  | cons x D ih =>
    obtain ⟨k', a'⟩ := x
    rw [dictKey_cons] at h
    split at h
    · next hcode =>
      obtain rfl : k' = k := Option.some.inj h
      exact hcode ▸ List.mem_cons_self
    · exact List.mem_cons_of_mem _ (ih h)

/-- A map that CODES has built while its codes are below `n`: a code is given to one key, is no root, and is above its
key's code (R101, R106). -/
structure DictOk (roots n : Nat) (D : Dict) : Prop where
  key : ∀ x ∈ D, dictKey D x.2 = some x.1
  noRoot : ∀ x ∈ D, roots ≤ x.2
  grows : ∀ x ∈ D, x.1.1 < x.2
  below : ∀ x ∈ D, x.2 < n

theorem dictOk_nil (roots n : Nat) : DictOk roots n [] := ⟨nofun, nofun, nofun, nofun⟩

section DictOk

variable {roots n : Nat} {D : Dict}

/-- A learnt key gets a code that no other key has. -/
theorem DictOk.learn (h : DictOk roots n D) {c : Nat} (hc : c < n) (hn : roots ≤ n) (b : Nat) :
    DictOk roots (n + 1) (((c, b), n) :: D) where
  key := List.forall_mem_cons.2 ⟨if_pos rfl, fun x hx => by
    rw [dictKey_cons, if_neg (h.below x hx).ne', h.key x hx]⟩
  noRoot := List.forall_mem_cons.2 ⟨hn, h.noRoot⟩
  grows := List.forall_mem_cons.2 ⟨hc, h.grows⟩
  below := List.forall_mem_cons.2 ⟨Nat.lt_succ_self n, fun x hx => Nat.lt_succ_of_lt (h.below x hx)⟩

/-- Any fuel above the code is enough. -/
theorem DictOk.codeString_fuel (h : DictOk roots n D) {c k m : Nat} (hk : c < k) (hm : c < m) :
    codeString roots D k c = codeString roots D m c := by
  induction k generalizing c m with
  | zero => omega
  | succ k ih =>
    obtain ⟨m, rfl⟩ := Nat.exists_eq_succ_of_ne_zero (Nat.ne_zero_of_lt hm)
    rw [codeString, codeString]
    split
    · rfl
    · cases hkey : dictKey D c with
      | none => rfl
      | some key =>
        obtain ⟨p, b⟩ := key
        have hp : p < c := h.grows _ (mem_of_dictKey hkey)
        simp only [ih (hp.trans_le (Nat.le_of_lt_succ hk)) (hp.trans_le (Nat.le_of_lt_succ hm))]

/-- `str(a) = str(c) ++ [b]` for a code given to `(c, b)`. -/
theorem DictOk.codeString_of_key (h : DictOk roots n D) {a c b : Nat} (hkey : dictKey D a = some (c, b)) :
    codeString roots D (a + 1) a = codeString roots D (c + 1) c ++ [b] := by
  have hmem := mem_of_dictKey hkey
  have hroot : ¬ a < roots := Nat.not_lt.2 (h.noRoot _ hmem)
  have hgrows : c < a := h.grows _ hmem
  rw [codeString, if_neg hroot, hkey]
  simp only [h.codeString_fuel hgrows (Nat.lt_succ_self c)]

theorem codeString_root (D : Dict) {b : Nat} (hb : b < roots) : codeString roots D (b + 1) b = [b] := by
  rw [codeString, if_pos hb]

/-- What CODES does to its map: codes are only added, from `n` on. -/
theorem DictOk.codesFrom_dict (h : DictOk roots n D) {maxCode c : Nat} {bs : List Nat} (hc : c < n) (hn : roots ≤ n)
    (hbs : ∀ b ∈ bs, b < roots) : (∃ m, DictOk roots m (codesFrom maxCode c D n bs).dict) ∧
      ∀ a < n, dictKey (codesFrom maxCode c D n bs).dict a = dictKey D a := by
  induction bs generalizing c n D with
  | nil => exact ⟨⟨n, h⟩, fun _ _ => rfl⟩
  | cons b bs ih =>
    obtain ⟨hb, hrest⟩ := List.forall_mem_cons.1 hbs
    rcases codesFrom_branch maxCode c n b D with ⟨a, hfound⟩ | ⟨hnone, hroom⟩ | ⟨hnone, hfull⟩
    · rw [codesFrom_of_found hfound]
      exact ih h (h.below _ (mem_of_dictFind hfound)) hn hrest
    · rw [codesFrom_of_room hnone hroom]
      obtain ⟨hok, hkept⟩ := ih (h.learn hc hn b) (show b < n + 1 by omega) (by omega) hrest
      refine ⟨hok, fun a ha => ?_⟩
      rw [hkept a (by omega), dictKey_cons, if_neg ha.ne']
    · rw [codesFrom_of_exhausted hnone hfull]
      exact ih h (hb.trans_le hn) hn hrest

/-- The codes to come stand for the current match and the bytes to come. -/
theorem DictOk.expand_codesFrom (h : DictOk roots n D) {maxCode c : Nat} {bs : List Nat} (hc : c < n) (hn : roots ≤ n)
    (hbs : ∀ b ∈ bs, b < roots) : expandCodes roots (codesFrom maxCode c D n bs) =
      codeString roots (codesFrom maxCode c D n bs).dict (c + 1) c ++ bs := by
  induction bs generalizing c n D with
  | nil => simp [codesFrom, expandCodes]
  | cons b bs ih =>
    obtain ⟨hb, hrest⟩ := List.forall_mem_cons.1 hbs
    rcases codesFrom_branch maxCode c n b D with ⟨a, hfound⟩ | ⟨hnone, hroom⟩ | ⟨hnone, hfull⟩
    · have hmem := mem_of_dictFind hfound
      have ha : a < n := h.below _ hmem
      obtain ⟨⟨m, hok⟩, hkept⟩ := h.codesFrom_dict (maxCode := maxCode) ha hn hrest
      have hkey := (hkept a ha).trans (h.key _ hmem)
      rw [codesFrom_of_found hfound, ih h ha hn hrest, hok.codeString_of_key hkey, List.append_assoc,
        List.singleton_append]
    · have hexpand := ih (h.learn hc hn b) (show b < n + 1 by omega) (by omega) hrest
      rw [codeString_root _ hb] at hexpand
      rw [codesFrom_of_room hnone hroom]
      exact congrArg _ hexpand
    · have hexpand := ih h (hb.trans_le hn) hn hrest
      rw [codeString_root _ hb] at hexpand
      rw [codesFrom_of_exhausted hnone hfull]
      exact congrArg _ hexpand

end DictOk

/-- R106: what the codes of an input stand for is the input. -/
theorem expandCodes_codesBetween {roots firstCode maxCode : Nat} (hfirst : roots ≤ firstCode) {bs : List Nat}
    (hbs : ∀ b ∈ bs, b < roots) : expandCodes roots (codesBetween firstCode maxCode bs) = bs := by
  cases bs with
  | nil => rfl
  | cons b bs =>
    obtain ⟨hb, hrest⟩ := List.forall_mem_cons.1 hbs
    rw [codesBetween, (dictOk_nil roots firstCode).expand_codesFrom (hb.trans_le hfirst) hfirst hrest,
      codeString_root _ hb, List.singleton_append]

/-- A byte without a root in a legal set is refused as such. -/
theorem inputRefusal_byte {P : Params} {bs : List Nat} (hP : P.Legal) (hb : ∃ b ∈ bs, P.roots ≤ b) :
    inputRefusal P bs = some .byteOutsideRoots := by
  obtain ⟨b, hmem, hge⟩ := hb
  have hsome : ¬ bs.all (fun b => decide (b < P.roots)) = true := fun hall =>
    absurd (List.all_eq_true.1 hall b hmem) (by simpa using hge)
  rw [inputRefusal, show P.check = none from hP]
  exact if_neg hsome

/-- Settles O59: the input is recovered by induction over the bytes; the refusals are the check's. -/
theorem codesStandForTheInput : Obligations.CodesStandForTheInput := by
  refine fun P bs => ⟨fun hP hbs => ?_, fun hP => ?_, fun hP hb => ?_, fun ds e he => ?_⟩
  · obtain ⟨-, -, -, -, -, hfirst, -⟩ := P.legal_iff.1 hP
    exact ⟨_, codesOf_ok P bs hP hbs, expandCodes_codesBetween hfirst hbs⟩
  · obtain ⟨e, he⟩ := Option.ne_none_iff_exists'.1 hP
    exact ⟨e, by rw [codesOf, inputRefusal_illegal P bs e he]⟩
  · rw [codesOf, inputRefusal_byte hP hb]
  · rw [compress, he]

end Sys2Proof.Machine

/-! PROOFS. CODES of one repeated byte (43_encoder.md R106): each match is one byte longer than the one before it,
and is learnt when it ends. -/

namespace Sys2Proof.Machine

open Sys2Proof Sys2Proof.Config

/-- The code that stands for `len` copies of the byte `v`, once it is learnt. -/
def runCode (v len : Nat) : Nat := if len = 1 then v else 254 + len

/-- The map after `m` matches: match number `len` ended with the key of `len` copies and one more. -/
def runDict (v : Nat) : Nat → Dict
  | 0 => []
  | m + 1 => ((runCode v (m + 1), v), 256 + m) :: runDict v m

/-- How many bytes after the first one the matches of length `m + 1` to `m + 1 + j` take. -/
def runBytes (m : Nat) : Nat → Nat
  | 0 => m
  | j + 1 => m + 1 + runBytes (m + 1) j

theorem runCode_one (v : Nat) : runCode v 1 = v := if_pos rfl

theorem runCode_add_two (v j : Nat) : runCode v (j + 2) = 256 + j := by
  rw [runCode, if_neg (by omega)]
  omega

theorem two_mul_runBytes (m j : Nat) : 2 * (runBytes m j + 1) + m * (m + 1) = (m + 1 + j) * (m + 2 + j) := by
  induction j generalizing m with
  | zero => rw [runBytes]; ring
  | succ j ih =>
    have hrest := ih (m + 1)
    rw [runBytes]
    nlinarith

theorem one_add_runBytes (j : Nat) : (j + 1) * (j + 1 + 1) / 2 = 1 + runBytes 0 j := by
  have hsum := two_mul_runBytes 0 j
  have hcomm : (0 + 1 + j) * (0 + 2 + j) = (j + 1) * (j + 1 + 1) := by ring
  omega

theorem dictKey_runDict (v : Nat) {j m : Nat} (hj : j < m) :
    dictKey (runDict v m) (256 + j) = some (runCode v (j + 1), v) := by
  induction m with
  | zero => omega
  | succ m ih =>
    rw [runDict, dictKey_cons]
    by_cases hlast : j = m
    · rw [hlast, if_pos rfl]
    · rw [if_neg (by omega), ih (by omega)]

section Run

variable {v : Nat} (hv : v < 256)
include hv

theorem runCode_inj {k m : Nat} (hk : 1 ≤ k) (hm : 1 ≤ m) (h : runCode v k = runCode v m) : k = m := by
  unfold runCode at h
  split at h <;> split at h <;> omega

theorem runCode_lt (m : Nat) : runCode v (m + 1) < 256 + m := by
  unfold runCode
  split <;> omega

/-- In the map of `m` matches `len` copies and one more are a key exactly up to `len = m`. -/
theorem dictFind_runDict {len : Nat} (hlen : 1 ≤ len) (m : Nat) :
    dictFind (runDict v m) (runCode v len) v = if len ≤ m then some (runCode v (len + 1)) else none := by
  induction m with
  | zero => rw [if_neg (by omega)]; rfl
  | succ m ih =>
    rw [runDict, dictFind_cons, ih]
    by_cases hlast : len = m + 1
    · subst hlast
      rw [if_pos ⟨rfl, rfl⟩, if_pos le_rfl, runCode_add_two]
    · have hne : runCode v (m + 1) ≠ runCode v len := fun h => hlast (runCode_inj hv hlen (by omega) h.symm)
      rw [if_neg fun h => hne h.1]
      simp only [show len ≤ m + 1 ↔ len ≤ m by omega]

theorem dictOk_runDict (m : Nat) : DictOk 256 (256 + m) (runDict v m) := by
  induction m with
  | zero => exact dictOk_nil _ _
  | succ m ih => exact ih.learn (runCode_lt hv m) (Nat.le_add_right _ _) v

/-- Within a match every further byte is found. -/
theorem codesFrom_run (maxCode : Nat) {len m : Nat} (hlen : 1 ≤ len) (k : Nat) (hk : len + k ≤ m + 1)
    (rest : List Nat) :
    codesFrom maxCode (runCode v len) (runDict v m) (256 + m) (List.replicate k v ++ rest) =
      codesFrom maxCode (runCode v (len + k)) (runDict v m) (256 + m) rest := by
  induction k generalizing len with
  | zero => rfl
  | succ k ih =>
    have hfound := dictFind_runDict hv hlen m
    rw [if_pos (by omega)] at hfound
    rw [List.replicate_succ, List.cons_append, codesFrom_of_found hfound, ih (by omega) (by omega),
      Nat.add_right_comm, Nat.add_assoc]

/-- The match of `m + 1` copies ends with one more byte, which learns it while a code is left. -/
theorem codesFrom_run_learnt {maxCode m : Nat} (hroom : 256 + m ≤ maxCode) (rest : List Nat) :
    codesFrom maxCode v (runDict v m) (256 + m) (List.replicate (m + 1) v ++ rest) =
      ⟨runCode v (m + 1) :: (codesFrom maxCode v (runDict v (m + 1)) (256 + (m + 1)) rest).codes,
        (codesFrom maxCode v (runDict v (m + 1)) (256 + (m + 1)) rest).dict⟩ := by
  have hrun := codesFrom_run hv maxCode (len := 1) (m := m) le_rfl m (by omega) (v :: rest)
  have hnone := dictFind_runDict hv (len := m + 1) (by omega) m
  rw [runCode_one, Nat.add_comm 1 m] at hrun
  rw [if_neg (by omega)] at hnone
  rw [List.replicate_succ', List.append_assoc, List.singleton_append, hrun, codesFrom_of_room hnone hroom]
  rfl

/-- The matches of length `m + 1` to `m + 1 + j`, while codes are left for all but the last. -/
theorem codesFrom_runs {maxCode m j : Nat} (hroom : 256 + m + j ≤ maxCode + 1) :
    codesFrom maxCode v (runDict v m) (256 + m) (List.replicate (runBytes m j) v) =
      ⟨(List.range (j + 1)).map fun i => runCode v (m + 1 + i), runDict v (m + j)⟩ := by
  induction j generalizing m with
  | zero =>
    have hrun := codesFrom_run hv maxCode (len := 1) (m := m) le_rfl m (by omega) []
    rw [List.append_nil, runCode_one] at hrun
    rw [runBytes, hrun, codesFrom, Nat.add_comm 1 m]
    rfl
  | succ j ih =>
    rw [runBytes, List.replicate_add, codesFrom_run_learnt hv (by omega), ih (by omega),
      List.range_succ_eq_map (n := j + 1), List.map_cons, List.map_map, Nat.add_right_comm m 1 j, Nat.add_assoc m j 1]
    congr 2
    exact List.map_congr_left fun i _ => congrArg (runCode v) (by omega)

/-- A code stands for as many copies as its match has. -/
theorem codeString_runDict {j m : Nat} (hj : j ≤ m) :
    codeString 256 (runDict v m) (runCode v (j + 1) + 1) (runCode v (j + 1)) = List.replicate (j + 1) v := by
  induction j with
  | zero => rw [runCode_one, codeString_root _ hv]; rfl
  | succ j ih =>
    have hkey := dictKey_runDict v (show j < m by omega)
    rw [runCode_add_two, (dictOk_runDict hv m).codeString_of_key hkey, ih (by omega), ← List.replicate_succ']

end Run

/-- Settles O60: `k` matches of the repeated byte, each one byte longer than the one before it. -/
theorem repeatedByteCodesGrow : Obligations.RepeatedByteCodesGrow := by
  intro v k hpos hle
  obtain ⟨k, rfl⟩ := Nat.exists_eq_add_of_le' hpos
  have hv := v.isLt
  have hcodes : codesOf hw (List.replicate ((k + 1) * (k + 1 + 1) / 2) v.toNat) =
      .ok ⟨(List.range (k + 1)).map fun i => runCode v.toNat (0 + 1 + i), runDict v.toNat (0 + k)⟩ := by
    rw [← List.map_replicate, codesOf_hw, List.map_replicate, one_add_runBytes, Nat.add_comm, List.replicate_succ,
      codesBetween, ← codesFrom_runs hv (maxCode := 4094) (by omega)]
    rfl
  refine ⟨_, hcodes, ?_, codeString_root _ hv, fun j hj => ?_⟩
  · rw [List.range_succ_eq_map, List.map_cons, List.map_map, runCode_one]
    exact congrArg _ (List.map_congr_left fun i _ => by
      rw [Function.comp_apply, ← runCode_add_two v.toNat i]
      exact congrArg _ (by omega))
  · have hstring := codeString_runDict hv (j := j + 1) (m := 0 + k) (by omega)
    rwa [runCode_add_two, show 256 + j + 1 = 257 + j by omega] at hstring

end Sys2Proof.Machine

/-! PROOFS. A session depends on nothing before it (43_encoder.md R92, R103): START gives one and the same core, and
what a token or a POP does to the core depends on the core alone. -/

namespace Sys2Proof.Machine

open Sys2Proof Sys2Proof.Config

/-- Two states with the same core, field by field. -/
theorem coreView_eq_iff {s s' : State} : coreView s' = coreView s ↔ s'.phase = s.phase ∧ s'.cur = s.cur ∧
    s'.nextCode = s.nextCode ∧ s'.bitBuffer = s.bitBuffer ∧ s'.pendingBits = s.pendingBits ∧ s'.table = s.table ∧
    s'.outq = s.outq ∧ s'.failCause = s.failCause ∧ s'.sunk = s.sunk := by
  simp only [coreView, CoreView.mk.injEq]

theorem coreView_startSession (s s' : State) : coreView (startSession s') = coreView (startSession s) := rfl

section SameCore

variable {s s' : State} (h : coreView s' = coreView s)
include h

theorem coreView_seedByte (d : Byte) : coreView (seedByte d s') = coreView (seedByte d s) := by
  rw [coreView_eq_iff] at h ⊢
  simp [h]

theorem coreView_extend (e : Entry) (i d : SlotIx) :
    coreView (extend e (setProbe i d s')) = coreView (extend e (setProbe i d s)) := by
  rw [coreView_eq_iff] at h ⊢
  simp [h]

theorem coreView_emit (c : Code) : coreView (emit c s') = coreView (emit c s) := by
  rw [coreView_eq_iff] at h ⊢
  simp [h]

theorem coreView_miss (i : SlotIx) (c : Code) (d : Byte) (stride : SlotIx) :
    coreView (miss i c d (setProbe i stride s')) = coreView (miss i c d (setProbe i stride s)) := by
  rw [coreView_eq_iff] at h ⊢
  simp [h, allocCode]

theorem coreView_finish : coreView (finish s') = coreView (finish s) := by
  rw [coreView_eq_iff] at h ⊢
  simp [h]

theorem exec_byte_coreView {d : Byte} {t : State} (ht : exec (.byte d) s = .next t) :
    ∃ t', exec (.byte d) s' = .next t' ∧ coreView t' = coreView t := by
  have hphase : s'.phase = s.phase := congrArg CoreView.phase h
  have hcur : s'.cur = s.cur := congrArg CoreView.cur h
  have htable : s'.table = s.table := congrArg CoreView.table h
  rcases execByte_next d s t ht with ⟨hp, rfl⟩ | ⟨hp, c, hc, hmatch⟩
  · exact ⟨_, exec_byte_of_seed (hphase.trans hp) d, coreView_seedByte h d⟩
  · rw [exec_byte_of_matching (hphase.trans hp) (hcur.trans hc)]
    obtain ⟨i, hslot, ⟨e, he, rfl⟩ | ⟨hempty, rfl⟩⟩ := matchByte_next c d s t hmatch
    · rw [← htable] at hslot he
      exact ⟨_, matchByte_of_hit hslot he, coreView_extend h e i _⟩
    · rw [← htable] at hslot hempty
      exact ⟨_, matchByte_of_miss hslot hempty, coreView_miss h i c d _⟩

theorem exec_end_coreView {t : State} (ht : exec .endInput s = .next t) :
    ∃ t', exec .endInput s' = .next t' ∧ coreView t' = coreView t := by
  have hphase : s'.phase = s.phase := congrArg CoreView.phase h
  have hcur : s'.cur = s.cur := congrArg CoreView.cur h
  rcases execEnd_next s t ht with ⟨hp, rfl⟩ | ⟨hp, c, hc, rfl⟩
  · exact ⟨_, exec_end_of_seed (hphase.trans hp), coreView_finish h⟩
  · exact ⟨_, exec_end_of_matching (hphase.trans hp) (hcur.trans hc), coreView_finish (coreView_emit h c)⟩

theorem exec_pop_coreView {t : State} (ht : exec .pop s = .next t) :
    ∃ t', exec .pop s' = .next t' ∧ coreView t' = coreView t := by
  obtain ⟨e, q, hq, rfl⟩ := (execPop_next s t).1 ht
  have houtq : s'.outq = s.outq := congrArg CoreView.outq h
  refine ⟨_, exec_pop_of_cons (houtq.trans hq), ?_⟩
  rw [coreView_eq_iff] at h ⊢
  simp [h]

end SameCore

/-- From states with the same core the same tokens and POPs lead to states with the same core. -/
theorem runEvents_coreView {es : List Instr} {s s' t : State} (hes : ∀ i ∈ es, midSession i = true ∨ i = .endInput)
    (h : coreView s' = coreView s) (ht : runEvents es s = .next t) :
    ∃ t', runEvents es s' = .next t' ∧ coreView t' = coreView t := by
  induction es generalizing s s' with
  | nil =>
    obtain rfl : s = t := Host.Outcome.next.inj ht
    exact ⟨s', rfl, h⟩
  | cons i es ih =>
    obtain ⟨hi, hrest⟩ := List.forall_mem_cons.1 hes
    obtain ⟨u, hu, htail⟩ := (andThen_eq_next _ _ _).1 ht
    have hstep : ∃ u', exec i s' = .next u' ∧ coreView u' = coreView u := by
      cases i with
      | byte d => exact exec_byte_coreView h hu
      | endInput => exact exec_end_coreView h hu
      | pop => exact exec_pop_coreView h hu
      | start | fail | reset | hash | stride | next | lookup | insert | tinit | sinit | alloc | pinit | emit | flush =>
        simp [midSession] at hi
    obtain ⟨u', hu', hview⟩ := hstep
    obtain ⟨t', ht', hview'⟩ := ih hrest hview htail
    exact ⟨t', by rw [runEvents_cons, hu', andThen_next, ht'], hview'⟩

theorem runEvents_start {s : State} (h : startEnabled s = true) (es : List Instr) :
    runEvents (.start :: es) s = runEvents es (startSession s) := by
  rw [runEvents_cons, exec_start_of_enabled h, andThen_next]

/-- Settles O55: START gives the same core from either state, and the events after it keep the cores the same. -/
theorem sessionIgnoresThePast : Obligations.SessionIgnoresThePast := by
  intro es s s' t hs hs' hes ht
  rw [runEvents_start hs] at ht
  rw [runEvents_start hs']
  exact runEvents_coreView hes (coreView_startSession s s') ht

end Sys2Proof.Machine

/-! PROOFS. The bytes of a session as a bit stream (42_bit_packer.md R83 to R86, 44_interfaces.md R113): what the sink
has accepted and what is still queued are one byte sequence, whatever POPs have moved between them. -/

namespace Sys2Proof.Machine

open Sys2Proof Sys2Proof.Config

/-- The first `n` bits of the stream `f` have been emitted: their whole bytes are accepted or queued, and the
accumulator holds the bits after them. -/
structure Delivered (f : Nat → Bool) (n : Nat) (s : State) : Prop where
  bitBuffer : s.bitBuffer = (streamed f n s).bitBuffer
  pendingBits : s.pendingBits = (streamed f n s).pendingBits
  bytes : s.sunk ++ s.outq.map OutEntry.byte = streamBytes f (n / 8)

/-- Of the state it says no more than the accumulator, the queue and what is accepted. -/
theorem Delivered.of_eq {f : Nat → Bool} {n : Nat} {s t : State} (h : Delivered f n s)
    (hbuf : t.bitBuffer = s.bitBuffer) (hpending : t.pendingBits = s.pendingBits)
    (hbytes : t.sunk ++ t.outq.map OutEntry.byte = s.sunk ++ s.outq.map OutEntry.byte) : Delivered f n t where
  bitBuffer := hbuf.trans h.bitBuffer
  pendingBits := hpending.trans h.pendingBits
  bytes := hbytes.trans h.bytes

theorem delivered_startSession (f : Nat → Bool) (s : State) : Delivered f 0 (startSession s) := ⟨rfl, rfl, rfl⟩

theorem map_byte_map_mk (bs : List Byte) : (bs.map (OutEntry.mk false)).map OutEntry.byte = bs := by
  rw [List.map_map]
  exact List.map_id bs

/-- What FLUSH pushes (R85). -/
def flushed (buf : BitBuf) (pending : BitCount) : List Byte := if pending = 0#5 then [] else [flushByte buf pending]

theorem flush_outq_bytes (s : State) :
    (flush s).outq.map OutEntry.byte = s.outq.map OutEntry.byte ++ flushed s.bitBuffer s.pendingBits := by
  rw [flush_outq, flushed]
  split
  · rw [List.append_nil]
  · rw [List.map_append]
    rfl

section Delivered

variable {f : Nat → Bool} {n : Nat} {s : State} (h : Delivered f n s)
include h

/-- EMIT of the stream's next 12 bits. -/
theorem Delivered.after_emit {c : Code} (hc : c.toNat = natOfBits f n BITS) : Delivered f (n + BITS) (emit c s) where
  bitBuffer := by
    calc (emit c s).bitBuffer = (emit c (streamed f n s)).bitBuffer := by
          rw [emit_bitBuffer, emit_bitBuffer, ← h.bitBuffer, ← h.pendingBits]
      _ = (streamed f (n + BITS) s).bitBuffer := by rw [emit_streamed hc]
  pendingBits := by
    calc (emit c s).pendingBits = (emit c (streamed f n s)).pendingBits := by
          rw [emit_pendingBits, emit_pendingBits, ← h.bitBuffer, ← h.pendingBits]
      _ = (streamed f (n + BITS) s).pendingBits := by rw [emit_streamed hc]
  bytes := by
    rw [streamBytes_emitDrain hc s, ← h.bitBuffer, ← h.pendingBits, ← h.bytes, emit_sunk, emit_outq, List.map_append,
      map_byte_map_mk, List.append_assoc]

/-- FLUSH at the end of the stream completes its last byte. -/
theorem Delivered.flush_bytes (hf : ∀ k, n ≤ k → f k = false) :
    (flush s).sunk ++ (flush s).outq.map OutEntry.byte = streamBytes f ((n + 7) / 8) := by
  have hpushed := congrArg (fun u => u.outq.map OutEntry.byte) (flush_streamed hf s)
  simp only [flush_outq_bytes, pushBytes_outq, streamed_outq, setAccumulator_outq, List.map_append, map_byte_map_mk,
    List.append_assoc] at hpushed
  rw [flush_sunk, flush_outq_bytes, ← List.append_assoc, h.bytes, h.bitBuffer, h.pendingBits,
    List.append_cancel_left hpushed]

end Delivered

/-! The end of a session. -/

/-- The stream of a session's codes: the sentinel comes after them (R97, R98). -/
def sessionStream (cs : List Nat) : Nat → Bool := streamBit BITS (cs ++ [4095])

/-- EMIT of the next code of the session. -/
theorem Delivered.next_code {cs out todo : List Nat} {s : State} {c : Code}
    (h : Delivered (sessionStream cs) (out.length * BITS) s) (hcs : cs ++ [4095] = out ++ c.toNat :: todo) :
    Delivered (sessionStream cs) ((out ++ [c.toNat]).length * BITS) (emit c s) := by
  have hcode : (cs ++ [4095])[out.length]? = some c.toNat := by rw [hcs]; simp
  have hwindow := natOfBits_streamBit (width := BITS) hcode
  rw [Nat.mod_eq_of_lt c.isLt, Nat.mul_comm] at hwindow
  rw [List.length_append, List.length_singleton, Nat.succ_mul]
  exact h.after_emit hwindow.symm

/-- A session after END and any number of POPs: what is accepted and what is queued are together `z`. -/
structure Finished (z : List Byte) (s : State) : Prop where
  phase : s.phase = .drained
  bytes : s.sunk ++ s.outq.map OutEntry.byte = z
  cause : s.failCause = 0#2

/-- END from the last code on: the sentinel and the flush complete PACK (R97, R98). -/
theorem finished_finish {cs : List Nat} {s : State} (h : Delivered (sessionStream cs) (cs.length * BITS) s)
    (hcause : s.failCause = 0#2) : Finished (pack BITS (cs ++ [4095])) (finish s) := by
  have hsentinel := h.next_code (c := MAX_VALUE) (todo := []) rfl
  have hend (k : Nat) (hk : (cs ++ [MAX_VALUE.toNat]).length * BITS ≤ k) : sessionStream cs k = false :=
    streamBit_of_ge (by decide) hk
  refine ⟨rfl, ?_, (finish_failCause s).trans hcause⟩
  rw [finish_outq, markTail_bytes, finish_sunk]
  have hbytes := hsentinel.flush_bytes hend
  rw [flush_sunk, emit_sunk] at hbytes
  rw [hbytes, pack_eq_streamBytes]
  rfl

/-! POPs. -/

/-- The state after POPs of the whole queue. -/
def popped (s : State) : State := { s with outq := [], sunk := s.sunk ++ s.outq.map OutEntry.byte }

theorem runEvents_pops (q : List OutEntry) {s : State} (hq : s.outq = q) :
    runEvents (List.replicate q.length .pop) s = .next (popped s) := by
  induction q generalizing s with
  | nil =>
    obtain ⟨⟩ := s
    subst hq
    simp [popped]
  | cons e q ih =>
    rw [List.length_cons, List.replicate_succ, runEvents_cons, exec_pop_of_cons hq, andThen_next, ih rfl]
    simp [popped, hq]

theorem runPopAll_eq (s : State) : runPopAll s = .next (popped s) := runEvents_pops s.outq rfl

/-- POPALL completes a finished session: the sink has accepted all of it. -/
theorem Finished.done_popped {z : List Byte} {s : State} (h : Finished z s) :
    done (popped s) = true ∧ (popped s).sunk = z ∧ (popped s).failCause = 0#2 := by
  refine ⟨?_, h.bytes, h.cause⟩
  simp [done, popped, h.phase]

end Sys2Proof.Machine

/-! PROOFS. The encoder computes CODES (43_encoder.md R94 to R96, R101, R102): the table of a session holds R101's map,
and each event does to the session what the recursion does with its byte. -/

namespace Sys2Proof.Machine

open Sys2Proof Sys2Proof.Config

/-! The table as R101's map. -/

/-- The keys of the table and their codes are those of the map. -/
def dictHolds (D : Dict) (t : Table) : Prop :=
  ∀ (p : Code) (b : Byte) (a : Nat), dictFind D p.toNat b.toNat = some a ↔
    ∃ k e, memRead t k = some e ∧ e.prefixCode = some p ∧ e.appendedByte = b ∧ e.assignedCode.toNat = a

/-- A root record holds no key. -/
theorem dictHolds_initialTable : dictHolds [] initialTable := by
  refine fun p b a => iff_of_false nofun ?_
  rintro ⟨k, e, he, hp, -⟩
  obtain ⟨-, rfl⟩ := initialTable_populated k e he
  cases hp

section Dictionary

variable {D : Dict} {s : State} {c : Code} {d : Byte} {i : SlotIx}

theorem dictFind_of_hit (hD : dictHolds D s.table) {e : Entry} (hslot : lookupSlot s.table c d = some i)
    (he : memRead s.table i.toNat = some e) : dictFind D c.toNat d.toNat = some e.assignedCode.toNat := by
  obtain ⟨hp, hb⟩ := lookupSlot_hit_key hslot he
  exact (hD c d _).2 ⟨i.toNat, e, he, hp, hb, rfl⟩

theorem SessionInv.key_absent (h : SessionInv s) (hslot : lookupSlot s.table c d = some i)
    (hempty : memRead s.table i.toNat = none) (k : Nat) (e : Entry) (he : memRead s.table k = some e) :
    ¬ (e.prefixCode = some c ∧ e.appendedByte = d) :=
  key_absent_of_lookupSlot_empty (fun k e he hp => h.onPath k e c he hp) hslot hempty k e he

theorem SessionInv.dictFind_of_miss (h : SessionInv s) (hD : dictHolds D s.table)
    (hslot : lookupSlot s.table c d = some i) (hempty : memRead s.table i.toNat = none) :
    dictFind D c.toNat d.toNat = none := by
  refine Option.eq_none_iff_forall_ne_some.2 fun a ha => ?_
  obtain ⟨k, e, he, hp, hb, -⟩ := (hD c d a).1 ha
  exact h.key_absent hslot hempty k e he ⟨hp, hb⟩

/-- Learning a key in the empty slot of its LOOKUP is R101's `D[(c, b) -> n]`. -/
theorem dictHolds_learn (h : SessionInv s) (hD : dictHolds D s.table)
    (hslot : lookupSlot s.table c d = some i) (hempty : memRead s.table i.toNat = none) :
    dictHolds (((c.toNat, d.toNat), s.nextCode.toNat) :: D) (learn i c d s).table := by
  intro p b a
  have hnew := memRead_learn_self s i c d
  rw [dictFind_cons]
  by_cases hkey : c = p ∧ d = b
  · obtain ⟨rfl, rfl⟩ := hkey
    rw [if_pos ⟨rfl, rfl⟩, Option.some.injEq]
    constructor
    · intro ha
      exact ⟨_, _, hnew, rfl, rfl, ha⟩
    · rintro ⟨k, e, he, hp, hb, ha⟩
      rcases memRead_learn_cases he with ⟨-, rfl⟩ | he
      · exact ha
      · exact absurd ⟨hp, hb⟩ (h.key_absent hslot hempty k e he)
  · rw [if_neg fun hnat => hkey ⟨BitVec.eq_of_toNat_eq hnat.1, BitVec.eq_of_toNat_eq hnat.2⟩, hD p b a]
    constructor
    · rintro ⟨k, e, he, hrest⟩
      exact ⟨k, e, memRead_learn_of_some hempty he, hrest⟩
    · rintro ⟨k, e, he, hp, hb, ha⟩
      rcases memRead_learn_cases he with ⟨-, rfl⟩ | he
      · exact absurd ⟨Option.some.inj hp, hb⟩ hkey
      · exact ⟨k, e, he, hp, hb, ha⟩

end Dictionary

/-! The codes to come. -/

/-- The codes that a session in state `s` has still to emit when the bytes `rest` and END are to come: what R101's
recursion gives from the current code, the map that the table holds and the counter. -/
inductive ToCome (s : State) (rest : List Byte) : List Nat → Prop
  | seed : s.phase = .seed → s.nextCode = FIRST_CODE → dictHolds [] s.table →
      ToCome s rest (hwCodes rest)
  | matching {c : Code} {D : Dict} : s.phase = .matching → s.cur = some c → dictHolds D s.table →
      ToCome s rest (codesFrom 4094 c.toNat D s.nextCode.toNat (rest.map BitVec.toNat)).codes

theorem ToCome.of_eq {s t : State} {rest : List Byte} {todo : List Nat} (h : ToCome s rest todo)
    (hphase : t.phase = s.phase) (hcur : t.cur = s.cur) (hnext : t.nextCode = s.nextCode) (htable : t.table = s.table) :
    ToCome t rest todo := by
  cases h with
  | seed hp hn hD => exact .seed (hphase.trans hp) (hnext.trans hn) (htable ▸ hD)
  | matching hp hc hD => exact hnext ▸ .matching (hphase.trans hp) (hcur.trans hc) (htable ▸ hD)

/-- A session under way whose codes are `cs` when the bytes `rest` and END are to come. -/
structure Encoding (cs : List Nat) (rest : List Byte) (s : State) : Prop where
  session : SessionInv s
  unmarked : noneMarked s.outq = true
  cause : s.failCause = 0#2
  progress : ∃ out todo, cs = out ++ todo ∧ ToCome s rest todo ∧
    Delivered (sessionStream cs) (out.length * BITS) s

theorem encoding_startSession (bs : List Byte) (s : State) :
    Encoding (hwCodes bs) bs (startSession s) where
  session := sessionInv_fresh _ rfl rfl rfl rfl (by simp)
  unmarked := rfl
  cause := rfl
  progress := ⟨[], _, rfl, .seed rfl rfl dictHolds_initialTable, by
    rw [List.length_nil, Nat.zero_mul]
    exact delivered_startSession _ s⟩

section Events

variable {cs : List Nat} {rest : List Byte} {s : State}

theorem Encoding.after_setProbe (h : Encoding cs rest s) (i d : SlotIx) : Encoding cs rest (setProbe i d s) where
  session := h.session.setProbe i d
  unmarked := h.unmarked
  cause := h.cause
  progress := by
    obtain ⟨out, todo, hcs, htodo, hstream⟩ := h.progress
    exact ⟨out, todo, hcs, htodo.of_eq rfl rfl rfl rfl, hstream.of_eq rfl rfl rfl⟩

theorem Encoding.after_pop (h : Encoding cs rest s) {e : OutEntry} {q : List OutEntry} (hq : s.outq = e :: q) :
    Encoding cs rest { s with outq := q, sunk := s.sunk ++ [e.byte] } where
  session := h.session.of_same_dictionary rfl rfl h.session.pending h.session.buffer h.session.cur_lt
  unmarked := noneMarked_tail (hq ▸ h.unmarked)
  cause := h.cause
  progress := by
    obtain ⟨out, todo, hcs, htodo, hstream⟩ := h.progress
    refine ⟨out, todo, hcs, htodo.of_eq rfl rfl rfl rfl, hstream.of_eq rfl rfl ?_⟩
    rw [hq, List.map_cons, List.append_assoc, List.singleton_append]

theorem ToCome.phase {todo : List Nat} (h : ToCome s rest todo) : s.phase = .seed ∨ s.phase = .matching := by
  cases h with
  | seed hp => exact Or.inl hp
  | matching hp => exact Or.inr hp

/-- BYTE in SEED begins R101's recursion. -/
theorem ToCome.after_seedByte {d : Byte} {todo : List Nat} (h : ToCome s (d :: rest) todo) (hp : s.phase = .seed) :
    ToCome (seedByte d s) rest todo := by
  cases h with
  | matching hm => simp [hp] at hm
  | seed _ hn hD =>
    have hcome := ToCome.matching (s := seedByte d s) (rest := rest) rfl rfl hD
    rwa [seedByte_nextCode, hn, toCode_toNat] at hcome

theorem Encoding.after_seedByte {d : Byte} (h : Encoding cs (d :: rest) s) (hp : s.phase = .seed) :
    Encoding cs rest (seedByte d s) where
  session := h.session.of_same_dictionary rfl rfl h.session.pending h.session.buffer fun _ =>
    ⟨d.toCode, rfl, h.session.root_lt (toCode_lt_roots d)⟩
  unmarked := h.unmarked
  cause := h.cause
  progress := by
    obtain ⟨out, todo, hcs, htodo, hstream⟩ := h.progress
    exact ⟨out, todo, hcs, htodo.after_seedByte hp, hstream.of_eq rfl rfl rfl⟩

section Match

variable {c : Code} {d : Byte} {i : SlotIx} (hp : s.phase = .matching) (hcur : s.cur = some c)
  (hslot : lookupSlot s.table c d = some i)
include hp hcur hslot

/-- A hit goes on with the code that R101's map finds (R95). -/
theorem ToCome.after_extend {e : Entry} {todo : List Nat} (h : ToCome s (d :: rest) todo)
    (he : memRead s.table i.toNat = some e) : ToCome (extend e s) rest todo := by
  cases h with
  | seed hs => simp [hp] at hs
  | @matching c' D _ hcur' hD =>
    obtain rfl : c = c' := Option.some.inj (hcur.symm.trans hcur')
    rw [List.map_cons, codesFrom_of_found (dictFind_of_hit hD hslot he)]
    exact .matching (s := extend e s) hp rfl hD

theorem Encoding.after_extend {e : Entry} (h : Encoding cs (d :: rest) s) (he : memRead s.table i.toNat = some e) :
    Encoding cs rest (extend e s) where
  session := h.session.setCur (h.session.assignedCode_lt he)
  unmarked := h.unmarked
  cause := h.cause
  progress := by
    obtain ⟨out, todo, hcs, htodo, hstream⟩ := h.progress
    exact ⟨out, todo, hcs, htodo.after_extend hp hcur hslot he, hstream.of_eq rfl rfl rfl⟩

/-- A miss emits the current code and begins a new match, with the key learnt while a code is left (R96). -/
theorem ToCome.after_miss {todo : List Nat} (hsession : SessionInv s) (h : ToCome s (d :: rest) todo)
    (hempty : memRead s.table i.toNat = none) :
    ∃ todo', todo = c.toNat :: todo' ∧ ToCome (miss i c d s) rest todo' := by
  cases h with
  | seed hs => simp [hp] at hs
  | @matching c' D _ hcur' hD =>
    obtain rfl : c = c' := Option.some.inj (hcur.symm.trans hcur')
    have hnone := hsession.dictFind_of_miss hD hslot hempty
    rw [List.map_cons]
    rcases Nat.lt_or_ge MAX_CODE.toNat s.nextCode.toNat with hfull | hroom
    · rw [codesFrom_of_exhausted (maxCode := 4094) hnone hfull, miss_eq_of_exhausted hfull]
      refine ⟨_, rfl, ?_⟩
      have hcome := ToCome.matching (s := { emit c s with cur := some d.toCode }) (rest := rest) hp rfl hD
      rwa [toCode_toNat] at hcome
    · rw [codesFrom_of_room (maxCode := 4094) hnone hroom, miss_eq_of_room hroom]
      refine ⟨_, rfl, ?_⟩
      have hcome := ToCome.matching (s := { learn i c d (emit c s) with cur := some d.toCode }) (rest := rest)
        (by simpa [learn] using hp) rfl (dictHolds_learn (hsession.emit c) hD hslot hempty)
      have hnext : (learn i c d (emit c s)).nextCode.toNat = s.nextCode.toNat + 1 :=
        learn_nextCode_toNat (s := emit c s) hroom
      rwa [toCode_toNat, hnext] at hcome

theorem Encoding.after_miss (h : Encoding cs (d :: rest) s) (hempty : memRead s.table i.toNat = none) :
    Encoding cs rest (miss i c d s) where
  session := by
    obtain ⟨c', hcur', hlt⟩ := h.session.cur_lt hp
    obtain rfl : c = c' := Option.some.inj (hcur.symm.trans hcur')
    exact h.session.miss hslot hempty hlt
  unmarked := by rw [miss_outq, noneMarked_emit, h.unmarked]
  cause := (miss_failCause i c d s).trans h.cause
  progress := by
    obtain ⟨out, todo, hcs, htodo, hstream⟩ := h.progress
    obtain ⟨todo', rfl, htodo'⟩ := htodo.after_miss hp hcur hslot h.session hempty
    have hnext : cs ++ [4095] = out ++ c.toNat :: (todo' ++ [4095]) := by rw [hcs, List.append_assoc, List.cons_append]
    refine ⟨out ++ [c.toNat], todo', by rw [hcs, List.append_assoc, List.singleton_append], htodo', ?_⟩
    exact (hstream.next_code hnext).of_eq (miss_bitBuffer i c d s) (miss_pendingBits i c d s)
      (by rw [miss_sunk, miss_outq, emit_sunk])

end Match

/-- BYTE completes in a session under way, and leaves it under way. -/
theorem Encoding.exec_byte {d : Byte} (h : Encoding cs (d :: rest) s) :
    ∃ t, exec (.byte d) s = .next t ∧ Encoding cs rest t := by
  obtain ⟨out, todo, -, htodo, -⟩ := h.progress
  rcases htodo.phase with hp | hp
  · exact ⟨_, exec_byte_of_seed hp d, h.after_seedByte hp⟩
  · obtain ⟨c, hcur, -⟩ := h.session.cur_lt hp
    obtain ⟨i, hslot⟩ := exists_lookupSlot_of_hasEmptySlot h.session.hasEmptySlot c d
    have hprobe := h.after_setProbe i (strideOf (homeIndex c d))
    rw [exec_byte_of_matching hp hcur]
    cases hread : memRead s.table i.toNat with
    | some e => exact ⟨_, matchByte_of_hit hslot hread, hprobe.after_extend (s := setProbe i _ s) hp hcur hslot hread⟩
    | none => exact ⟨_, matchByte_of_miss hslot hread, hprobe.after_miss (s := setProbe i _ s) hp hcur hslot hread⟩

/-- END emits the current code, if there is one, which is the last one to come. -/
theorem Encoding.exec_end (h : Encoding cs [] s) :
    ∃ u, exec .endInput s = .next (finish u) ∧ noneMarked u.outq = true ∧ u.failCause = 0#2 ∧
      Delivered (sessionStream cs) (cs.length * BITS) u := by
  obtain ⟨out, todo, hcs, htodo, hstream⟩ := h.progress
  cases htodo with
  | seed hp =>
    obtain rfl : cs = out := by simpa [hwCodes, codesBetween] using hcs
    exact ⟨s, exec_end_of_seed hp, h.unmarked, h.cause, hstream⟩
  | @matching c D hp hcur hD =>
    obtain rfl : cs = out ++ [c.toNat] := hcs
    refine ⟨emit c s, exec_end_of_matching hp hcur, (noneMarked_emit c s).trans h.unmarked, h.cause, ?_⟩
    exact hstream.next_code (List.append_assoc _ _ _)

end Events

/-! Runs of a session. -/

/-- Tokens and POPs keep a session under way. -/
theorem Encoding.after_midSession {cs : List Nat} {es : List Instr} {rest : List Byte} {s t : State}
    (h : Encoding cs (bytesOf es ++ rest) s) (hes : ∀ i ∈ es, midSession i = true) (ht : runEvents es s = .next t) :
    Encoding cs rest t := by
  induction es generalizing s with
  | nil =>
    obtain rfl : s = t := Host.Outcome.next.inj ht
    exact h
  | cons i es ih =>
    obtain ⟨hi, hrest⟩ := List.forall_mem_cons.1 hes
    obtain ⟨u, hu, htail⟩ := (andThen_eq_next _ _ _).1 ht
    refine ih ?_ hrest htail
    cases i with
    | byte d =>
      obtain ⟨u', hu', hnext⟩ := Encoding.exec_byte (d := d) h
      obtain rfl : u' = u := Host.Outcome.next.inj (hu'.symm.trans hu)
      exact hnext
    | pop =>
      obtain ⟨e, q, hq, rfl⟩ := (execPop_next s u).1 hu
      exact Encoding.after_pop h hq
    | endInput | start | fail | reset | hash | stride | next | lookup | insert | tinit | sinit | alloc | pinit | emit
    | flush => cases hi

/-- The bytes of an input are all consumed. -/
theorem Encoding.after_bytes {cs : List Nat} {bs rest : List Byte} {s : State} (h : Encoding cs (bs ++ rest) s) :
    ∃ t, runEvents (bs.map .byte) s = .next t ∧ Encoding cs rest t := by
  induction bs generalizing s with
  | nil => exact ⟨s, rfl, h⟩
  | cons b bs ih =>
    obtain ⟨u, hu, hnext⟩ := Encoding.exec_byte h
    obtain ⟨t, ht, hlast⟩ := ih hnext
    exact ⟨t, by rw [List.map_cons, runEvents_cons, hu, andThen_next, ht], hlast⟩

/-- What END leaves: COMPRESS of the bytes consumed since START, its tail marked. -/
theorem Encoding.exec_end_finished {bs : List Byte} {s : State}
    (h : Encoding (hwCodes bs) [] s) :
    ∃ t z, exec .endInput s = .next t ∧ compress hw bs = .ok z ∧ Finished z t ∧ t.outq ≠ [] ∧
      tailMarked t.outq = true := by
  obtain ⟨u, hu, hmarks, hcause, hstream⟩ := h.exec_end
  refine ⟨finish u, _, hu, compress_eq bs, finished_finish hstream hcause, ?_, tailMarked_finish hmarks⟩
  obtain ⟨q, e, htail⟩ := exists_flush_emit_tail MAX_VALUE u
  rw [finish_of_tail htail]
  exact List.concat_ne_nil _ _

theorem encoding_startSession_append_nil (bs : List Byte) (s : State) :
    Encoding (hwCodes bs) (bs ++ []) (startSession s) := by
  rw [List.append_nil]
  exact encoding_startSession bs s

/-- Settles O54: tokens and POPs keep the session under way, END finishes it, and POPALL completes it. -/
theorem interleavedPopsDoNotMatter : Obligations.InterleavedPopsDoNotMatter := by
  intro es s t hs hes ht
  rw [runEvents_start hs, runEvents_append] at ht
  obtain ⟨u, hu, hend⟩ := (andThen_eq_next _ _ _).1 ht
  rw [runEvents_cons] at hend
  have hbefore := (encoding_startSession_append_nil (bytesOf es) s).after_midSession hes hu
  obtain ⟨t', z, ht', hz, hfinished, hne, hmarks⟩ := hbefore.exec_end_finished
  obtain rfl : t' = t := by
    rw [ht', andThen_next, runEvents_nil] at hend
    exact Host.Outcome.next.inj hend
  obtain ⟨hdone, hsunk, -⟩ := hfinished.done_popped
  exact ⟨by rw [hz, hfinished.bytes], hne, hmarks, popped t', runPopAll_eq t', hdone, by rw [hz, hsunk]⟩

/-- Settles O53: the bytes are consumed, END finishes the session, and POPALL completes it. -/
theorem sessionComputesCompress : Obligations.SessionComputesCompress := by
  intro bs s hs
  obtain ⟨u, hu, hbefore⟩ := (encoding_startSession_append_nil bs s).after_bytes
  obtain ⟨t, z, ht, hz, hfinished, -⟩ := hbefore.exec_end_finished
  have hrun : runEvents (sessionEvents bs) s = .next t := by
    rw [sessionEvents, runEvents_start hs, runEvents_append, hu, andThen_next, runEvents_cons, ht, andThen_next,
      runEvents_nil]
  obtain ⟨hdone, hsunk, hcause⟩ := hfinished.done_popped
  exact ⟨popped t, by rw [runLine, hrun, andThen_next, runPopAll_eq], hdone, by rw [hz, hsunk], hcause⟩

end Sys2Proof.Machine

/-! PROOFS. POP (44_interfaces.md R112) and the tokens: POP takes the head of the queue, a token keeps the head and only
appends behind it, so the two commute (R116). -/

namespace Sys2Proof.Machine

open Sys2Proof Sys2Proof.Config

/-! POP. -/

/-- The marked entry is the tail, so nothing follows it (R113). -/
theorem eq_nil_of_tailMarked_of_last {e : OutEntry} {q : List OutEntry} (h : tailMarked (e :: q) = true)
    (he : e.last = true) : q = [] := by
  cases q with
  | nil => rfl
  | cons f q => simp [tailMarked, he] at h

/-- Only after END is an entry marked (R113). -/
theorem Inv.drained_of_last {s : State} (h : Inv s) {e : OutEntry} {q : List OutEntry} (hq : s.outq = e :: q)
    (he : e.last = true) : s.phase = .drained := by
  cases hp : s.phase with
  | idle => simp [h.queueEmpty (Or.inl hp)] at hq
  | seed => simp [h.queueEmpty (Or.inr (Or.inl hp))] at hq
  | failed => simp [h.queueEmpty (Or.inr (Or.inr hp))] at hq
  | matching =>
    have hopen := h.queueOpen hp
    simp [hq, noneMarked, he] at hopen
  | drained => rfl

theorem done_of_drained {s : State} (hp : s.phase = .drained) (hq : s.outq = []) : done s = true := by
  simp [done, hp, hq]

/-- Settles O36: POP's two branches; a marked head is the tail of a drained session's queue. -/
theorem popDeliversHead : Obligations.PopDeliversHead := by
  refine ⟨fun s e q hq => exec_pop_of_cons hq, fun s hq => exec_pop_of_nil hq, fun s e q hinv hq he => ?_⟩
  have hp : s.phase = .drained := hinv.drained_of_last hq he
  obtain rfl : q = [] := eq_nil_of_tailMarked_of_last (hq ▸ hinv.queueClosed hp) he
  exact ⟨rfl, _, exec_pop_of_cons hq, done_of_drained hp rfl⟩

/-! The head of the queue during a token. -/

/-- A data token or the end marker (R110). -/
def isToken (i : Instr) : Prop := (∃ d, i = .byte d) ∨ i = .endInput

/-- What END's EMIT and FLUSH leave behind the head of the queue: at least one entry, and so END marks another one. -/
theorem exists_flush_emit_behind {s : State} {e : OutEntry} {q : List OutEntry} (hq : s.outq = e :: q) (c : Code) :
    ∃ f r, (flush (emit c s)).outq = e :: f :: r := by
  obtain ⟨f, r, hcons⟩ : ∃ f r, (emit c { s with outq := [] }).outq = f :: r :=
    List.exists_cons_of_ne_nil (emit_outq_ne_nil c { s with outq := [] })
  have hemit : (emit c s).outq = e :: (q ++ f :: r) := by
    rw [← hcons, emit_outq, hq]
    rfl
  obtain ⟨f', r', hbehind⟩ : ∃ f' r', q ++ f :: r = f' :: r' := List.exists_cons_of_ne_nil (by simp)
  rw [flush_outq, hemit, hbehind]
  split
  · exact ⟨f', r', rfl⟩
  · exact ⟨f', _, rfl⟩

theorem finish_keeps_head {s : State} {e : OutEntry} {q : List OutEntry} (hq : s.outq = e :: q) :
    ∃ r, (finish s).outq = e :: r := by
  obtain ⟨f, r, hcons⟩ := exists_flush_emit_behind hq MAX_VALUE
  exact ⟨markTail (f :: r), by rw [finish_outq, hcons, markTail]⟩

theorem emit_keeps_head {s : State} {e : OutEntry} {q : List OutEntry} (hq : s.outq = e :: q) (c : Code) :
    ∃ r, (emit c s).outq = e :: r :=
  ⟨_, by rw [emit_outq, hq, List.cons_append]⟩

/-- A token leaves the head of the queue as it is, its mark included. -/
theorem exec_token_keeps_head {i : Instr} (hi : isToken i) {s t : State} {e : OutEntry} {q : List OutEntry}
    (hq : s.outq = e :: q) (ht : exec i s = .next t) : ∃ r, t.outq = e :: r := by
  rcases hi with ⟨d, rfl⟩ | rfl
  · rcases execByte_next d s t ht with ⟨-, rfl⟩ | ⟨-, c, -, hmatch⟩
    · exact ⟨q, hq⟩
    · obtain ⟨i, -, ⟨e', -, rfl⟩ | ⟨-, rfl⟩⟩ := matchByte_next c d s t hmatch
      · exact ⟨q, hq⟩
      · rw [miss_outq]
        exact emit_keeps_head hq c
  · rcases execEnd_next s t ht with ⟨-, rfl⟩ | ⟨-, c, -, rfl⟩
    · exact finish_keeps_head hq
    · obtain ⟨r, hr⟩ := emit_keeps_head hq c
      exact finish_keeps_head hr

/-! A token on the state that POP leaves. -/

/-- The state after a POP (R112). -/
def deliverHead (s : State) : State :=
  { s with outq := s.outq.tail, sunk := s.sunk ++ (s.outq.take 1).map OutEntry.byte }

theorem exec_pop_eq {s : State} (h : s.outq ≠ []) : exec .pop s = .next (deliverHead s) := by
  obtain ⟨e, q, hq⟩ := List.exists_cons_of_ne_nil h
  rw [exec_pop_of_cons hq, deliverHead, hq]
  rfl

section DeliverHead

variable {s : State} (h : s.outq ≠ [])
include h

/-- What is pushed stands behind the head, so pushing commutes with taking the head. -/
theorem pushBytes_deliverHead (bs : List Byte) : pushBytes bs (deliverHead s) = deliverHead (pushBytes bs s) := by
  obtain ⟨e, q, hq⟩ := List.exists_cons_of_ne_nil h
  simp [pushBytes, deliverHead, hq]

theorem emit_deliverHead (c : Code) : emit c (deliverHead s) = deliverHead (emit c s) :=
  let r := emitDrain s.bitBuffer s.pendingBits c
  pushBytes_deliverHead (s := setAccumulator (BitVec.ofNat 19 r.buf) (BitVec.ofNat 5 r.pending) s) h r.bytes

theorem flush_deliverHead : flush (deliverHead s) = deliverHead (flush s) := by
  by_cases hp : s.pendingBits = 0#5
  · rw [flush_of_none hp, flush_of_none (s := deliverHead s) hp]
    rfl
  · rw [flush_of_some hp, flush_of_some (s := deliverHead s) hp]
    exact congrArg (setAccumulator 0#19 0#5) (pushBytes_deliverHead h _)

theorem finish_deliverHead : finish (deliverHead s) = deliverHead (finish s) := by
  obtain ⟨e, q, hq⟩ := List.exists_cons_of_ne_nil h
  obtain ⟨f, r, hcons⟩ := exists_flush_emit_behind hq MAX_VALUE
  unfold finish
  rw [emit_deliverHead h, flush_deliverHead (emit_outq_ne_nil MAX_VALUE s)]
  generalize flush (emit MAX_VALUE s) = u at hcons ⊢
  simp [deliverHead, hcons, markTail]

theorem miss_deliverHead (i : SlotIx) (c : Code) (d : Byte) :
    miss i c d (deliverHead s) = deliverHead (miss i c d s) := by
  rcases Nat.lt_or_ge MAX_CODE.toNat s.nextCode.toNat with hfull | hroom
  · rw [miss_eq_of_exhausted hfull, miss_eq_of_exhausted (s := deliverHead s) hfull, emit_deliverHead h]
    rfl
  · rw [miss_eq_of_room hroom, miss_eq_of_room (s := deliverHead s) hroom, emit_deliverHead h, learn, learn,
      allocStep_of_room (s := emit c s) hroom, allocStep_of_room (s := deliverHead (emit c s)) hroom]
    rfl

theorem matchByte_deliverHead (c : Code) (d : Byte) :
    matchByte c d (deliverHead s) = andThen (matchByte c d s) fun t => .next (deliverHead t) := by
  cases hslot : lookupSlot s.table c d with
  | none => simp [matchByte, lookup, deliverHead, hslot]
  | some i =>
    cases hread : memRead s.table i.toNat with
    | some e =>
      rw [matchByte_of_hit hslot hread, matchByte_of_hit (s := deliverHead s) hslot hread]
      rfl
    | none =>
      rw [matchByte_of_miss hslot hread, matchByte_of_miss (s := deliverHead s) hslot hread, andThen_next]
      exact congrArg Host.Outcome.next (miss_deliverHead (s := setProbe i _ s) h i c d)

theorem exec_byte_deliverHead (d : Byte) :
    exec (.byte d) (deliverHead s) = andThen (exec (.byte d) s) fun t => .next (deliverHead t) := by
  by_cases hon : tokenEnabled s = true
  · rcases (tokenEnabled_iff s).1 hon with hp | hp
    · rw [exec_byte_of_seed hp, exec_byte_of_seed (s := deliverHead s) hp]
      rfl
    · cases hcur : s.cur with
      | none => simp [exec, execByte, deliverHead, hp, hcur]
      | some c =>
        rw [exec_byte_of_matching hp hcur, exec_byte_of_matching (s := deliverHead s) hp hcur]
        exact matchByte_deliverHead h c d
  · have hoff : tokenEnabled s = false := Bool.eq_false_iff.2 hon
    rw [exec_byte_of_disabled hoff, exec_byte_of_disabled (s := deliverHead s) hoff]
    rfl

theorem exec_end_deliverHead :
    exec .endInput (deliverHead s) = andThen (exec .endInput s) fun t => .next (deliverHead t) := by
  by_cases hon : tokenEnabled s = true
  · rcases (tokenEnabled_iff s).1 hon with hp | hp
    · rw [exec_end_of_seed hp, exec_end_of_seed (s := deliverHead s) hp, finish_deliverHead h, andThen_next]
    · cases hcur : s.cur with
      | none => simp [exec, execEnd, deliverHead, hp, hcur]
      | some c =>
        rw [exec_end_of_matching hp hcur, exec_end_of_matching (s := deliverHead s) hp hcur, emit_deliverHead h,
          finish_deliverHead (emit_outq_ne_nil c s), andThen_next]
  · have hoff : tokenEnabled s = false := Bool.eq_false_iff.2 hon
    rw [exec_end_of_disabled hoff, exec_end_of_disabled (s := deliverHead s) hoff]
    rfl

/-- A token does to the state after a POP what it does before it, the stops included. -/
theorem exec_token_deliverHead {i : Instr} (hi : isToken i) :
    exec i (deliverHead s) = andThen (exec i s) fun t => .next (deliverHead t) := by
  rcases hi with ⟨d, rfl⟩ | rfl
  · exact exec_byte_deliverHead h d
  · exact exec_end_deliverHead h

end DeliverHead

/-- Settles O43: after the token the head is still there, so the POP takes the same byte before it or after it. -/
theorem tokenAndPopCommute : Obligations.TokenAndPopCommute := by
  intro i s hi hq
  rw [exec_pop_eq hq, andThen_next, exec_token_deliverHead hq hi]
  cases ht : exec i s with
  | next t =>
    obtain ⟨e, q, hcons⟩ := List.exists_cons_of_ne_nil hq
    obtain ⟨r, hr⟩ := exec_token_keeps_head hi hcons ht
    rw [andThen_next, andThen_next, exec_pop_eq (by simp [hr])]
  | fault | refused => rfl

end Sys2Proof.Machine

/-! PROOFS. One clock edge (44_interfaces.md R108 to R111): which events it brings, what the ready and valid signals say
of the state, and that under the invariant the edge completes. -/

namespace Sys2Proof.Machine

open Sys2Proof Sys2Proof.Config

/-! What the ready and valid signals say. -/

theorem startReady_iff (s : State) : startReady s = true ↔ startEnabled s = true ∧ s.startStall = 0 := by
  simp [startReady]

theorem inReady_iff (s : State) :
    inReady s = true ↔ tokenEnabled s = true ∧ s.inStall = 0 ∧ (s.outq = [] ∨ s.inGate = true) := by
  simp [inReady, and_assoc]

theorem outValid_iff (s : State) : outValid s = true ↔ s.outq ≠ [] ∧ s.outStall = 0 := by
  simp [outValid, popEnabled]

theorem tokenEnabled_of_inReady {s : State} (h : inReady s = true) : tokenEnabled s = true :=
  ((inReady_iff s).1 h).1

theorem outq_ne_nil_of_outValid {s : State} (h : outValid s = true) : s.outq ≠ [] :=
  ((outValid_iff s).1 h).1

/-- A phase is not both one that START leaves and one that takes tokens. -/
theorem tokenEnabled_of_startEnabled {s : State} (h : startEnabled s = true) : tokenEnabled s = false := by
  rcases (startEnabled_iff s).1 h with hp | hp | ⟨hp, -⟩ <;> simp [tokenEnabled, hp]

theorem startReady_of_tokenEnabled {s : State} (h : tokenEnabled s = true) : startReady s = false :=
  Bool.eq_false_iff.2 fun hready =>
    Bool.false_ne_true ((tokenEnabled_of_startEnabled ((startReady_iff s).1 hready).1).symm.trans h)

theorem Inv.outq_eq_nil_of_startEnabled {s : State} (h : Inv s) (hon : startEnabled s = true) : s.outq = [] := by
  rcases (startEnabled_iff s).1 hon with hp | hp | ⟨-, hq⟩
  · exact h.queueEmpty (Or.inl hp)
  · exact h.queueEmpty (Or.inr (Or.inr hp))
  · exact hq

/-- Under the invariant `start_ready` excludes the other two. -/
theorem Inv.others_low_of_startReady {s : State} (h : Inv s) (hready : startReady s = true) :
    inReady s = false ∧ outValid s = false := by
  have hon : startEnabled s = true := ((startReady_iff s).1 hready).1
  refine ⟨?_, Bool.eq_false_iff.2 fun hvalid => outq_ne_nil_of_outValid hvalid (h.outq_eq_nil_of_startEnabled hon)⟩
  simp [inReady, tokenEnabled_of_startEnabled hon]

theorem Inv.startReady_of_outValid {s : State} (h : Inv s) (hvalid : outValid s = true) : startReady s = false :=
  Bool.eq_false_iff.2 fun hready => by simp [(h.others_low_of_startReady hready).2] at hvalid

theorem outValid_of_stalled {s : State} (h : s.outStall ≠ 0) : outValid s = false :=
  Bool.eq_false_iff.2 fun hvalid => h ((outValid_iff s).1 hvalid).2

/-- While a byte is offered the output ports show it (R111). -/
theorem portsOut_of_outValid {s : State} {e : OutEntry} {q : List OutEntry} (hvalid : outValid s = true)
    (hq : s.outq = e :: q) : (portsOut s).outData = e.byte ∧ (portsOut s).outLast = e.last := by
  simp [portsOut, hq, hvalid]

/-- Settles O41: each signal's definition begins with where its event is enabled. -/
theorem readySignalsMeanEnabled : Obligations.ReadySignalsMeanEnabled := by
  refine fun s => ⟨fun h => (startEnabled_iff s).1 ((startReady_iff s).1 h).1,
    fun h => (tokenEnabled_iff s).1 (tokenEnabled_of_inReady h), fun h => ?_, Inv.others_low_of_startReady⟩
  obtain ⟨e, q, hq⟩ := List.exists_cons_of_ne_nil (outq_ne_nil_of_outValid h)
  exact ⟨e, q, hq, portsOut_of_outValid h hq⟩

/-! The events of an edge. -/

/-- Neither RESET nor a FAIL that is taken happens on the edge (R108). -/
def undisturbed (p : PortsIn) (s : State) : Prop :=
  p.rst = false ∧ (busy s = true → p.inFail = false ∧ p.outFail = false)

section EdgeEvents

variable {p : PortsIn} {s : State}

theorem edgeEvents_of_rst (h : p.rst = true) : edgeEvents p s = [.reset] := by
  simp [edgeEvents, h]

theorem edgeEvents_of_fail (hrst : p.rst = false) (hbusy : busy s = true) (hfail : p.inFail = true ∨ p.outFail = true) :
    edgeEvents p s = [.fail (failPins p.inFail p.outFail)] := by
  simp [edgeEvents, hrst, hbusy, hfail]

theorem edgeEvents_of_undisturbed (h : undisturbed p s) :
    edgeEvents p s = (if p.start && startReady s then [.start] else []) ++
      (if outValid s && p.outReady then [.pop] else []) ++ (if p.inValid && inReady s then [tokenOf p] else []) := by
  obtain ⟨hrst, hfail⟩ := h
  have hnone : (busy s && (p.inFail || p.outFail)) = false := by
    cases hb : busy s with
    | false => rfl
    | true => simp [hfail hb]
  simp [edgeEvents, hrst, hnone]

theorem Inv.edgeEvents_of_start (hinv : Inv s) (h : undisturbed p s) (hstart : p.start = true)
    (hready : startReady s = true) : edgeEvents p s = [.start] := by
  obtain ⟨hin, hout⟩ := hinv.others_low_of_startReady hready
  simp [edgeEvents_of_undisturbed h, hstart, hready, hin, hout]

theorem edgeEvents_of_token (h : undisturbed p s) (hin : p.inValid = true) (hready : inReady s = true)
    (hout : outValid s = false ∨ p.outReady = false) : edgeEvents p s = [tokenOf p] := by
  have hstart : startReady s = false := startReady_of_tokenEnabled (tokenEnabled_of_inReady hready)
  rcases hout with hout | hout <;> simp [edgeEvents_of_undisturbed h, hin, hready, hstart, hout]

theorem edgeEvents_of_pop (h : undisturbed p s) (hstart : startReady s = false) (hvalid : outValid s = true)
    (hout : p.outReady = true) (hin : p.inValid = false ∨ inReady s = false) : edgeEvents p s = [.pop] := by
  rcases hin with hin | hin <;> simp [edgeEvents_of_undisturbed h, hvalid, hout, hstart, hin]

theorem edgeEvents_of_both (h : undisturbed p s) (hin : p.inValid = true) (hready : inReady s = true)
    (hvalid : outValid s = true) (hout : p.outReady = true) : edgeEvents p s = [.pop, tokenOf p] := by
  have hstart : startReady s = false := startReady_of_tokenEnabled (tokenEnabled_of_inReady hready)
  simp [edgeEvents_of_undisturbed h, hin, hready, hvalid, hout, hstart]

theorem edgeEvents_of_none (h : undisturbed p s) (hstart : p.start = true → startReady s = false)
    (hin : p.inValid = true → inReady s = false) (hout : p.outReady = true → outValid s = false) :
    edgeEvents p s = [] := by
  have hoffer : outValid s = true → p.outReady = false := fun h => by
    simpa using mt hout (by simp [h])
  simpa [edgeEvents_of_undisturbed h] using ⟨hstart, hoffer, hin⟩

/-- The causes merged: bit 0 is `in_fail`, bit 1 `out_fail` (R108, R123). -/
theorem failPins_bits {inFail outFail : Bool} (h : inFail = true ∨ outFail = true) :
    (failPins inFail outFail).bits.getLsbD 0 = inFail ∧ (failPins inFail outFail).bits.getLsbD 1 = outFail := by
  revert inFail outFail
  decide

theorem isToken_tokenOf (p : PortsIn) : isToken (tokenOf p) := by
  unfold tokenOf isToken
  split
  · exact Or.inr rfl
  · exact Or.inl ⟨_, rfl⟩

end EdgeEvents

/-! The edge by its events. -/

section Edge

variable {p : PortsIn} {s u : State}

theorem edge_of_runEvents (h : runEvents (edgeEvents p s) s = .next u) :
    edge p s = .next (tick (edgeEvents p s) s u) := by
  rw [edge, h, andThen_next]

/-- The edge's own part leaves the core as its events left it. -/
theorem exists_edge_of_runEvents (h : runEvents (edgeEvents p s) s = .next u) :
    ∃ t, edge p s = .next t ∧ coreView t = coreView u :=
  ⟨_, edge_of_runEvents h, rfl⟩

theorem exists_edge_of_event {i : Instr} (hev : edgeEvents p s = [i]) (hu : exec i s = .next u) :
    ∃ t u, exec i s = .next u ∧ edge p s = .next t ∧ coreView t = coreView u := by
  obtain ⟨t, ht, hview⟩ := exists_edge_of_runEvents (p := p) (s := s) (u := u)
    (by rw [hev, runEvents_cons, hu, andThen_next, runEvents_nil])
  exact ⟨t, u, hu, ht, hview⟩

theorem edge_of_no_event (hev : edgeEvents p s = []) : edge p s = .next (tick [] s s) := by
  rw [edge, hev, runEvents_nil, andThen_next]

end Edge

/-! What is handshaken completes. -/

theorem Inv.exists_exec_token {s : State} (h : Inv s) (hon : tokenEnabled s = true) {i : Instr} (hi : isToken i) :
    ∃ t, exec i s = .next t := by
  rcases hi with ⟨d, rfl⟩ | rfl
  · exact h.exists_next rfl (by simp [phaseAfter_byte, hon])
  · exact h.exists_next rfl (by simp [phaseAfter_end, hon])

/-- Settles O40: RESET alone, FAIL alone, or the handshakes, whose events are enabled where their signals are high. -/
theorem edgePriority : Obligations.EdgePriority := by
  intro p s
  refine ⟨fun hrst => exists_edge_of_event (edgeEvents_of_rst hrst) rfl, fun hrst hbusy hfail => ?_,
    fun hrst hfail => ?_⟩
  · obtain ⟨hin, hout⟩ := failPins_bits hfail
    obtain ⟨t, u, hu, ht, hview⟩ := exists_edge_of_event (edgeEvents_of_fail hrst hbusy hfail)
      ((execFail_next _ s _).2 rfl)
    exact ⟨_, t, u, hin, hout, hu, ht, hview⟩
  · have hp : undisturbed p s := ⟨hrst, hfail⟩
    refine ⟨fun hinv hstart hready => ?_, fun hinv hin hready hout => ?_, fun hinv hvalid hout hin => ?_,
      fun hinv hin hready hvalid hout => ?_, fun hstart hin hout => ?_⟩
    · exact exists_edge_of_event (hinv.edgeEvents_of_start hp hstart hready)
        (exec_start_of_enabled ((startReady_iff s).1 hready).1)
    · obtain ⟨u, hu⟩ := hinv.exists_exec_token (tokenEnabled_of_inReady hready) (isToken_tokenOf p)
      exact exists_edge_of_event (edgeEvents_of_token hp hin hready hout) hu
    · exact exists_edge_of_event (edgeEvents_of_pop hp (hinv.startReady_of_outValid hvalid) hvalid hout hin)
        (exec_pop_eq (outq_ne_nil_of_outValid hvalid))
    · have hpop := exec_pop_eq (outq_ne_nil_of_outValid hvalid)
      have hon : tokenEnabled (deliverHead s) = true := tokenEnabled_of_inReady (s := s) hready
      obtain ⟨v, hv⟩ := (hinv.exec_event rfl hpop).exists_exec_token hon (isToken_tokenOf p)
      obtain ⟨t, ht, hview⟩ := exists_edge_of_runEvents (p := p) (s := s) (u := v) (by
        rw [edgeEvents_of_both hp hin hready hvalid hout, runEvents_cons, hpop, andThen_next, runEvents_cons, hv,
          andThen_next, runEvents_nil])
      exact ⟨t, _, v, hpop, hv, ht, hview⟩
    · exact ⟨_, edge_of_no_event (edgeEvents_of_none hp hstart hin hout), rfl, rfl, rfl⟩

/-- Settles O50: every edge is one of those that R108 lists, and each of them completes. -/
theorem edgeAlwaysCompletes : Obligations.EdgeAlwaysCompletes := by
  intro p s hinv
  obtain ⟨hreset, hfailed, hshake⟩ := edgePriority p s
  cases hrst : p.rst with
  | true =>
    obtain ⟨t, -, -, ht, -⟩ := hreset hrst
    exact ⟨t, ht⟩
  | false =>
    by_cases hfail : busy s = true ∧ (p.inFail = true ∨ p.outFail = true)
    · obtain ⟨-, t, -, -, -, -, ht, -⟩ := hfailed hrst hfail.1 hfail.2
      exact ⟨t, ht⟩
    obtain ⟨hstart, htoken, hpop, hboth, hnone⟩ := hshake hrst (by simpa [not_or] using hfail)
    by_cases h1 : p.start = true ∧ startReady s = true
    · obtain ⟨t, -, -, ht, -⟩ := hstart hinv h1.1 h1.2
      exact ⟨t, ht⟩
    by_cases h2 : p.inValid = true ∧ inReady s = true <;> by_cases h3 : outValid s = true ∧ p.outReady = true
    · obtain ⟨t, -, -, -, -, ht, -⟩ := hboth hinv h2.1 h2.2 h3.1 h3.2
      exact ⟨t, ht⟩
    · obtain ⟨t, -, -, ht, -⟩ := htoken hinv h2.1 h2.2 (by simpa only [not_and_or, Bool.not_eq_true] using h3)
      exact ⟨t, ht⟩
    · obtain ⟨t, -, -, ht, -⟩ := hpop hinv h3.1 h3.2 (by simpa only [not_and_or, Bool.not_eq_true] using h2)
      exact ⟨t, ht⟩
    · obtain ⟨t, ht, -⟩ := hnone (by simpa using h1) (by simpa using h2)
        fun ho => Bool.eq_false_iff.2 fun hv => h3 ⟨hv, ho⟩
      exact ⟨t, ht⟩

end Sys2Proof.Machine

/-! PROOFS. What an edge leaves of the offered byte (44_interfaces.md R111) and of the status outputs (R114). -/

namespace Sys2Proof.Machine

open Sys2Proof Sys2Proof.Config

/-! The offered byte. -/

theorem edge_next {p : PortsIn} {s t : State} (h : edge p s = .next t) :
    ∃ u, runEvents (edgeEvents p s) s = .next u ∧ t = tick (edgeEvents p s) s u := by
  obtain ⟨u, hu, htick⟩ := (andThen_eq_next _ _ _).1 h
  exact ⟨u, hu, (Host.Outcome.next.inj htick).symm⟩

theorem endsOffer_tokenOf (p : PortsIn) : endsOffer (tokenOf p) = false := by
  unfold tokenOf
  split <;> rfl

theorem outValid_tick {evs : List Instr} {s u : State} (hvalid : outValid s = true) (hevs : evs.any endsOffer = false)
    (hq : u.outq ≠ []) : outValid (tick evs s u) = true :=
  (outValid_iff _).2 ⟨hq, by simp [hvalid, hevs]⟩

/-- The offer stays when the events of the edge keep the head of the queue and end no offer. -/
theorem portsOut_tick_of_head {evs : List Instr} {s u : State} (hvalid : outValid s = true)
    (hevs : evs.any endsOffer = false) {e : OutEntry} {q r : List OutEntry} (hs : s.outq = e :: q)
    (hu : u.outq = e :: r) :
    outValid (tick evs s u) = true ∧ (portsOut (tick evs s u)).outData = (portsOut s).outData ∧
      (portsOut (tick evs s u)).outLast = (portsOut s).outLast := by
  have hstays : outValid (tick evs s u) = true := outValid_tick hvalid hevs (by simp [hu])
  obtain ⟨hdata, hlast⟩ := portsOut_of_outValid hvalid hs
  obtain ⟨hdata', hlast'⟩ := portsOut_of_outValid hstays (show (tick evs s u).outq = e :: r from hu)
  exact ⟨hstays, hdata'.trans hdata.symm, hlast'.trans hlast.symm⟩

/-- Settles O42: START is not ready beside an offered byte, and a token on the edge keeps the head of the queue. -/
theorem offeredByteStays : Obligations.OfferedByteStays := by
  intro p s t hinv hvalid ht hrst hout hinFail houtFail
  have hp : undisturbed p s := ⟨hrst, fun _ => ⟨hinFail, houtFail⟩⟩
  obtain ⟨e, q, hq⟩ := List.exists_cons_of_ne_nil (outq_ne_nil_of_outValid hvalid)
  obtain ⟨u, hu, rfl⟩ := edge_next ht
  by_cases hin : p.inValid = true ∧ inReady s = true
  · rw [edgeEvents_of_token hp hin.1 hin.2 (Or.inr hout)] at hu ⊢
    obtain ⟨v, hv, hend⟩ := (andThen_eq_next _ _ _).1 hu
    obtain rfl : v = u := Host.Outcome.next.inj hend
    obtain ⟨r, hr⟩ := exec_token_keeps_head (isToken_tokenOf p) hq hv
    exact portsOut_tick_of_head hvalid (by simp [endsOffer_tokenOf]) hq hr
  · have hstart : startReady s = false := hinv.startReady_of_outValid hvalid
    rw [edgeEvents_of_none hp (fun _ => hstart) (by simpa using hin) (by simp [hout])] at hu ⊢
    obtain rfl : s = u := Host.Outcome.next.inj hu
    exact portsOut_tick_of_head hvalid rfl hq hq

/-! The status outputs. -/

theorem busy_iff (s : State) :
    busy s = true ↔ s.phase = .seed ∨ s.phase = .matching ∨ (s.phase = .drained ∧ s.outq ≠ []) := by
  unfold busy
  cases s.phase <;> simp

theorem done_iff (s : State) : done s = true ↔ s.phase = .drained ∧ s.outq = [] := by
  unfold done
  cases s.phase <;> simp

theorem failed_iff (s : State) : failed s = true ↔ s.phase = .failed := by
  unfold failed
  cases s.phase <;> simp

theorem dictFull_iff (s : State) : dictFull s = true ↔
    (s.phase = .seed ∨ s.phase = .matching ∨ s.phase = .drained) ∧ s.nextCode.toNat > 4094 := by
  unfold dictFull codesExhausted
  cases s.phase <;> simp

theorem status_of_idle {s : State} (hp : s.phase = .idle) : busy s = false ∧ done s = false ∧ failed s = false := by
  simp [busy, done, failed, hp]

/-- In DRAINED the queue decides between `busy` and `done`; the other phases decide alone. -/
theorem status_exactly_one {s : State} (hp : s.phase ≠ .idle) :
    (busy s).toNat + (done s).toNat + (failed s).toNat = 1 := by
  cases hphase : s.phase with
  | idle => exact absurd hphase hp
  | seed | matching | failed => simp [busy, done, failed, hphase]
  | drained => cases hq : s.outq.isEmpty <;> simp [busy, done, failed, hphase, hq]

/-- Settles O44: each output by the phase; an edge without an event leaves the phase, the queue, the counter and the
cause. -/
theorem statusOutputs : Obligations.StatusOutputs := fun s =>
  ⟨busy_iff s, done_iff s, failed_iff s, rfl, dictFull_iff s, status_of_idle, status_exactly_one,
    fun _ hev => ⟨_, edge_of_no_event hev, rfl, rfl, rfl, rfl, rfl⟩⟩

end Sys2Proof.Machine

/-! PROOFS. The ready and valid signals rise (44_interfaces.md R115): each edge on which one is held low counts its
stall down, and a ready sink empties the queue in front of `in_ready`. -/

namespace Sys2Proof.Machine

open Sys2Proof Sys2Proof.Config

/-! Idle edges. -/

theorem edge_idleEdge (s : State) : edge idleEdge s = .next (tick [] s s) :=
  edge_of_no_event (edgeEvents_of_none ⟨rfl, fun _ => ⟨rfl, rfl⟩⟩ nofun nofun nofun)

theorem countDown_of_pos {n : Nat} (h : n ≠ 0) (f : Nat) : countDown f n = n - 1 := by
  cases n with
  | zero => exact absurd rfl h
  | succ n => rfl

theorem outStall_tick_of_invalid {evs : List Instr} {s u : State} (hvalid : outValid s = false) :
    (tick evs s u).outStall = countDown (freeOutStall u.freeIx) s.outStall := by
  simp [hvalid]

/-- `n` idle edges count each stall down that is at least `n`, and leave the core. -/
theorem exists_edges_idle (n : Nat) (s : State) : ∃ t, edges idleEdge n s = .next t ∧ coreView t = coreView s ∧
    (n ≤ s.startStall → t.startStall + n = s.startStall) ∧ (n ≤ s.inStall → t.inStall + n = s.inStall) ∧
    (n ≤ s.outStall → t.outStall + n = s.outStall) := by
  induction n generalizing s with
  | zero => exact ⟨s, rfl, rfl, fun _ => rfl, fun _ => rfl, fun _ => rfl⟩
  | succ n ih =>
    obtain ⟨t, ht, hview, hstart, hin, hout⟩ := ih (tick [] s s)
    refine ⟨t, by rw [edges, edge_idleEdge, andThen_next, ht], hview, fun h => ?_, fun h => ?_, fun h => ?_⟩
    · rw [tick_startStall, countDown_of_pos (by omega)] at hstart
      omega
    · rw [tick_inStall, countDown_of_pos (by omega)] at hin
      omega
    · rw [outStall_tick_of_invalid (outValid_of_stalled (by omega)), countDown_of_pos (by omega)] at hout
      omega

theorem startReady_eventually {s : State} (h : startEnabled s = true) :
    ∃ n t, edges idleEdge n s = .next t ∧ startReady t = true ∧ coreView t = coreView s := by
  obtain ⟨t, ht, hview, hstall, -, -⟩ := exists_edges_idle s.startStall s
  have hphase : t.phase = s.phase := congrArg CoreView.phase hview
  have hq : t.outq = s.outq := congrArg CoreView.outq hview
  refine ⟨_, t, ht, (startReady_iff t).2 ⟨?_, by simpa using hstall le_rfl⟩, hview⟩
  rwa [startEnabled_iff, hphase, hq, ← startEnabled_iff]

theorem outValid_eventually {s : State} (h : s.outq ≠ []) :
    ∃ n t, edges idleEdge n s = .next t ∧ outValid t = true ∧ coreView t = coreView s := by
  obtain ⟨t, ht, hview, -, -, hstall⟩ := exists_edges_idle s.outStall s
  have hq : t.outq = s.outq := congrArg CoreView.outq hview
  exact ⟨_, t, ht, (outValid_iff t).2 ⟨hq ▸ h, by simpa using hstall le_rfl⟩, hview⟩

theorem inReady_eventually_of_empty {s : State} (h : tokenEnabled s = true) (hq : s.outq = []) :
    ∃ n t, edges idleEdge n s = .next t ∧ inReady t = true ∧ coreView t = coreView s := by
  obtain ⟨t, ht, hview, -, hstall, -⟩ := exists_edges_idle s.inStall s
  have hphase : t.phase = s.phase := congrArg CoreView.phase hview
  have hq' : t.outq = s.outq := congrArg CoreView.outq hview
  refine ⟨_, t, ht, (inReady_iff t).2 ⟨?_, by simpa using hstall le_rfl, Or.inl (hq'.trans hq)⟩, hview⟩
  rwa [tokenEnabled_iff, hphase, ← tokenEnabled_iff]

/-! Edges of any environment whose sink keeps taking bytes. -/

/-- The environment neither resets nor fails the session, and its sink is ready again and again (R115). -/
def keepsTaking (p : Nat → PortsIn) : Prop :=
  (∀ k, (p k).rst = false ∧ (p k).inFail = false ∧ (p k).outFail = false) ∧ ∀ k, ∃ j, k ≤ j ∧ (p j).outReady = true

theorem keepsTaking.shift {p : Nat → PortsIn} (h : keepsTaking p) : keepsTaking fun k => p (k + 1) := by
  refine ⟨fun k => h.1 (k + 1), fun k => ?_⟩
  obtain ⟨j, hj, hready⟩ := h.2 (k + 1)
  obtain ⟨i, rfl⟩ := Nat.exists_eq_add_of_le hj
  rw [Nat.add_right_comm] at hready
  exact ⟨k + i, Nat.le_add_right k i, hready⟩

theorem keepsTaking.undisturbed {p : Nat → PortsIn} (h : keepsTaking p) (k : Nat) (s : State) : undisturbed (p k) s :=
  ⟨(h.1 k).1, fun _ => (h.1 k).2⟩

/-- From `s` to `t` the bytes `taken` have gone from the head of the queue to the sink, and nothing else of the core has
changed. -/
def onlyTaken (taken : List OutEntry) (s t : State) : Prop :=
  s.outq = taken ++ t.outq ∧
    coreView t = { coreView s with outq := t.outq, sunk := s.sunk ++ taken.map OutEntry.byte }

theorem onlyTaken_nil {s t : State} (h : coreView t = coreView s) : onlyTaken [] s t := by
  rw [coreView_eq_iff] at h
  simp [onlyTaken, coreView, h]

theorem onlyTaken.trans {a b : List OutEntry} {s t u : State} (h : onlyTaken a s t) (h' : onlyTaken b t u) :
    onlyTaken (a ++ b) s u := by
  obtain ⟨hq, hview⟩ := h
  obtain ⟨hq', hview'⟩ := h'
  have hsunk : t.sunk = s.sunk ++ a.map OutEntry.byte := congrArg CoreView.sunk hview
  refine ⟨by rw [hq, hq', List.append_assoc], ?_⟩
  rw [hview', hview, hsunk, List.map_append, List.append_assoc]

theorem onlyTaken_deliverHead {s : State} {e : OutEntry} {q : List OutEntry} (hq : s.outq = e :: q) :
    onlyTaken [e] s (deliverHead s) := by
  simp [onlyTaken, coreView, deliverHead, hq]

/-- Within finitely many edges `in_ready` is high, and until then bytes have only gone to the sink. -/
def inReadyEventually (p : Nat → PortsIn) (s : State) : Prop :=
  ∃ n t taken, edgesOf p n s = .next t ∧ inReady t = true ∧ onlyTaken taken s t

theorem inReadyEventually.of_edge {p : Nat → PortsIn} {s u : State} {taken : List OutEntry}
    (hu : edge (p 0) s = .next u) (htaken : onlyTaken taken s u) (h : inReadyEventually (fun k => p (k + 1)) u) :
    inReadyEventually p s := by
  obtain ⟨n, t, taken', ht, hready, htaken'⟩ := h
  exact ⟨n + 1, t, taken ++ taken', by rw [edgesOf, hu, andThen_next, ht], hready, htaken.trans htaken'⟩

theorem inReadyEventually.of_ready {p : Nat → PortsIn} {s : State} (h : inReady s = true) : inReadyEventually p s :=
  ⟨0, s, [], rfl, h, onlyTaken_nil rfl⟩

/-- Only the edges on which `in_ready` is low need a proof. -/
theorem inReadyEventually.of_not_ready {p : Nat → PortsIn} {s : State}
    (h : inReady s = false → inReadyEventually p s) : inReadyEventually p s := by
  cases hready : inReady s with
  | true => exact .of_ready hready
  | false => exact h hready

section TokenEnabled

variable {p : PortsIn} {s : State} (hp : undisturbed p s) (hon : tokenEnabled s = true) (hready : inReady s = false)
include hp hon hready

theorem edge_takes_head (hvalid : outValid s = true) (hout : p.outReady = true) :
    edge p s = .next (tick [.pop] s (deliverHead s)) := by
  have hev := edgeEvents_of_pop hp (startReady_of_tokenEnabled hon) hvalid hout (Or.inr hready)
  have hrun : runEvents (edgeEvents p s) s = .next (deliverHead s) := by
    rw [hev, runEvents_cons, exec_pop_eq (outq_ne_nil_of_outValid hvalid), andThen_next, runEvents_nil]
  rw [edge_of_runEvents hrun, hev]

theorem edge_takes_nothing (h : p.outReady = true → outValid s = false) : edge p s = .next (tick [] s s) :=
  edge_of_no_event (edgeEvents_of_none hp (fun _ => startReady_of_tokenEnabled hon) (fun _ => hready) h)

end TokenEnabled

/-- From every state that takes tokens with the queue `q`, and in every such environment, `in_ready` rises. -/
def inReadyRisesWith (q : List OutEntry) : Prop :=
  ∀ (p : Nat → PortsIn) (s : State), keepsTaking p → tokenEnabled s = true → s.outq = q → inReadyEventually p s

/-- With an empty queue the stall of `in_ready` is counted down. -/
theorem inReadyRisesWith_nil : inReadyRisesWith [] := by
  intro p s hp hon hq
  induction hn : s.inStall generalizing p s with
  | zero => exact .of_ready ((inReady_iff s).2 ⟨hon, hn, Or.inl hq⟩)
  | succ n ih =>
    have hready : inReady s = false := by simp [inReady, hn]
    have hvalid : outValid s = false := by simp [outValid, popEnabled, hq]
    exact .of_edge (edge_takes_nothing (hp.undisturbed 0 s) hon hready fun _ => hvalid) (onlyTaken_nil rfl)
      (ih _ _ hp.shift hon hq (by rw [tick_inStall, hn]; rfl))

section Head

variable {e : OutEntry} {q : List OutEntry} (hrest : inReadyRisesWith q)
include hrest

theorem inReadyEventually_of_taken {p : Nat → PortsIn} {s : State} (hp : keepsTaking p) (hon : tokenEnabled s = true)
    (hq : s.outq = e :: q) (hvalid : outValid s = true) (hout : (p 0).outReady = true) : inReadyEventually p s :=
  .of_not_ready fun hready =>
    .of_edge (edge_takes_head (hp.undisturbed 0 s) hon hready hvalid hout) (onlyTaken_deliverHead hq)
      (hrest _ _ hp.shift hon (congrArg List.tail hq))

/-- An offered byte stays offered until the sink is ready, on the `j`-th edge at the latest. -/
theorem inReadyEventually_of_offered {p : Nat → PortsIn} {s : State} (hp : keepsTaking p) (hon : tokenEnabled s = true)
    (hq : s.outq = e :: q) (hvalid : outValid s = true) {j : Nat} (hj : (p j).outReady = true) :
    inReadyEventually p s := by
  induction j generalizing p s with
  | zero => exact inReadyEventually_of_taken hrest hp hon hq hvalid hj
  | succ j ih =>
    cases hout : (p 0).outReady with
    | true => exact inReadyEventually_of_taken hrest hp hon hq hvalid hout
    | false =>
      refine .of_not_ready fun hready => ?_
      exact .of_edge (edge_takes_nothing (hp.undisturbed 0 s) hon hready (by simp [hout])) (onlyTaken_nil rfl)
        (ih hp.shift hon hq (outValid_tick hvalid rfl (outq_ne_nil_of_outValid hvalid)) hj)

/-- A queued byte is offered when its stall is counted down. -/
theorem inReadyRisesWith_cons : inReadyRisesWith (e :: q) := by
  intro p s hp hon hq
  induction hn : s.outStall generalizing p s with
  | zero =>
    obtain ⟨j, -, hj⟩ := hp.2 0
    exact inReadyEventually_of_offered hrest hp hon hq ((outValid_iff s).2 ⟨by simp [hq], hn⟩) hj
  | succ n ih =>
    have hvalid : outValid s = false := outValid_of_stalled (by simp [hn])
    refine .of_not_ready fun hready => ?_
    exact .of_edge (edge_takes_nothing (hp.undisturbed 0 s) hon hready fun _ => hvalid) (onlyTaken_nil rfl)
      (ih _ _ hp.shift hon hq (by rw [outStall_tick_of_invalid hvalid, hn]; rfl))

end Head

theorem inReadyRisesWith_all (q : List OutEntry) : inReadyRisesWith q := by
  induction q with
  | nil => exact inReadyRisesWith_nil
  | cons e q ih => exact inReadyRisesWith_cons ih

/-- Settles O45: the stalls are counted down, and by induction on the queue the sink takes what stands before
`in_ready`. -/
theorem readySignalsEventuallyHigh : Obligations.ReadySignalsEventuallyHigh := by
  refine fun s => ⟨startReady_eventually, outValid_eventually,
    fun hp hq => inReady_eventually_of_empty ((tokenEnabled_iff s).2 hp) hq, fun hp p hquiet hsink => ?_⟩
  exact inReadyRisesWith_all s.outq p s ⟨hquiet, hsink⟩ ((tokenEnabled_iff s).2 hp) rfl

end Sys2Proof.Machine

/-! PROOFS. FAIL (60_exceptions.md R121, R122, R127): taken while a session is active, ignored elsewhere, so that the
first cause stays; and what the sink has accepted by then is a first part of the stream (R125). -/

namespace Sys2Proof.Machine

open Sys2Proof Sys2Proof.Config

/-! FAIL. -/

theorem busy_eq_false_iff (s : State) :
    busy s = false ↔ s.phase = .idle ∨ s.phase = .failed ∨ (s.phase = .drained ∧ s.outq = []) := by
  unfold busy
  cases s.phase <;> simp

theorem exec_fail_of_busy {s : State} (h : busy s = true) (m : FailMask) : exec (.fail m) s = .next (takeFailure m s) :=
  (execFail_next m s _).2 (if_pos h).symm

theorem exec_fail_of_not_busy {s : State} (h : busy s = false) (m : FailMask) : exec (.fail m) s = .next s :=
  (execFail_next m s _).2 (by rw [h]; rfl)

/-- Settles O37: a session is active exactly in the first states (R114), and there FAIL is taken. -/
theorem failIsTakenOrIgnored : Obligations.FailIsTakenOrIgnored := by
  refine fun m s => ⟨fun hactive => ?_, fun hrest => exec_fail_of_not_busy ((busy_eq_false_iff s).2 hrest) m⟩
  refine ⟨_, exec_fail_of_busy ((busy_iff s).2 hactive) m, rfl, rfl, rfl, rfl, rfl, wf_freeTable _, ?_⟩
  exact ⟨rfl, rfl, rfl, rfl, rfl, rfl, rfl⟩

/-- Settles O38: a FAIL that is taken leaves FAILED, where no session is active and the next FAIL is ignored. -/
theorem firstCauseIsKept : Obligations.FirstCauseIsKept := by
  intro m n s t hbusy ht
  obtain rfl : takeFailure m s = t := Host.Outcome.next.inj ((exec_fail_of_busy hbusy m).symm.trans ht)
  have hinactive : busy (takeFailure m s) = false := (busy_eq_false_iff _).2 (Or.inr (Or.inl rfl))
  exact ⟨exec_fail_of_not_busy hinactive n, rfl, hinactive, rfl, rfl⟩

/-! What the sink has accepted. -/

theorem streamBytes_prefix (f : Nat → Bool) {m n : Nat} (h : m ≤ n) : streamBytes f m <+: streamBytes f n :=
  streamBytes_take f h ▸ List.take_prefix m _

section Encoding

variable {cs : List Nat} {rest : List Byte} {s : State}

theorem Encoding.busy (h : Encoding cs rest s) : busy s = true := by
  obtain ⟨out, todo, -, htodo, -⟩ := h.progress
  exact (busy_iff s).2 (htodo.phase.imp_right Or.inl)

/-- The whole bytes of the codes emitted so far are a first part of PACK of all codes (R87). -/
theorem Encoding.sunk_prefix (h : Encoding cs rest s) : s.sunk <+: pack BITS (cs ++ [4095]) := by
  obtain ⟨out, todo, hcs, -, hstream⟩ := h.progress
  have hlen : out.length * BITS / 8 ≤ packedLength BITS (cs ++ [4095]).length := by
    simp only [hcs, packedLength, List.length_append, BITS_eq]
    omega
  have hbytes : s.sunk ++ s.outq.map OutEntry.byte <+: pack BITS (cs ++ [4095]) := by
    rw [hstream.bytes, pack_eq_streamBytes]
    exact streamBytes_prefix (sessionStream cs) hlen
  exact (List.prefix_append _ _).trans hbytes

end Encoding

section Finished

variable {z : List Byte} {s : State}

/-- POP moves a byte from the queue to the sink and changes nothing else (R112). -/
theorem Finished.after_pop {t : State} (h : Finished z s) (ht : exec .pop s = .next t) : Finished z t := by
  obtain ⟨e, q, hq, rfl⟩ := (execPop_next s t).1 ht
  refine ⟨h.phase, ?_, h.cause⟩
  rw [List.append_assoc, List.singleton_append, ← List.map_cons, ← hq]
  exact h.bytes

theorem Finished.after_pops {n : Nat} {t : State} (h : Finished z s)
    (ht : runEvents (List.replicate n .pop) s = .next t) : Finished z t := by
  induction n generalizing s with
  | zero =>
    obtain rfl : s = t := Host.Outcome.next.inj ht
    exact h
  | succ n ih =>
    obtain ⟨u, hu, htail⟩ := (andThen_eq_next _ _ _).1 ht
    exact ih (h.after_pop hu) htail

/-- With bytes still queued the sink has accepted a proper first part. -/
theorem Finished.sunk_proper_prefix (h : Finished z s) (hq : s.outq ≠ []) : s.sunk <+: z ∧ s.sunk ≠ z := by
  rw [← h.bytes]
  exact ⟨List.prefix_append _ _, by simpa using hq⟩

theorem Finished.sunk_of_empty (h : Finished z s) (hq : s.outq = []) : s.sunk = z := by
  rw [← h.bytes, hq, List.map_nil, List.append_nil]

end Finished

/-- A session after END and any number of POPs is finished with COMPRESS of the bytes consumed. -/
theorem finished_of_run {es : List Instr} {n : Nat} {s u : State} (hs : startEnabled s = true)
    (hes : ∀ i ∈ es, midSession i = true)
    (hu : runEvents (.start :: (es ++ .endInput :: List.replicate n .pop)) s = .next u) :
    ∃ z, compress hw (bytesOf es) = .ok z ∧ Finished z u := by
  rw [runEvents_start hs, runEvents_append] at hu
  obtain ⟨v, hv, hend⟩ := (andThen_eq_next _ _ _).1 hu
  have hbefore := (encoding_startSession_append_nil (bytesOf es) s).after_midSession hes hv
  obtain ⟨t, z, ht, hz, hfinished, -⟩ := hbefore.exec_end_finished
  rw [runEvents_cons, ht, andThen_next] at hend
  exact ⟨z, hz, hfinished.after_pops hend⟩

/-- Settles O56: before END the session is under way for every input that extends its bytes; after END it is finished,
and the queue decides whether it is still active. -/
theorem failedSessionDeliveredAPrefix : Obligations.FailedSessionDeliveredAPrefix := by
  refine ⟨fun es m more s t hs hes ht => ?_, fun es n m s u hs hes hu => ?_⟩
  · rw [runEvents_start hs, runEvents_append] at ht
    obtain ⟨u, hu, hfail⟩ := (andThen_eq_next _ _ _).1 ht
    have hunderway := (encoding_startSession (bytesOf es ++ more) s).after_midSession hes hu
    rw [runEvents_cons, exec_fail_of_busy hunderway.busy, andThen_next] at hfail
    obtain rfl : takeFailure m u = t := Host.Outcome.next.inj hfail
    exact ⟨rfl, rfl, _, compress_eq _, hunderway.sunk_prefix⟩
  · obtain ⟨z, hz, hfinished⟩ := finished_of_run hs hes hu
    refine ⟨fun hq => ?_, fun hq => ?_⟩
    · have hbusy : busy u = true := (busy_iff u).2 (Or.inr (Or.inr ⟨hfinished.phase, hq⟩))
      exact ⟨_, z, exec_fail_of_busy hbusy m, rfl, rfl, rfl, rfl, hz, hfinished.sunk_proper_prefix hq⟩
    · have hinactive : busy u = false := (busy_eq_false_iff u).2 (Or.inr (Or.inr ⟨hfinished.phase, hq⟩))
      refine ⟨exec_fail_of_not_busy hinactive m, done_of_drained hfinished.phase hq, ?_⟩
      rw [hz, hfinished.sunk_of_empty hq]

end Sys2Proof.Machine

/-! PROOFS. RESET (70_reset_and_hazards.md R135): it happens in every state and leaves IDLE with an empty queue, and these
two decide the outputs. -/

namespace Sys2Proof.Machine

open Sys2Proof Sys2Proof.Config

theorem exec_reset (s : State) : exec .reset s = .next (resetCore s) := rfl

section Idle

variable {s : State}

theorem startEnabled_of_idle (hp : s.phase = .idle) : startEnabled s = true := (startEnabled_iff s).2 (Or.inl hp)

theorem inReady_of_idle (hp : s.phase = .idle) : inReady s = false :=
  Bool.eq_false_iff.2 fun hready => by
    simpa [hp] using (tokenEnabled_iff s).1 (tokenEnabled_of_inReady hready)

theorem dictFull_of_idle (hp : s.phase = .idle) : dictFull s = false := by
  simp [dictFull, hp]

end Idle

theorem outValid_of_outq_nil {s : State} (hq : s.outq = []) : outValid s = false :=
  Bool.eq_false_iff.2 fun hvalid => outq_ne_nil_of_outValid hvalid hq

/-- RESET leaves the model's own fields alone. -/
theorem sameOwn_resetCore (s : State) : sameOwn s (resetCore s) := ⟨rfl, rfl, rfl, rfl, rfl, rfl, rfl⟩

/-- Settles O39: the control registers are written by RESET; the outputs follow from IDLE and the empty queue. -/
theorem resetClearsControl : Obligations.ResetClearsControl := by
  intro s
  have hp : (resetCore s).phase = .idle := resetCore_phase s
  have hq : (resetCore s).outq = [] := resetCore_outq s
  obtain ⟨hbusy, hdone, hfailed⟩ := status_of_idle hp
  exact ⟨resetCore s, exec_reset s, hp, hq, resetCore_failCause s, resetCore_sunk s, resetCore_cur s,
    wf_freeTable s.freeIx, sameOwn_resetCore s, hbusy, hdone, hfailed, hit_idle _ hp, dictFull_of_idle hp,
    outValid_of_outq_nil hq, inReady_of_idle hp, startEnabled_of_idle hp⟩

end Sys2Proof.Machine
